-- ==== Sys2Proof/Word.lean ====
section
/-! DEFINITION. The word and byte types of VMFS16. -/

namespace Sys2Proof

/-- A register value, memory word, address or instruction: 16 bits (00_scope R8, `XLEN`). -/
abbrev Word := BitVec 16

/-- A character of the input and output interfaces (00_scope R5, `CHAR_BITS`), and half a word. -/
abbrev Byte := BitVec 8

end Sys2Proof
end

