-- ==== Sys2Proof/Syntax.lean ====
section
/-! DEFINITION. The instructions of VMFS16, one constructor per row of spec/opcode_table.json. -/

namespace Sys2Proof

/-- A 3-bit register field; number `i` selects R`i` (10_state R20). -/
abbrev Reg := BitVec 3

/-- The 3-bit condition mask of BR, in the bit order of COND (30_encoding R62). -/
abbrev CondMask := BitVec 3

/-- The 16 opcodes (30_encoding R66). -/
inductive Opcode where
  | br | add | ld | st | jsr | and | ldr | str | rti | not | ldi | sti | jmp | res | lea | trap
deriving DecidableEq, Repr

/-- The instructions. Fields are those of 30_encoding R61 and R62. An ignored field (30_encoding R68)
is no operand, but for RTI, RES and an undefined TRAP, whose whole word the fault record keeps
(60_exceptions R136; notes/assumptions/13.md). -/
inductive Instr where
  /-- ADD, register form (40_alu R81). -/
  | addReg (dr sr1 sr2 : Reg)
  /-- ADD, immediate form (40_alu R82). -/
  | addImm (dr sr1 : Reg) (imm5 : BitVec 5)
  /-- AND, register form (40_alu R83). -/
  | andReg (dr sr1 sr2 : Reg)
  /-- AND, immediate form (40_alu R84). -/
  | andImm (dr sr1 : Reg) (imm5 : BitVec 5)
  /-- NOT (40_alu R85). -/
  | not (dr sr : Reg)
  /-- BR (41_control R90). -/
  | br (cond : CondMask) (offset9 : BitVec 9)
  /-- JMP (41_control R91). -/
  | jmp (baseR : Reg)
  /-- JSR (41_control R92). -/
  | jsr (offset11 : BitVec 11)
  /-- JSRR (41_control R93). -/
  | jsrr (baseR : Reg)
  /-- LD (42_load_store R100). -/
  | ld (dr : Reg) (offset9 : BitVec 9)
  /-- LDI (42_load_store R101). -/
  | ldi (dr : Reg) (offset9 : BitVec 9)
  /-- LDR (42_load_store R102). -/
  | ldr (dr baseR : Reg) (offset6 : BitVec 6)
  /-- LEA (42_load_store R103). -/
  | lea (dr : Reg) (offset9 : BitVec 9)
  /-- ST (42_load_store R104). -/
  | st (sr : Reg) (offset9 : BitVec 9)
  /-- STI (42_load_store R105). -/
  | sti (sr : Reg) (offset9 : BitVec 9)
  /-- STR (42_load_store R106). -/
  | str (sr baseR : Reg) (offset6 : BitVec 6)
  /-- TRAP x20, GETC (43_trap R117). -/
  | trapGetc
  /-- TRAP x21, OUT (43_trap R118). -/
  | trapOut
  /-- TRAP x22, PUTS (43_trap R119). -/
  | trapPuts
  /-- TRAP x23, IN (43_trap R120). -/
  | trapIn
  /-- TRAP x24, PUTSP (43_trap R121). -/
  | trapPutsp
  /-- TRAP x25, HALT (43_trap R122). -/
  | trapHalt
  /-- TRAP with an undefined vector 0x00..0x1F (43_trap R123). -/
  | trapUndef00 (ign : BitVec 4) (vector : BitVec 8)
  /-- TRAP with an undefined vector 0x26..0x27 (43_trap R123). -/
  | trapUndef26 (ign : BitVec 4) (vector : BitVec 8)
  /-- TRAP with an undefined vector 0x28..0x2F (43_trap R123). -/
  | trapUndef28 (ign : BitVec 4) (vector : BitVec 8)
  /-- TRAP with an undefined vector 0x30..0x3F (43_trap R123). -/
  | trapUndef30 (ign : BitVec 4) (vector : BitVec 8)
  /-- TRAP with an undefined vector 0x40..0x7F (43_trap R123). -/
  | trapUndef40 (ign : BitVec 4) (vector : BitVec 8)
  /-- TRAP with an undefined vector 0x80..0xFF (43_trap R123). -/
  | trapUndef80 (ign : BitVec 4) (vector : BitVec 8)
  /-- RTI, unimplemented (43_trap R124). -/
  | rti (ign : BitVec 12)
  /-- RES, the reserved opcode (43_trap R125). -/
  | res (ign : BitVec 12)
deriving DecidableEq, Repr

end Sys2Proof
end

