-- ==== Sys2Proof/WellFormed.lean ====
section
/-! DEFINITION. Which terms of `Instr` stand for an instruction word. The widths of the fields are in
their types; what is left to check is that an undefined-vector row holds a vector of that row. -/

namespace Sys2Proof

/-- The term stands for an instruction word: the vector of an undefined TRAP lies in its row's range
(43_trap R123 and the six rows of spec/opcode_table.json). -/
def Instr.wellFormed : Instr → Bool
  | .trapUndef00 _ v => v.ule 0x1F#8
  | .trapUndef26 _ v => (0x26#8).ule v && v.ule 0x27#8
  | .trapUndef28 _ v => (0x28#8).ule v && v.ule 0x2F#8
  | .trapUndef30 _ v => (0x30#8).ule v && v.ule 0x3F#8
  | .trapUndef40 _ v => (0x40#8).ule v && v.ule 0x7F#8
  | .trapUndef80 _ v => (0x80#8).ule v
  | .addReg .. | .addImm .. | .andReg .. | .andImm .. | .not .. | .br .. | .jmp .. | .jsr ..
  | .jsrr .. | .ld .. | .ldi .. | .ldr .. | .lea .. | .st .. | .sti .. | .str .. | .trapGetc
  | .trapOut | .trapPuts | .trapIn | .trapPutsp | .trapHalt | .rti .. | .res .. => true

end Sys2Proof
end

