-- ==== Sys2Proof/Decode.lean ====
section
/-! DEFINITION. The decoder and the encoder of VMFS16 (30_encoding). The opcode numbers, the spec's
`OPCODE_MAP`, stand in this file only. -/

namespace Sys2Proof

/-- `OPCODE_MAP`: bits [15:12] of each opcode (30_encoding R66). -/
def Opcode.number : Opcode → BitVec 4
  | .br => 0x0#4
  | .add => 0x1#4
  | .ld => 0x2#4
  | .st => 0x3#4
  | .jsr => 0x4#4
  | .and => 0x5#4
  | .ldr => 0x6#4
  | .str => 0x7#4
  | .rti => 0x8#4
  | .not => 0x9#4
  | .ldi => 0xA#4
  | .sti => 0xB#4
  | .jmp => 0xC#4
  | .res => 0xD#4
  | .lea => 0xE#4
  | .trap => 0xF#4

/-- `OPCODE_MAP` read the other way: every 4-bit number is an opcode (30_encoding R65, R66). -/
def opcodeOfNumber (n : BitVec 4) : Opcode :=
  if n = 0x0#4 then .br
  else if n = 0x1#4 then .add
  else if n = 0x2#4 then .ld
  else if n = 0x3#4 then .st
  else if n = 0x4#4 then .jsr
  else if n = 0x5#4 then .and
  else if n = 0x6#4 then .ldr
  else if n = 0x7#4 then .str
  else if n = 0x8#4 then .rti
  else if n = 0x9#4 then .not
  else if n = 0xA#4 then .ldi
  else if n = 0xB#4 then .sti
  else if n = 0xC#4 then .jmp
  else if n = 0xD#4 then .res
  else if n = 0xE#4 then .lea
  else .trap

/-! ## The fields of an instruction word (30_encoding R62) -/

/-- Bits [15:12]. -/
def fieldOpcode (w : Word) : BitVec 4 := w.extractLsb' 12 4
/-- Bits [11:9]: DR, SR of a store, or the condition mask of BR. -/
def field11to9 (w : Word) : BitVec 3 := w.extractLsb' 9 3
/-- Bits [8:6]: SR1, SR of NOT, or BaseR. -/
def field8to6 (w : Word) : BitVec 3 := w.extractLsb' 6 3
/-- Bits [2:0]: SR2. -/
def field2to0 (w : Word) : BitVec 3 := w.extractLsb' 0 3
/-- Bit 5: the mode of ADD and AND. -/
def fieldMode5 (w : Word) : BitVec 1 := w.extractLsb' 5 1
/-- Bit 11: the mode of JSR/JSRR. -/
def fieldMode11 (w : Word) : BitVec 1 := w.extractLsb' 11 1
/-- Bits [4:0]. -/
def fieldImm5 (w : Word) : BitVec 5 := w.extractLsb' 0 5
/-- Bits [5:0]. -/
def fieldOffset6 (w : Word) : BitVec 6 := w.extractLsb' 0 6
/-- Bits [8:0]. -/
def fieldOffset9 (w : Word) : BitVec 9 := w.extractLsb' 0 9
/-- Bits [10:0]. -/
def fieldOffset11 (w : Word) : BitVec 11 := w.extractLsb' 0 11
/-- Bits [7:0]. -/
def fieldVector (w : Word) : BitVec 8 := w.extractLsb' 0 8
/-- Bits [11:8], ignored by TRAP. -/
def fieldTrapIgnored (w : Word) : BitVec 4 := w.extractLsb' 8 4
/-- Bits [11:0], ignored by RTI and RES. -/
def fieldNfIgnored (w : Word) : BitVec 12 := w.extractLsb' 0 12

/-! ## Decoding -/

/-- The sub-forms of TRAP by vector (30_encoding R67(c), R69(c)). -/
def decodeTrap (ign : BitVec 4) (v : BitVec 8) : Instr :=
  if v = 0x20#8 then .trapGetc
  else if v = 0x21#8 then .trapOut
  else if v = 0x22#8 then .trapPuts
  else if v = 0x23#8 then .trapIn
  else if v = 0x24#8 then .trapPutsp
  else if v = 0x25#8 then .trapHalt
  else if v.ule 0x1F#8 then .trapUndef00 ign v
  else if v.ule 0x27#8 then .trapUndef26 ign v
  else if v.ule 0x2F#8 then .trapUndef28 ign v
  else if v.ule 0x3F#8 then .trapUndef30 ign v
  else if v.ule 0x7F#8 then .trapUndef40 ign v
  else .trapUndef80 ign v

/-- Decoding is total and depends on no state (30_encoding R65): the opcode (R66), then bit 5, bit 11
or the vector (R67). -/
def decodeWord (w : Word) : Instr :=
  match opcodeOfNumber (fieldOpcode w) with
  | .br => .br (field11to9 w) (fieldOffset9 w)
  | .add =>
    if fieldMode5 w = 1#1 then .addImm (field11to9 w) (field8to6 w) (fieldImm5 w)
    else .addReg (field11to9 w) (field8to6 w) (field2to0 w)
  | .ld => .ld (field11to9 w) (fieldOffset9 w)
  | .st => .st (field11to9 w) (fieldOffset9 w)
  | .jsr => if fieldMode11 w = 1#1 then .jsr (fieldOffset11 w) else .jsrr (field8to6 w)
  | .and =>
    if fieldMode5 w = 1#1 then .andImm (field11to9 w) (field8to6 w) (fieldImm5 w)
    else .andReg (field11to9 w) (field8to6 w) (field2to0 w)
  | .ldr => .ldr (field11to9 w) (field8to6 w) (fieldOffset6 w)
  | .str => .str (field11to9 w) (field8to6 w) (fieldOffset6 w)
  | .rti => .rti (fieldNfIgnored w)
  | .not => .not (field11to9 w) (field8to6 w)
  | .ldi => .ldi (field11to9 w) (fieldOffset9 w)
  | .sti => .sti (field11to9 w) (fieldOffset9 w)
  | .jmp => .jmp (field8to6 w)
  | .res => .res (fieldNfIgnored w)
  | .lea => .lea (field11to9 w) (fieldOffset9 w)
  | .trap => decodeTrap (fieldTrapIgnored w) (fieldVector w)

/-- Why bytes are no instruction. Decoding of a whole word never fails (30_encoding R65). -/
inductive DecodeReject where
  /-- Fewer than the two bytes of a word are left (30_encoding R60). -/
  | truncated
deriving DecidableEq, Repr

/-- Decode the first word of a list of bytes laid out as the model's memory lays out words, high half
first (notes/assumptions/1.md), and return the bytes after it. -/
def decode : List Byte → Except DecodeReject (Instr × List Byte)
  | hi :: lo :: rest => .ok (decodeWord (hi ++ lo), rest)
  | _ => .error .truncated

/-! ## Encoding (30_encoding R73: the canonical words) -/

/-- The opcode of an instruction (30_encoding R66). -/
def Instr.opcode : Instr → Opcode
  | .addReg .. | .addImm .. => .add
  | .andReg .. | .andImm .. => .and
  | .not .. => .not
  | .br .. => .br
  | .jmp .. => .jmp
  | .jsr .. | .jsrr .. => .jsr
  | .ld .. => .ld
  | .ldi .. => .ldi
  | .ldr .. => .ldr
  | .lea .. => .lea
  | .st .. => .st
  | .sti .. => .sti
  | .str .. => .str
  | .trapGetc | .trapOut | .trapPuts | .trapIn | .trapPutsp | .trapHalt
  | .trapUndef00 .. | .trapUndef26 .. | .trapUndef28 .. | .trapUndef30 .. | .trapUndef40 ..
  | .trapUndef80 .. => .trap
  | .rti .. => .rti
  | .res .. => .res

/-- Format RRR. -/
def encodeRRR (op : Opcode) (dr sr1 sr2 : Reg) : Word :=
  op.number ++ dr ++ sr1 ++ 0b000#3 ++ sr2
/-- Format RRI. -/
def encodeRRI (op : Opcode) (dr sr1 : Reg) (imm5 : BitVec 5) : Word :=
  op.number ++ dr ++ sr1 ++ 1#1 ++ imm5
/-- Format RO. -/
def encodeRO (op : Opcode) (r : BitVec 3) (offset9 : BitVec 9) : Word :=
  op.number ++ r ++ offset9
/-- Format RBO. -/
def encodeRBO (op : Opcode) (r baseR : Reg) (offset6 : BitVec 6) : Word :=
  op.number ++ r ++ baseR ++ offset6
/-- Format TV. -/
def encodeTV (ign : BitVec 4) (vector : BitVec 8) : Word :=
  Opcode.trap.number ++ ign ++ vector

/-- The word of an instruction: every ignored bit that is no operand is 0, except NOT's, which are 1
(30_encoding R73). -/
def encode : Instr → Word
  | .addReg dr sr1 sr2 => encodeRRR .add dr sr1 sr2
  | .addImm dr sr1 imm5 => encodeRRI .add dr sr1 imm5
  | .andReg dr sr1 sr2 => encodeRRR .and dr sr1 sr2
  | .andImm dr sr1 imm5 => encodeRRI .and dr sr1 imm5
  | .not dr sr => Opcode.not.number ++ dr ++ sr ++ 0b111111#6
  | .br cond offset9 => encodeRO .br cond offset9
  | .jmp baseR => Opcode.jmp.number ++ 0b000#3 ++ baseR ++ 0b000000#6
  | .jsr offset11 => Opcode.jsr.number ++ 1#1 ++ offset11
  | .jsrr baseR => Opcode.jsr.number ++ 0b000#3 ++ baseR ++ 0b000000#6
  | .ld dr offset9 => encodeRO .ld dr offset9
  | .ldi dr offset9 => encodeRO .ldi dr offset9
  | .ldr dr baseR offset6 => encodeRBO .ldr dr baseR offset6
  | .lea dr offset9 => encodeRO .lea dr offset9
  | .st sr offset9 => encodeRO .st sr offset9
  | .sti sr offset9 => encodeRO .sti sr offset9
  | .str sr baseR offset6 => encodeRBO .str sr baseR offset6
  | .trapGetc => encodeTV 0#4 0x20#8
  | .trapOut => encodeTV 0#4 0x21#8
  | .trapPuts => encodeTV 0#4 0x22#8
  | .trapIn => encodeTV 0#4 0x23#8
  | .trapPutsp => encodeTV 0#4 0x24#8
  | .trapHalt => encodeTV 0#4 0x25#8
  | .trapUndef00 ign v => encodeTV ign v
  | .trapUndef26 ign v => encodeTV ign v
  | .trapUndef28 ign v => encodeTV ign v
  | .trapUndef30 ign v => encodeTV ign v
  | .trapUndef40 ign v => encodeTV ign v
  | .trapUndef80 ign v => encodeTV ign v
  | .rti ign => Opcode.rti.number ++ ign
  | .res ign => Opcode.res.number ++ ign

/-- The bits of an instruction's word that take no part in decoding or execution (30_encoding R68). -/
def Instr.ignoredBits : Instr → Word
  | .addReg .. | .andReg .. => 0x0018#16
  | .not .. => 0x003F#16
  | .jmp .. => 0x0E3F#16
  | .jsrr .. => 0x063F#16
  | .trapGetc | .trapOut | .trapPuts | .trapIn | .trapPutsp | .trapHalt
  | .trapUndef00 .. | .trapUndef26 .. | .trapUndef28 .. | .trapUndef30 .. | .trapUndef40 ..
  | .trapUndef80 .. => 0x0F00#16
  | .rti .. | .res .. => 0x0FFF#16
  | .addImm .. | .andImm .. | .br .. | .jsr .. | .ld .. | .ldi .. | .ldr .. | .lea .. | .st ..
  | .sti .. | .str .. => 0x0000#16

/-- The bytes of an instruction in the model's memory layout. -/
def encodeBytes (i : Instr) : List Byte :=
  [(encode i).extractLsb' 8 8, (encode i).extractLsb' 0 8]

/-- The instruction the decoder reads from the bits `w` of a row that the opcode table gives `nbits`
bits; bits above `nbits` are 0. The word goes through `decode` as two bytes. -/
def decodeTableWord (nbits w : Nat) : Option Instr :=
  let word : Word := BitVec.ofNat 16 (w % 2 ^ nbits)
  match decode [word.extractLsb' 8 8, word.extractLsb' 0 8] with
  | .ok (i, _) => some i
  | .error _ => none

end Sys2Proof
end

