-- ==== Sys2Proof/Config.lean ====
section
/-! DEFINITION. What is fixed for the machine, the values `State.reset` names for the run parameters that
the spec leaves open (00_scope R5, R6), and the free values of the host's answers. The addresses of the
keyboard registers stand in Machine/Ops.lean, the flag patterns in Machine/Flags.lean, the opcode numbers
in Decode.lean. -/

namespace Sys2Proof.Config

/-- `PC_START`, the pc when execution begins (00_scope R5, 10_state R37). -/
def pcStart : Word := 0x3000#16

/-- DESIGN CHOICE, unsafe (notes/assumptions/3.md): the value `State.reset` gives R0 to R7; the spec
leaves `REG_INIT` open (10_state R37). -/
def resetReg : Word := 0#16

/-- DESIGN CHOICE, unsafe (notes/assumptions/4.md): the value `State.reset` gives COND; the spec leaves
`COND_INIT` open (10_state R37). -/
def resetCond : BitVec 3 := 0b000#3

/-- DESIGN CHOICE, unsafe (notes/assumptions/7.md): the value of `TRAP_LINKS_R7` in `State.reset`, the
spec's own default for this open parameter (43_trap R116). -/
def resetTrapLinksR7 : Bool := false

/-- DESIGN CHOICE, unsafe (notes/assumptions/8.md): the value of `HALT_NOTICE` in `State.reset`; the spec
gives no text (43_trap R122). -/
def resetHaltNotice : List Byte := []

/-- DESIGN CHOICE, unsafe (notes/assumptions/8.md): the value of `IN_PROMPT` in `State.reset`; the spec
gives no text (43_trap R120). -/
def resetInPrompt : List Byte := []

/-- A free value (DESIGN CHOICE: notes/assumptions/16.md): answer number `n` of the input device in a run whose
answers are not listed, none where `InAvail()` answers false and the character of the `InRead()` that
follows where it answers true (10_state R34). It has no body, so a theorem holds for every sequence of
answers, those of an infinite `IN` among them. -/
opaque inputAnswer : Nat → Option Byte

end Sys2Proof.Config
end

