-- ==== Sys2Proof/Machine/State.lean ====
section
/-! DEFINITION. The state of VMFS16 (10_state): all that the spec gives the machine, the run's open
parameters, and two fields of the model's own; the state after reset (70_reset R155). -/

namespace Sys2Proof.Machine

/-- Memory: byte cells, addresses strictly rising, no cell listed that holds 0, which is what an unlisted
cell reads as (10_state R31). The word at address `a` is the cells `2 * a`, its high half, and
`2 * a + 1`, its low half (DESIGN CHOICE, safe: notes/assumptions/1.md). -/
abbrev Memory := List Host.Cell

/-- One cell of the canonical form: inside the 65536 words of the address space (10_state R29), and not
what an unlisted cell reads as. -/
abbrev Memory.cellOk (c : Host.Cell) : Prop := c.1 < 131072 ∧ c.2 ≠ 0#8

/-- The canonical form of a memory. -/
abbrev Memory.wf (m : Memory) : Prop :=
  m.Pairwise (fun c d => c.1 < d.1) ∧ ∀ c ∈ m, Memory.cellOk c

/-- `RUN` (10_state R26). -/
inductive RunState where
  | running | halted | faulted
deriving DecidableEq, Repr

/-- The two faults of the machine (60_exceptions R135). -/
inductive FaultCause where
  /-- RTI or RES was executed (60_exceptions R137). -/
  | illegalOpcode
  /-- TRAP with a vector outside 0x20..0x25 was executed (60_exceptions R138). -/
  | undefinedTrapVector
deriving DecidableEq, Repr

/-- The record `FAULT` when it is not empty (10_state R27). -/
structure FaultRecord where
  cause : FaultCause
  /-- The address the faulting instruction was fetched from. -/
  addr : Word
  /-- The instruction word. -/
  info : Word
deriving DecidableEq, Repr

/-- One answer of the input device to a call of `InAvail()` (10_state R34). -/
inductive InputAnswer where
  /-- No character is available at this call. -/
  | idle
  /-- A character is available, and the `InRead()` that follows returns it. -/
  | key (c : Byte)
deriving DecidableEq, Repr

/-- The answers of the input device after the listed ones. -/
inductive LaterAnswers where
  /-- The same answer for ever: `always .idle` is a finite `IN` that is used up, `always (.key c)` an infinite
  `IN` of the character `c`, available at every call. -/
  | always (a : InputAnswer)
  /-- Any sequence, an infinite `IN` included: the free values of Config from number `n` on
  (notes/assumptions/16.md). -/
  | free (n : Nat)
deriving DecidableEq, Repr

/-- What is still to come of the answers to `InAvail()`, and with them of `IN` (10_state R34): the listed
answers, first call first, then the later ones (DESIGN CHOICE: notes/assumptions/5.md). -/
structure Input where
  listed : List InputAnswer
  later : LaterAnswers
deriving DecidableEq, Repr

/-- The two routines that read memory until a terminator (43_trap R119, R121). -/
inductive StringRoutine where
  | puts | putsp
deriving DecidableEq, Repr

/-- One event of `out_log` (10_state R35). -/
inductive OutEvent where
  | byte (b : Byte)
  | flush
deriving DecidableEq, Repr

/-- The state of the machine. -/
structure State where
  /-- R0 to R7 (10_state R20). -/
  regs : Vector Word 8
  /-- The program counter (10_state R22); inside an instruction's meaning it holds the address of the
  instruction plus 1 (00_scope R12). -/
  pc : Word
  /-- COND: bit 2 is N, bit 1 is Z, bit 0 is P (10_state R24). -/
  cond : BitVec 3
  /-- RUN (10_state R26). -/
  run : RunState
  /-- FAULT (10_state R27). -/
  fault : Option FaultRecord
  /-- M, the keyboard registers KBSR and KBDR among its cells (10_state R30, R32). -/
  mem : Memory
  /-- `in_pos`, the number of characters consumed (10_state R34). -/
  inPos : Nat
  /-- `out_log`, oldest event first (10_state R35). -/
  outLog : List OutEvent
  /-- The host's answers to the coming calls of `InAvail()`. The keys among them are what is left of `IN`
  (10_state R34; DESIGN CHOICE: notes/assumptions/5.md). -/
  input : Input
  /-- `TRAP_LINKS_R7` (43_trap R116), a parameter of the run: no instruction writes it. -/
  trapLinksR7 : Bool
  /-- `HALT_NOTICE` (43_trap R122), a parameter of the run: no instruction writes it. -/
  haltNotice : List Byte
  /-- `IN_PROMPT` (43_trap R120), a parameter of the run: no instruction writes it. -/
  inPrompt : List Byte
  /-- The model's own: the IN at `pc` has emitted its prompt and is held (43_trap R126;
  DESIGN CHOICE: notes/assumptions/10.md). -/
  inPrompted : Bool
  /-- The model's own: the machine is inside PUTS or PUTSP, and the routine's next read is at this address.
  The pc is past the TRAP already (60_exceptions R147(b); DESIGN CHOICE: notes/assumptions/6.md). -/
  inString : Option (StringRoutine × Word)
deriving DecidableEq, Repr

/-- Why the model stops without a next state: never. The faults of the machine are next states
(60_exceptions R139), and so are a hold and a hang (R147), so this type has no constructor. Safe. -/
inductive Fault where
deriving DecidableEq, Repr

/-- Why an instruction has no meaning. -/
inductive Refusal where
  /-- Raised by `exec` for an instruction that has no meaning yet; no arm does so. Safe. -/
  | notModelled (mnemonic : String)
deriving DecidableEq, Repr

/-- What the host chooses for a run: every parameter that the spec leaves open (00_scope R6). -/
structure Launch where
  /-- `MEM_INIT`, what the loader left (10_state R31). -/
  memInit : Memory
  /-- `REG_INIT` (10_state R37). -/
  regInit : Vector Word 8
  /-- `COND_INIT` (10_state R37). -/
  condInit : BitVec 3
  /-- `IN`, finite or infinite, and the answers of `InAvail()` (10_state R34). -/
  input : Input
  trapLinksR7 : Bool
  haltNotice : List Byte
  inPrompt : List Byte
deriving DecidableEq, Repr

/-- The state in which the run that the host chose begins (70_reset R155). -/
def State.launch (l : Launch) : State where
  regs := l.regInit
  pc := Config.pcStart
  cond := l.condInit
  run := .running
  fault := none
  mem := l.memInit
  inPos := 0
  outLog := []
  input := l.input
  trapLinksR7 := l.trapLinksR7
  haltNotice := l.haltNotice
  inPrompt := l.inPrompt
  inPrompted := false
  inString := none

/-- The launch that `State.reset` stands for: no image loaded, an empty `IN`, and the values that Config
names for the parameters the spec leaves open (DESIGN CHOICE, unsafe: notes/assumptions/2.md to 8.md). -/
def Launch.bare : Launch where
  memInit := []
  regInit := Vector.replicate 8 Config.resetReg
  condInit := Config.resetCond
  input := ⟨[], .always .idle⟩
  trapLinksR7 := Config.resetTrapLinksR7
  haltNotice := Config.resetHaltNotice
  inPrompt := Config.resetInPrompt

/-- The machine right after reset (70_reset R155), for the bare launch. -/
def State.reset : State := State.launch Launch.bare

end Sys2Proof.Machine
end

