-- ==== Sys2Proof/Machine/Ops.lean ====
section
/-! DEFINITION. The named operations over memory, registers and the interfaces: `MemRead` and `MemWrite`
(20_memory R41, R43), the fetch (70_reset R160), input and output (10_state R34, R35), the entry of a
TRAP (43_trap R116), the string loops of PUTS and PUTSP (43_trap R119, R121), and taking a fault
(60_exceptions R139). The machine has no return from a fault (60_exceptions R144). -/

namespace Sys2Proof.Machine

/-! ## Byte cells and words of memory -/

/-- What the cell at byte address `b` holds; an unlisted cell holds 0 (10_state R31). -/
def Memory.readByte : Memory → Nat → Byte
  | [], _ => 0#8
  | c :: rest, b => if c.1 = b then c.2 else Memory.readByte rest b

/-- Put a cell in its place among cells of rising addresses. -/
def Memory.insertCell : Memory → Nat → Byte → Memory
  | [], b, v => [(b, v)]
  | c :: rest, b, v =>
    if c.1 < b then c :: Memory.insertCell rest b v else (b, v) :: c :: rest

/-- Write one cell, keeping the canonical form: whatever was listed for it goes, and the new value is listed
unless it is what an unlisted cell reads as. -/
def Memory.writeByte (m : Memory) (b : Nat) (v : Byte) : Memory :=
  if v = 0#8 then m.filter (fun c => c.1 != b)
  else Memory.insertCell (m.filter (fun c => c.1 != b)) b v

/-- The byte address of the high half of the word at `a` (notes/assumptions/1.md). -/
def highAddr (a : Word) : Nat := 2 * a.toNat

/-- The byte address of the low half of the word at `a`. -/
def lowAddr (a : Word) : Nat := 2 * a.toNat + 1

/-- Bits [15:8] of a word. -/
def highHalf (w : Word) : Byte := w.extractLsb' 8 8

/-- Bits [7:0] of a word. -/
def lowHalf (w : Word) : Byte := w.extractLsb' 0 8

/-- `M[a]` in a memory. -/
def Memory.readWord (m : Memory) (a : Word) : Word :=
  m.readByte (highAddr a) ++ m.readByte (lowAddr a)

/-- `M[a] <- v` in a memory. -/
def Memory.writeWord (m : Memory) (a v : Word) : Memory :=
  (m.writeByte (highAddr a) (highHalf v)).writeByte (lowAddr a) (lowHalf v)

/-- `M[a]`, the raw cell, with no side effect (10_state R30). -/
def State.cell (s : State) (a : Word) : Word := s.mem.readWord a

/-- `MemWrite(a, 16, v)`: a plain store everywhere (20_memory R43). -/
def State.memWrite (s : State) (a v : Word) : State :=
  { s with mem := s.mem.writeWord a v }

/-! ## General registers -/

/-- `x[r]` (10_state R20). No register is hardwired (10_state R21). -/
def State.reg (s : State) (r : BitVec 3) : Word := s.regs[r.toNat]'r.isLt

/-- `x[r] <- v` (10_state R20). -/
def State.setReg (s : State) (r : BitVec 3) (v : Word) : State :=
  { s with regs := s.regs.set r.toNat v r.isLt }

/-- `pc <- t` (10_state R22). -/
def State.setPc (s : State) (t : Word) : State := { s with pc := t }

/-! ## The input and output devices -/

/-- `zext_16` of a character (00_scope R10). -/
def zext16 (c : Byte) : Word := c.setWidth 16

/-- The answer to the next call, where none is listed. -/
def LaterAnswers.first : LaterAnswers → InputAnswer
  | .always a => a
  | .free n =>
    match Config.inputAnswer n with
    | none => .idle
    | some c => .key c

/-- The later answers after that one. -/
def LaterAnswers.rest : LaterAnswers → LaterAnswers
  | .always a => .always a
  | .free n => .free (n + 1)

/-- The answer to the next call of `InAvail()` (10_state R34). -/
def Input.answer : Input → InputAnswer
  | ⟨[], later⟩ => later.first
  | ⟨a :: _, _⟩ => a

/-- What is to come after the next call. -/
def Input.rest : Input → Input
  | ⟨[], later⟩ => ⟨[], later.rest⟩
  | ⟨_ :: more, later⟩ => ⟨more, later⟩

/-- `InRead()` has returned a character (10_state R34): the answers after it are left, `in_pos` is advanced. -/
def State.consume (s : State) (rest : Input) : State :=
  { s with input := rest, inPos := s.inPos + 1 }

/-- `InAvail()` has answered false: the answers after it are left. -/
def State.decline (s : State) (rest : Input) : State := { s with input := rest }

/-- One call of `InAvail()` and, where it answers true, the `InRead()` that follows it (10_state R34):
the character, if there was one, and the state after the call. -/
def State.ask (s : State) : Option Byte × State :=
  match s.input.answer with
  | .idle => (none, s.decline s.input.rest)
  | .key c => (some c, s.consume s.input.rest)

/-- The first character among the listed answers and the one after them, and what is to come after it. -/
def firstKey : List InputAnswer → LaterAnswers → Option (Byte × Input)
  | [], later =>
    match later.first with
    | .idle => none
    | .key c => some (c, ⟨[], later.rest⟩)
  | .idle :: more, later => firstKey more later
  | .key c :: more, later => some (c, ⟨more, later⟩)

/-- `wait until InAvail()` and then `InRead()` (43_trap R126): the character and the state after it, or
none where this step's calls find no character available. -/
def State.await (s : State) : Option (Byte × State) :=
  match firstKey s.input.listed s.input.later with
  | none => none
  | some (c, rest) => some (c, s.consume rest)

/-- What is to come after a step in which a wait found no character: if the later answers are all alike,
nothing has changed; if they are free, the wait has used the listed ones and the next
(notes/assumptions/9.md). -/
def Input.missed (i : Input) : Input :=
  match i.later with
  | .always _ => i
  | .free n => ⟨[], .free (n + 1)⟩

/-- `Out(b)` (10_state R35). -/
def State.out (s : State) (b : Byte) : State :=
  { s with outLog := s.outLog ++ [.byte b] }

/-- `Out(b)` for each byte of a sequence, in order. -/
def State.outAll (s : State) (bs : List Byte) : State :=
  { s with outLog := s.outLog ++ bs.map .byte }

/-- `Flush()` (10_state R35). -/
def State.flush (s : State) : State := { s with outLog := s.outLog ++ [.flush] }

/-! ## MemRead, with the keyboard poll -/

/-- KBSR, the keyboard status register (00_scope R5). -/
def kbsr : Word := 0xFE00#16

/-- KBDR, the keyboard data register (00_scope R5). -/
def kbdr : Word := 0xFE02#16

/-- `KBSR_READY` (00_scope R5). -/
def kbsrReady : Word := 0x8000#16

/-- The keyboard poll that a read of KBSR performs (20_memory R41). -/
def State.poll (s : State) : State :=
  match s.ask with
  | (some c, s') => (s'.memWrite kbsr kbsrReady).memWrite kbdr (zext16 c)
  | (none, s') => s'.memWrite kbsr 0#16

/-- The state after `MemRead(a, 16)`: changed only where the read polls. -/
def State.afterRead (s : State) (a : Word) : State := if a = kbsr then s.poll else s

/-- `MemRead(a, 16)` (20_memory R41): the word read, and the state after the read. -/
def State.memRead (s : State) (a : Word) : Word × State :=
  ((s.afterRead a).cell a, s.afterRead a)

/-- The fetch of a step (70_reset R160): the instruction word, and the state with the pc incremented. -/
def State.fetch (s : State) : Word × State :=
  ((s.memRead s.pc).1, (s.memRead s.pc).2.setPc (s.pc + 1#16))

/-! ## TRAP -/

/-- `if TRAP_LINKS_R7 then x[7] <- pc`, which precedes the dispatch of every TRAP (43_trap R115, R116). -/
def State.trapEnter (s : State) : State :=
  if s.trapLinksR7 then s.setReg 7#3 s.pc else s

/-- The state of a GETC or IN that is held (43_trap R126): the step has not happened, so the pc is back at
the address of the instruction (DEDUCED: notes/assumptions/9.md). -/
def State.hold (s : State) : State := { s with pc := s.pc - 1#16, input := s.input.missed }

/-- Enough reads for any string that ends, unless the later answers are free: every 65536 reads in a row poll
once, and a poll uses up a listed answer; after the listed ones one more sweep of memory finds the
terminator or there is none (60_exceptions R147(b); notes/assumptions/6.md). -/
def stringFuel (input : Input) : Nat := 65536 * (input.listed.length + 2)

/-- The loop of PUTS from address `a` (43_trap R119), for at most `fuel` reads: the address of the next
read, where the string has not ended, and the state after the reads. -/
def putsLoop : (fuel : Nat) → (a : Word) → State → Option Word × State
  | 0, a, s => (some a, s)
  | fuel + 1, a, s =>
    let w := (s.memRead a).1
    let s' := (s.memRead a).2
    if w = 0#16 then (none, s')
    else putsLoop fuel (a + 1#16) (s'.out (lowHalf w))

/-- The loop of PUTSP from address `a` (43_trap R121), for at most `fuel` reads. -/
def putspLoop : (fuel : Nat) → (a : Word) → State → Option Word × State
  | 0, a, s => (some a, s)
  | fuel + 1, a, s =>
    let w := (s.memRead a).1
    let s' := (s.memRead a).2
    if w = 0#16 then (none, s')
    else if highHalf w = 0#8 then (none, s'.out (lowHalf w))
    else putspLoop fuel (a + 1#16) ((s'.out (lowHalf w)).out (highHalf w))

/-- The loop of a string routine. -/
def StringRoutine.loop : StringRoutine → (fuel : Nat) → (a : Word) → State → Option Word × State
  | .puts => putsLoop
  | .putsp => putspLoop

/-- The end of a string routine: `Flush()`, and the machine is in no string routine. -/
def State.endString (s : State) : State := { s.flush with inString := none }

/-- The machine stays inside a string routine, whose next read is at `a` (60_exceptions R147(b)). -/
def State.stayInString (s : State) (r : StringRoutine) (a : Word) : State :=
  { s with inString := some (r, a) }

/-- One step's share of a string routine, from address `a`: all that is left of it, or as many reads as a
step makes (60_exceptions R147(b); DESIGN CHOICE: notes/assumptions/6.md). -/
def State.stringPart (s : State) (r : StringRoutine) (a : Word) : State :=
  match r.loop (stringFuel s.input) a s with
  | (none, t) => t.endString
  | (some b, t) => t.stayInString r b

/-! ## Faults -/

/-- The cause codes (60_exceptions R136). -/
def FaultCause.code : FaultCause → Nat
  | .illegalOpcode => 1
  | .undefinedTrapVector => 2

/-- `raise F(info)`, the one fault-entry sequence (60_exceptions R139). -/
def State.raise (s : State) (f : FaultCause) (instr : Word) : State :=
  { s with fault := some ⟨f, s.pc - 1#16, instr⟩, run := .faulted }

end Sys2Proof.Machine
end

