-- ==== Sys2Proof/Machine/Flags.lean ====
section
/-! DEFINITION. The condition flags: their bit patterns (10_state R24), `SetFlags` (40_alu R80) and the
test of BR (41_control R90). -/

namespace Sys2Proof.Machine

/-- NEGATIVE (10_state R24). -/
def flagN : BitVec 3 := 0b100#3

/-- ZERO (10_state R24). -/
def flagZ : BitVec 3 := 0b010#3

/-- POSITIVE (10_state R24). -/
def flagP : BitVec 3 := 0b001#3

/-- The flag that the sign rule gives a value (40_alu R80). -/
def signFlag (v : Word) : BitVec 3 :=
  if v = 0#16 then flagZ else if v.msb then flagN else flagP

/-- `SetFlags(r)`: COND from the value R`r` holds at that moment (40_alu R80). -/
def State.setFlags (s : State) (r : BitVec 3) : State :=
  { s with cond := signFlag (s.reg r) }

/-- `(COND & cond) != 0b000` (41_control R90). -/
def State.condMet (s : State) (mask : BitVec 3) : Bool := s.cond &&& mask != 0b000#3

end Sys2Proof.Machine
end

