-- ==== Sys2Proof/Machine/Operands.lean ====
section
/-! DEFINITION. The operand forms: sign-extended fields (00_scope R9, 30_encoding R63) and the three
effective-address computations (42_load_store R99), all modulo 65536 (20_memory R50). -/

namespace Sys2Proof.Machine

/-- `sext_16` of an `n`-bit field (00_scope R9). -/
def sext16 {n : Nat} (f : BitVec n) : Word := f.signExtend 16

/-- PC-relative: `pc + sext_16(offset)`, `pc` already incremented (42_load_store R99, 00_scope R12); also
the target of BR and JSR (41_control R95). -/
def State.eaPc {n : Nat} (s : State) (offset : BitVec n) : Word := s.pc + sext16 offset

/-- Base plus offset: `x[BaseR] + sext_16(offset6)` (42_load_store R99). -/
def State.eaBase (s : State) (baseR : BitVec 3) (offset6 : BitVec 6) : Word :=
  s.reg baseR + sext16 offset6

/-- Indirect: the pointer is read from memory, with any poll of that read (42_load_store R99). The
effective address, and the state after the pointer read. -/
def State.eaIndirect (s : State) (offset9 : BitVec 9) : Word × State :=
  s.memRead (s.eaPc offset9)

end Sys2Proof.Machine
end

