-- ==== Sys2Proof/Machine/Control.lean ====
section
/-! DEFINITION. Control transfer: BR, JMP, JSR and JSRR (41_control). None links a return address. -/

namespace Sys2Proof.Machine

/-- BR (41_control R90). -/
def execBr (cond : CondMask) (offset9 : BitVec 9) (s : State) : Host.Outcome State Fault Refusal :=
  .next (if s.condMet cond then s.setPc (s.eaPc offset9) else s)

/-- JMP (41_control R91). -/
def execJmp (baseR : Reg) (s : State) : Host.Outcome State Fault Refusal :=
  .next (s.setPc (s.reg baseR))

/-- JSR (41_control R92). -/
def execJsr (offset11 : BitVec 11) (s : State) : Host.Outcome State Fault Refusal :=
  .next (s.setPc (s.eaPc offset11))

/-- JSRR (41_control R93). -/
def execJsrr (baseR : Reg) (s : State) : Host.Outcome State Fault Refusal :=
  .next (s.setPc (s.reg baseR))

end Sys2Proof.Machine
end

