-- ==== Sys2Proof/Machine/LoadStore.lean ====
section
/-! DEFINITION. Loads, stores and LEA (42_load_store). -/

namespace Sys2Proof.Machine

/-- LD (42_load_store R100): COND is not changed. -/
def execLd (dr : Reg) (offset9 : BitVec 9) (s : State) : Host.Outcome State Fault Refusal :=
  let r := s.memRead (s.eaPc offset9)
  .next (r.2.setReg dr r.1)

/-- LDI (42_load_store R101): the pointer read completes before the data read starts. -/
def execLdi (dr : Reg) (offset9 : BitVec 9) (s : State) : Host.Outcome State Fault Refusal :=
  let p := s.eaIndirect offset9
  let r := p.2.memRead p.1
  .next ((r.2.setReg dr r.1).setFlags dr)

/-- LDR (42_load_store R102): COND is not changed. -/
def execLdr (dr baseR : Reg) (offset6 : BitVec 6) (s : State) : Host.Outcome State Fault Refusal :=
  let r := s.memRead (s.eaBase baseR offset6)
  .next (r.2.setReg dr r.1)

/-- LEA (42_load_store R103): no memory access. -/
def execLea (dr : Reg) (offset9 : BitVec 9) (s : State) : Host.Outcome State Fault Refusal :=
  .next ((s.setReg dr (s.eaPc offset9)).setFlags dr)

/-- ST (42_load_store R104). -/
def execSt (sr : Reg) (offset9 : BitVec 9) (s : State) : Host.Outcome State Fault Refusal :=
  .next (s.memWrite (s.eaPc offset9) (s.reg sr))

/-- STI (42_load_store R105). -/
def execSti (sr : Reg) (offset9 : BitVec 9) (s : State) : Host.Outcome State Fault Refusal :=
  let p := s.eaIndirect offset9
  .next (p.2.memWrite p.1 (p.2.reg sr))

/-- STR (42_load_store R106). -/
def execStr (sr baseR : Reg) (offset6 : BitVec 6) (s : State) : Host.Outcome State Fault Refusal :=
  .next (s.memWrite (s.eaBase baseR offset6) (s.reg sr))

end Sys2Proof.Machine
end

