-- ==== Sys2Proof/Machine/Operate.lean ====
section
/-! DEFINITION. The operate instructions ADD, AND and NOT (40_alu). -/

namespace Sys2Proof.Machine

/-- ADD, register form (40_alu R81). -/
def execAddReg (dr sr1 sr2 : Reg) (s : State) : Host.Outcome State Fault Refusal :=
  .next ((s.setReg dr (s.reg sr1 + s.reg sr2)).setFlags dr)

/-- ADD, immediate form (40_alu R82). -/
def execAddImm (dr sr1 : Reg) (imm5 : BitVec 5) (s : State) : Host.Outcome State Fault Refusal :=
  .next ((s.setReg dr (s.reg sr1 + sext16 imm5)).setFlags dr)

/-- AND, register form (40_alu R83). -/
def execAndReg (dr sr1 sr2 : Reg) (s : State) : Host.Outcome State Fault Refusal :=
  .next ((s.setReg dr (s.reg sr1 &&& s.reg sr2)).setFlags dr)

/-- AND, immediate form (40_alu R84). -/
def execAndImm (dr sr1 : Reg) (imm5 : BitVec 5) (s : State) : Host.Outcome State Fault Refusal :=
  .next ((s.setReg dr (s.reg sr1 &&& sext16 imm5)).setFlags dr)

/-- NOT (40_alu R85): COND is not changed. -/
def execNot (dr sr : Reg) (s : State) : Host.Outcome State Fault Refusal :=
  .next (s.setReg dr (~~~(s.reg sr)))

end Sys2Proof.Machine
end

