-- ==== Sys2Proof/Machine/System.lean ====
section
/-! DEFINITION. TRAP with its routines and undefined vectors, and the unimplemented opcodes RTI and RES
(43_trap_system). COND is written by none of them (43_trap R115). -/

namespace Sys2Proof.Machine

/-- GETC (43_trap R117): one atomic step, held with no state change while no character is available
(43_trap R126). -/
def execTrapGetc (s : State) : Host.Outcome State Fault Refusal :=
  match s.trapEnter.await with
  | none => .next s.hold
  | some (c, s') => .next (s'.setReg 0#3 (zext16 c))

/-- OUT (43_trap R118). -/
def execTrapOut (s : State) : Host.Outcome State Fault Refusal :=
  .next (s.trapEnter.out (lowHalf (s.trapEnter.reg 0#3)))

/-- PUTS (43_trap R119). -/
def execTrapPuts (s : State) : Host.Outcome State Fault Refusal :=
  .next (s.trapEnter.stringPart .puts (s.trapEnter.reg 0#3))

/-- The first part of IN: the prompt, emitted once (43_trap R120, R126). -/
def State.prompt (s : State) : State :=
  if s.inPrompted then s else { s.outAll s.inPrompt with inPrompted := true }

/-- The end of IN's second part: it is no longer held. -/
def State.endPrompt (s : State) : State := { s with inPrompted := false }

/-- IN (43_trap R120): the prompt, then the wait, in which it may be held (43_trap R126), then the
character to R0 and its echo. -/
def execTrapIn (s : State) : Host.Outcome State Fault Refusal :=
  match s.trapEnter.prompt.await with
  | none => .next s.trapEnter.prompt.hold
  | some (c, s') => .next ((s'.setReg 0#3 (zext16 c)).out c).endPrompt

/-- PUTSP (43_trap R121). -/
def execTrapPutsp (s : State) : Host.Outcome State Fault Refusal :=
  .next (s.trapEnter.stringPart .putsp (s.trapEnter.reg 0#3))

/-- HALT (43_trap R122). -/
def execTrapHalt (s : State) : Host.Outcome State Fault Refusal :=
  .next { (s.trapEnter.outAll s.haltNotice).flush with run := .halted }

/-- TRAP with an undefined vector: R7 if it links, then the fault (43_trap R116, R123). -/
def State.raiseVector (s : State) (ign : BitVec 4) (vector : BitVec 8) : State :=
  s.trapEnter.raise .undefinedTrapVector (encodeTV ign vector)

/-- TRAP 0x00..0x1F (43_trap R123). -/
def execTrapUndef00 (ign : BitVec 4) (vector : BitVec 8) (s : State) :
    Host.Outcome State Fault Refusal := .next (s.raiseVector ign vector)

/-- TRAP 0x26..0x27 (43_trap R123). -/
def execTrapUndef26 (ign : BitVec 4) (vector : BitVec 8) (s : State) :
    Host.Outcome State Fault Refusal := .next (s.raiseVector ign vector)

/-- TRAP 0x28..0x2F (43_trap R123). -/
def execTrapUndef28 (ign : BitVec 4) (vector : BitVec 8) (s : State) :
    Host.Outcome State Fault Refusal := .next (s.raiseVector ign vector)

/-- TRAP 0x30..0x3F (43_trap R123). -/
def execTrapUndef30 (ign : BitVec 4) (vector : BitVec 8) (s : State) :
    Host.Outcome State Fault Refusal := .next (s.raiseVector ign vector)

/-- TRAP 0x40..0x7F (43_trap R123). -/
def execTrapUndef40 (ign : BitVec 4) (vector : BitVec 8) (s : State) :
    Host.Outcome State Fault Refusal := .next (s.raiseVector ign vector)

/-- TRAP 0x80..0xFF (43_trap R123). -/
def execTrapUndef80 (ign : BitVec 4) (vector : BitVec 8) (s : State) :
    Host.Outcome State Fault Refusal := .next (s.raiseVector ign vector)

/-- RTI (43_trap R124): `IllegalOpcode`. -/
def execRti (ign : BitVec 12) (s : State) : Host.Outcome State Fault Refusal :=
  .next (s.raise .illegalOpcode (encode (.rti ign)))

/-- RES (43_trap R125): `IllegalOpcode`. -/
def execRes (ign : BitVec 12) (s : State) : Host.Outcome State Fault Refusal :=
  .next (s.raise .illegalOpcode (encode (.res ign)))

end Sys2Proof.Machine
end

