-- ==== Sys2Proof/Machine/Dispatch.lean ====
section
/-! DEFINITION. One arm per instruction (30_encoding R66). `exec` runs in the state after the fetch: its
pc is the address of the instruction plus 1 (00_scope R12). -/

namespace Sys2Proof.Machine
open Sys2Proof

def exec (i : Instr) (s : State) : Host.Outcome State Fault Refusal :=
  match i with
  | .addReg dr sr1 sr2 => Sys2Proof.Machine.execAddReg dr sr1 sr2 s
  | .addImm dr sr1 imm5 => Sys2Proof.Machine.execAddImm dr sr1 imm5 s
  | .andReg dr sr1 sr2 => Sys2Proof.Machine.execAndReg dr sr1 sr2 s
  | .andImm dr sr1 imm5 => Sys2Proof.Machine.execAndImm dr sr1 imm5 s
  | .not dr sr => Sys2Proof.Machine.execNot dr sr s
  | .br cond offset9 => Sys2Proof.Machine.execBr cond offset9 s
  | .jmp baseR => Sys2Proof.Machine.execJmp baseR s
  | .jsr offset11 => Sys2Proof.Machine.execJsr offset11 s
  | .jsrr baseR => Sys2Proof.Machine.execJsrr baseR s
  | .ld dr offset9 => Sys2Proof.Machine.execLd dr offset9 s
  | .ldi dr offset9 => Sys2Proof.Machine.execLdi dr offset9 s
  | .ldr dr baseR offset6 => Sys2Proof.Machine.execLdr dr baseR offset6 s
  | .lea dr offset9 => Sys2Proof.Machine.execLea dr offset9 s
  | .st sr offset9 => Sys2Proof.Machine.execSt sr offset9 s
  | .sti sr offset9 => Sys2Proof.Machine.execSti sr offset9 s
  | .str sr baseR offset6 => Sys2Proof.Machine.execStr sr baseR offset6 s
  | .trapGetc => Sys2Proof.Machine.execTrapGetc s
  | .trapOut => Sys2Proof.Machine.execTrapOut s
  | .trapPuts => Sys2Proof.Machine.execTrapPuts s
  | .trapIn => Sys2Proof.Machine.execTrapIn s
  | .trapPutsp => Sys2Proof.Machine.execTrapPutsp s
  | .trapHalt => Sys2Proof.Machine.execTrapHalt s
  | .trapUndef00 ign vector => Sys2Proof.Machine.execTrapUndef00 ign vector s
  | .trapUndef26 ign vector => Sys2Proof.Machine.execTrapUndef26 ign vector s
  | .trapUndef28 ign vector => Sys2Proof.Machine.execTrapUndef28 ign vector s
  | .trapUndef30 ign vector => Sys2Proof.Machine.execTrapUndef30 ign vector s
  | .trapUndef40 ign vector => Sys2Proof.Machine.execTrapUndef40 ign vector s
  | .trapUndef80 ign vector => Sys2Proof.Machine.execTrapUndef80 ign vector s
  | .rti ign => Sys2Proof.Machine.execRti ign s
  | .res ign => Sys2Proof.Machine.execRes ign s

end Sys2Proof.Machine
end

