-- ==== Sys2Proof/Machine/Step.lean ====
section
/-! DEFINITION. One step of the core (70_reset R160), and the state in which the next step runs a given
instruction. -/

namespace Sys2Proof.Machine

/-- One step, taken while RUN is RUNNING: fetch, increment, dispatch (70_reset R160); or, while the machine is
inside a string routine, more of that routine (60_exceptions R147(b); notes/assumptions/6.md). In HALTED and FAULTED
the state is frozen (10_state R38; DEDUCED: notes/assumptions/11.md). -/
def step (s : State) : Host.Outcome State Fault Refusal :=
  match s.run with
  | .running =>
    match s.inString with
    | none => exec (decodeWord s.fetch.1) s.fetch.2
    | some (r, a) => .next (s.stringPart r a)
  | .halted => .next s
  | .faulted => .next s

/-- `s` with the low `nbits` bits of `w` stored as the word that the very next step fetches and runs, as a
load by the host would have it (notes/assumptions/11.md). Where the pc is KBSR, whose stored content is
never what is fetched (70_reset R166), the pc moves to the start address; a run that has ended is
running again; no IN is held, and the machine is in no string routine. -/
def State.withFetchWord (s : State) (nbits w : Nat) : State :=
  let start := if s.pc = kbsr then Config.pcStart else s.pc
  { s with
    pc := start
    mem := s.mem.writeWord start (BitVec.ofNat 16 (w % 2 ^ nbits))
    run := .running
    fault := if s.run = .running then s.fault else none
    inPrompted := false
    inString := none }

end Sys2Proof.Machine
end

