-- ==== Sys2Proof/Safety.lean ====
section
/-! DEFINITION. The terms in which claims about runs are made: what a state may be (`State.Inv`), what two
states have in common (the frames), and the loops of PUTS and PUTSP as the spec writes them, with no
bound on the reads. -/

namespace Sys2Proof

open Machine

/-- The fault that executing an instruction raises, if it raises one (60_exceptions R135). -/
def Instr.raises : Instr → Option FaultCause
  | .rti .. | .res .. => some .illegalOpcode
  | .trapUndef00 .. | .trapUndef26 .. | .trapUndef28 .. | .trapUndef30 .. | .trapUndef40 ..
  | .trapUndef80 .. => some .undefinedTrapVector
  | .addReg .. | .addImm .. | .andReg .. | .andImm .. | .not .. | .br .. | .jmp .. | .jsr ..
  | .jsrr .. | .ld .. | .ldi .. | .ldr .. | .lea .. | .st .. | .sti .. | .str .. | .trapGetc
  | .trapOut | .trapPuts | .trapIn | .trapPutsp | .trapHalt => none

/-- The instruction calls SetFlags (10_state R25). -/
def Instr.setsFlags : Instr → Bool
  | .addReg .. | .addImm .. | .andReg .. | .andImm .. | .ldi .. | .lea .. => true
  | .not .. | .br .. | .jmp .. | .jsr .. | .jsrr .. | .ld .. | .ldr .. | .st .. | .sti .. | .str ..
  | .trapGetc | .trapOut | .trapPuts | .trapIn | .trapPutsp | .trapHalt | .trapUndef00 ..
  | .trapUndef26 .. | .trapUndef28 .. | .trapUndef30 .. | .trapUndef40 .. | .trapUndef80 ..
  | .rti .. | .res .. => false

/-- The instruction is a TRAP, whatever its vector (30_encoding R66). -/
def Instr.isTrap (i : Instr) : Bool := i.opcode == .trap

/-- The instruction is a store (42_load_store R107). -/
def Instr.isStore : Instr → Bool
  | .st .. | .sti .. | .str .. => true
  | .addReg .. | .addImm .. | .andReg .. | .andImm .. | .not .. | .br .. | .jmp .. | .jsr ..
  | .jsrr .. | .ld .. | .ldi .. | .ldr .. | .lea .. | .trapGetc | .trapOut | .trapPuts | .trapIn
  | .trapPutsp | .trapHalt | .trapUndef00 .. | .trapUndef26 .. | .trapUndef28 .. | .trapUndef30 ..
  | .trapUndef40 .. | .trapUndef80 .. | .rti .. | .res .. => false

/-- The instruction's meaning reads memory after its fetch (20_memory R56). -/
def Instr.readsMemory : Instr → Bool
  | .ld .. | .ldi .. | .ldr .. | .sti .. | .trapPuts | .trapPutsp => true
  | .addReg .. | .addImm .. | .andReg .. | .andImm .. | .not .. | .br .. | .jmp .. | .jsr ..
  | .jsrr .. | .lea .. | .st .. | .str .. | .trapGetc | .trapOut | .trapIn | .trapHalt
  | .trapUndef00 .. | .trapUndef26 .. | .trapUndef28 .. | .trapUndef30 .. | .trapUndef40 ..
  | .trapUndef80 .. | .rti .. | .res .. => false

/-- The general registers that the instruction may write (10_state R21, R28): DR; R0 for GETC and IN;
R7 for every TRAP of a run with `TRAP_LINKS_R7`. -/
def Instr.mayWrite (links : Bool) (i : Instr) (r : Reg) : Prop :=
  match i with
  | .addReg dr _ _ | .addImm dr _ _ | .andReg dr _ _ | .andImm dr _ _ | .not dr _ | .ld dr _
  | .ldi dr _ | .ldr dr _ _ | .lea dr _ => r = dr
  | .trapGetc | .trapIn => r = 0#3 ∨ (links = true ∧ r = 7#3)
  | .trapOut | .trapPuts | .trapPutsp | .trapHalt | .trapUndef00 .. | .trapUndef26 ..
  | .trapUndef28 .. | .trapUndef30 .. | .trapUndef40 .. | .trapUndef80 .. => links = true ∧ r = 7#3
  | .br .. | .jmp .. | .jsr .. | .jsrr .. | .st .. | .sti .. | .str .. | .rti .. | .res .. => False

end Sys2Proof

namespace Sys2Proof.Machine

/-! ## Frames: `t` has what `s` has -/

/-- Every byte of memory. -/
def SameMemory (s t : State) : Prop := ∀ b : Nat, t.mem.readByte b = s.mem.readByte b

/-- Every byte of memory outside the word at `a`. -/
def SameMemoryOff (a : Word) (s t : State) : Prop :=
  ∀ b : Nat, b ≠ highAddr a → b ≠ lowAddr a → t.mem.readByte b = s.mem.readByte b

/-- Every byte of memory outside the two keyboard registers, which a poll writes. -/
def SameMemoryOffKeyboard (s t : State) : Prop :=
  ∀ b : Nat, b ≠ highAddr kbsr → b ≠ lowAddr kbsr → b ≠ highAddr kbdr → b ≠ lowAddr kbdr →
    t.mem.readByte b = s.mem.readByte b

/-- Every general register. -/
def SameRegs (s t : State) : Prop := ∀ r : Reg, t.reg r = s.reg r

/-- Every general register but `d`. -/
def SameRegsOff (d : Reg) (s t : State) : Prop := ∀ r : Reg, r ≠ d → t.reg r = s.reg r

/-- The input device: what is to come of the input, and `in_pos`. -/
def SameInput (s t : State) : Prop := t.input = s.input ∧ t.inPos = s.inPos

/-- RUN, FAULT, and where the machine is inside an instruction: an IN that is held, a string routine. -/
def SameRun (s t : State) : Prop :=
  t.run = s.run ∧ t.fault = s.fault ∧ t.inPrompted = s.inPrompted ∧ t.inString = s.inString

/-- The parameters of the run, which no instruction writes (10_state, before R20). -/
def SameParams (s t : State) : Prop :=
  t.trapLinksR7 = s.trapLinksR7 ∧ t.haltNotice = s.haltNotice ∧ t.inPrompt = s.inPrompt

/-- Everything but the general registers, pc and COND: memory, the devices, RUN, FAULT, the parameters. -/
def SameOutside (s t : State) : Prop :=
  SameMemory s t ∧ SameInput s t ∧ t.outLog = s.outLog ∧ SameRun s t ∧ SameParams s t

/-- The registers after a TRAP that writes none itself: R7 holds the pc if TRAPs link, and the others
are as before (43_trap R116). -/
def TrapLinked (s t : State) : Prop :=
  SameRegsOff 7#3 s t ∧ t.reg 7#3 = if s.trapLinksR7 then s.pc else s.reg 7#3

/-! ## Runs -/

/-- The run is complete (60_exceptions R149). -/
def State.ended (s : State) : Prop := s.run = .halted ∨ s.run = .faulted

/-- `FAULT` is empty unless RUN is FAULTED, and otherwise names the fetch address, and a word whose
instruction raises the cause (10_state R27, 60_exceptions R136, R139). -/
def State.faultOk (s : State) : Prop :=
  match s.fault with
  | none => s.run ≠ .faulted
  | some f =>
    s.run = .faulted ∧ f.addr = s.pc - 1#16 ∧ (decodeWord f.info).raises = some f.cause

/-- A held IN is the instruction at the pc of a running machine, and it was not fetched from KBSR
(notes/assumptions/10.md). -/
def State.promptOk (s : State) : Prop :=
  s.inPrompted = true →
    s.run = .running ∧ s.pc ≠ kbsr ∧ decodeWord (s.cell s.pc) = .trapIn

/-- Inside a string routine the machine is running and no IN is held (notes/assumptions/6.md). -/
def State.stringOk (s : State) : Prop :=
  s.inString ≠ none → s.run = .running ∧ s.inPrompted = false

/-- What every state of a run satisfies. -/
structure State.Inv (s : State) : Prop where
  memory : s.mem.wf
  faults : s.faultOk
  prompt : s.promptOk
  strings : s.stringOk

/-- COND holds exactly one of the three flags (10_state R25). -/
def State.condOneHot (s : State) : Prop :=
  s.cond = 0b100#3 ∨ s.cond = 0b010#3 ∨ s.cond = 0b001#3

/-- What is to come after `k` calls of `InAvail()`. -/
def Input.drop : Nat → Input → Input
  | 0, i => i
  | k + 1, i => Input.drop k i.rest

/-- How many of the next `k` calls of `InAvail()` find a character. -/
def Input.keys : Nat → Input → Nat
  | 0, _ => 0
  | k + 1, i => (if i.answer = .idle then 0 else 1) + Input.keys k i.rest

/-- `t` is `s` after some calls of the input device: the answers to them are used up, in order, and `in_pos`
counts the characters among them (10_state R34). -/
def Drawn (s t : State) : Prop :=
  ∃ k, t.input = s.input.drop k ∧ t.inPos = s.inPos + s.input.keys k

/-- The first character to come is `c`, after `n` answers false, all of them listed. -/
def Input.keyAfter (i : Input) (n : Nat) (c : Byte) : Prop :=
  n ≤ i.listed.length ∧ (∀ k < n, (i.drop k).answer = .idle) ∧ (i.drop n).answer = .key c

/-- A string routine from `s`, whose loop is at `u`: it has written no register but R7, where TRAPs link, and no
byte of memory but in the keyboard registers, and it has emitted bytes only (43_trap R119, R121). -/
def StringFrame (s u : State) : Prop :=
  TrapLinked s u ∧ u.cond = s.cond ∧ u.pc = s.pc ∧ SameMemoryOffKeyboard s u ∧
  (s.mem.wf → u.mem.wf) ∧ Drawn s u ∧
  (∃ bs : List Byte, u.outLog = s.outLog ++ bs.map .byte) ∧ SameRun s u ∧ SameParams s u

/-- The number of characters left of a finite `IN` (10_state R34). -/
def keysLeft : List InputAnswer → Nat
  | [] => 0
  | .idle :: rest => keysLeft rest
  | .key _ :: rest => keysLeft rest + 1

/-! ## The string routines as the spec writes them -/

/-- The loop of PUTS (43_trap R119): from address `a` in `s`, it ends in `t`. -/
inductive PutsRun : Word → State → State → Prop where
  | stop (a : Word) (s : State) :
      (s.memRead a).1 = 0#16 → PutsRun a s (s.memRead a).2
  | char (a : Word) (s t : State) :
      (s.memRead a).1 ≠ 0#16 →
      PutsRun (a + 1#16) ((s.memRead a).2.out (lowHalf (s.memRead a).1)) t →
      PutsRun a s t

/-- The loop of PUTSP (43_trap R121): from address `a` in `s`, it ends in `t`. -/
inductive PutspRun : Word → State → State → Prop where
  | stop (a : Word) (s : State) :
      (s.memRead a).1 = 0#16 → PutspRun a s (s.memRead a).2
  | last (a : Word) (s : State) :
      (s.memRead a).1 ≠ 0#16 → highHalf (s.memRead a).1 = 0#8 →
      PutspRun a s ((s.memRead a).2.out (lowHalf (s.memRead a).1))
  | pair (a : Word) (s t : State) :
      (s.memRead a).1 ≠ 0#16 → highHalf (s.memRead a).1 ≠ 0#8 →
      PutspRun (a + 1#16)
        (((s.memRead a).2.out (lowHalf (s.memRead a).1)).out (highHalf (s.memRead a).1)) t →
      PutspRun a s t

/-- Part of the loop of PUTS: from address `a` in `s`, with no terminator read, it is at address `b` in `t`. -/
inductive PutsPart : Word → State → Word → State → Prop where
  | here (a : Word) (s : State) : PutsPart a s a s
  | char (a : Word) (s : State) (b : Word) (t : State) :
      (s.memRead a).1 ≠ 0#16 →
      PutsPart (a + 1#16) ((s.memRead a).2.out (lowHalf (s.memRead a).1)) b t →
      PutsPart a s b t

end Sys2Proof.Machine
end

