-- ==== Sys2Proof/Certificates/Slice0/Obligations.lean ====
section
/-! DEFINITION. The statements for the provers. Where a statement is about `exec`, the pc of `s` is already
the address of the instruction plus 1 (00_scope R12). Every register number, field, vector, ignored bit
and parameter value is quantified over, so that no form is shut out. -/

open Sys2Proof Sys2Proof.Machine

/-! ## Encoding -/

/-- Decoding the word of an instruction gives the instruction back, every operand at every value
(30_encoding R61, R62, R66, R73). -/
def Obligations.DecodeEncodeRoundTrip : Prop :=
  ∀ i : Instr, i.wellFormed = true →
    decodeWord (encode i) = i ∧
    ∀ rest : List Byte, decode (encodeBytes i ++ rest) = .ok (i, rest)

/-- Every word decodes to an instruction of the table, and decoding loses no bit but the ignored ones
(30_encoding R65, R68). -/
def Obligations.DecodeIsTotalAndKeepsFields : Prop :=
  ∀ w : Word, (decodeWord w).wellFormed = true ∧
    (encode (decodeWord w) ^^^ w) &&& ~~~((decodeWord w).ignoredBits) = 0#16

/-- Words that differ in ignored bits only behave the same: the same next state, but for the instruction
word that a fault records, which keeps those bits (30_encoding R68, 60_exceptions R136, R139; that they are
operands of RTI, RES and the undefined TRAPs is notes/assumptions/13.md); and the canonical words hold
zeros there, NOT's hold ones. -/
def Obligations.IgnoredBitsHaveNoEffect : Prop :=
  (∀ (w w' : Word) (s : State), (w ^^^ w') &&& ~~~((decodeWord w).ignoredBits) = 0#16 →
    ((decodeWord w).raises = none → exec (decodeWord w') s = exec (decodeWord w) s) ∧
    ∀ f, (decodeWord w).raises = some f →
      (decodeWord w').raises = some f ∧
      ∃ t, exec (decodeWord w) s = .next t ∧
        exec (decodeWord w') s = .next { t with fault := some ⟨f, s.pc - 1#16, w'⟩ }) ∧
  ∀ i : Instr, i.wellFormed = true → i.raises = none →
    encode i &&& i.ignoredBits = if i.opcode = .not then 0x003F#16 else 0x0000#16

/-- Words written out bit by bit from the formats of 30_encoding R61 decode to what they stand for. -/
def Obligations.SampleWordsDecode : Prop :=
  decodeWord 0b0001010011000100#16 = .addReg 2#3 3#3 4#3 ∧
  decodeWord 0b0101001010110000#16 = .andImm 1#3 2#3 0b10000#5 ∧
  decodeWord 0b0000011111111110#16 = .br 0b011#3 0b111111110#9 ∧
  decodeWord 0b0100110000000000#16 = .jsr 0b10000000000#11 ∧
  decodeWord 0b0110001010111111#16 = .ldr 1#3 2#3 0b111111#6 ∧
  decodeWord 0b1011011000010000#16 = .sti 3#3 16#9 ∧
  decodeWord 0b1111000000100101#16 = .trapHalt ∧
  decodeWord 0b1000101010111100#16 = .rti 0b101010111100#12

/-! ## Operands and flags -/

/-- The value of a sign-extended field (00_scope R9). -/
def Obligations.SignExtensionValue : Prop :=
  ∀ (n : Nat) (f : BitVec n), 1 ≤ n → n ≤ 16 →
    (sext16 f).toNat = if f.getLsbD (n - 1) = true then f.toNat + (65536 - 2 ^ n) else f.toNat

/-- SetFlags (40_alu R80). -/
def Obligations.SetFlagsSignRule : Prop :=
  ∀ (r : Reg) (s : State),
    (s.reg r = 0x0000#16 → (s.setFlags r).cond = 0b010#3) ∧
    (s.reg r ≠ 0x0000#16 → (s.reg r).getLsbD 15 = true → (s.setFlags r).cond = 0b100#3) ∧
    (s.reg r ≠ 0x0000#16 → (s.reg r).getLsbD 15 = false → (s.setFlags r).cond = 0b001#3) ∧
    s.setFlags r = { s with cond := (s.setFlags r).cond }

/-! ## Operate instructions -/

/-- ADD, register form (40_alu R81). -/
def Obligations.AddRegisterResult : Prop :=
  (∀ w : Word, w &&& 0xF020#16 = 0x1000#16 →
    decodeWord w = .addReg (w.extractLsb' 9 3) (w.extractLsb' 6 3) (w.extractLsb' 0 3)) ∧
  ∀ (dr sr1 sr2 : Reg) (s : State), ∃ t, exec (.addReg dr sr1 sr2) s = .next t ∧
    (t.reg dr).toNat = ((s.reg sr1).toNat + (s.reg sr2).toNat) % 65536 ∧
    t.cond = signFlag (t.reg dr) ∧
    SameRegsOff dr s t ∧ t.pc = s.pc ∧ SameOutside s t

/-- ADD, immediate form (40_alu R82). -/
def Obligations.AddImmediateResult : Prop :=
  (∀ w : Word, w &&& 0xF020#16 = 0x1020#16 →
    decodeWord w = .addImm (w.extractLsb' 9 3) (w.extractLsb' 6 3) (w.extractLsb' 0 5)) ∧
  ∀ (dr sr1 : Reg) (imm5 : BitVec 5) (s : State), ∃ t, exec (.addImm dr sr1 imm5) s = .next t ∧
    (t.reg dr).toNat = ((s.reg sr1).toNat + (sext16 imm5).toNat) % 65536 ∧
    t.cond = signFlag (t.reg dr) ∧
    SameRegsOff dr s t ∧ t.pc = s.pc ∧ SameOutside s t

/-- AND, register form (40_alu R83). -/
def Obligations.AndRegisterResult : Prop :=
  (∀ w : Word, w &&& 0xF020#16 = 0x5000#16 →
    decodeWord w = .andReg (w.extractLsb' 9 3) (w.extractLsb' 6 3) (w.extractLsb' 0 3)) ∧
  ∀ (dr sr1 sr2 : Reg) (s : State), ∃ t, exec (.andReg dr sr1 sr2) s = .next t ∧
    t.reg dr = s.reg sr1 &&& s.reg sr2 ∧
    t.cond = signFlag (t.reg dr) ∧
    SameRegsOff dr s t ∧ t.pc = s.pc ∧ SameOutside s t

/-- AND, immediate form (40_alu R84). -/
def Obligations.AndImmediateResult : Prop :=
  (∀ w : Word, w &&& 0xF020#16 = 0x5020#16 →
    decodeWord w = .andImm (w.extractLsb' 9 3) (w.extractLsb' 6 3) (w.extractLsb' 0 5)) ∧
  ∀ (dr sr1 : Reg) (imm5 : BitVec 5) (s : State), ∃ t, exec (.andImm dr sr1 imm5) s = .next t ∧
    t.reg dr = s.reg sr1 &&& sext16 imm5 ∧
    t.cond = signFlag (t.reg dr) ∧
    SameRegsOff dr s t ∧ t.pc = s.pc ∧ SameOutside s t

/-- NOT leaves COND alone (40_alu R85). -/
def Obligations.NotResult : Prop :=
  (∀ w : Word, w &&& 0xF000#16 = 0x9000#16 →
    decodeWord w = .not (w.extractLsb' 9 3) (w.extractLsb' 6 3)) ∧
  ∀ (dr sr : Reg) (s : State), ∃ t, exec (.not dr sr) s = .next t ∧
    (t.reg dr).toNat = 0xFFFF - (s.reg sr).toNat ∧
    t.cond = s.cond ∧
    SameRegsOff dr s t ∧ t.pc = s.pc ∧ SameOutside s t

/-! ## Control transfer -/

/-- BR (41_control R90). -/
def Obligations.BranchResult : Prop :=
  (∀ w : Word, w &&& 0xF000#16 = 0x0000#16 →
    decodeWord w = .br (w.extractLsb' 9 3) (w.extractLsb' 0 9)) ∧
  ∀ (cond : CondMask) (offset9 : BitVec 9) (s : State), ∃ t, exec (.br cond offset9) s = .next t ∧
    (s.cond &&& cond ≠ 0b000#3 → t.pc = s.pc + sext16 offset9) ∧
    (s.cond &&& cond = 0b000#3 → t.pc = s.pc) ∧
    SameRegs s t ∧ t.cond = s.cond ∧ SameOutside s t

/-- JMP (41_control R91). -/
def Obligations.JumpResult : Prop :=
  (∀ w : Word, w &&& 0xF000#16 = 0xC000#16 → decodeWord w = .jmp (w.extractLsb' 6 3)) ∧
  ∀ (baseR : Reg) (s : State), ∃ t, exec (.jmp baseR) s = .next t ∧
    t.pc = s.reg baseR ∧ SameRegs s t ∧ t.cond = s.cond ∧ SameOutside s t

/-- JSR writes no register, R7 included (41_control R92). -/
def Obligations.JsrResult : Prop :=
  (∀ w : Word, w &&& 0xF800#16 = 0x4800#16 → decodeWord w = .jsr (w.extractLsb' 0 11)) ∧
  ∀ (offset11 : BitVec 11) (s : State), ∃ t, exec (.jsr offset11) s = .next t ∧
    t.pc = s.pc + sext16 offset11 ∧ SameRegs s t ∧ t.cond = s.cond ∧ SameOutside s t

/-- JSRR writes no register, R7 included (41_control R93). That it behaves as JMP is the spec's own inference
from R91 and R93. -/
def Obligations.JsrrResult : Prop :=
  (∀ w : Word, w &&& 0xF800#16 = 0x4000#16 → decodeWord w = .jsrr (w.extractLsb' 6 3)) ∧
  ∀ (baseR : Reg) (s : State), exec (.jsrr baseR) s = exec (.jmp baseR) s ∧
    ∃ t, exec (.jsrr baseR) s = .next t ∧
      t.pc = s.reg baseR ∧ SameRegs s t ∧ t.cond = s.cond ∧ SameOutside s t

/-! ## MemRead and MemWrite -/

/-- MemRead, with its poll at KBSR (20_memory R41). That the answers of `InAvail()` are in `input` is the
model's choice (notes/assumptions/5.md). -/
def Obligations.MemReadPollsAtKbsr : Prop :=
  ∀ (a : Word) (s : State),
    (a ≠ 0xFE00#16 → s.memRead a = (s.cell a, s)) ∧
    (∀ c : Byte, a = 0xFE00#16 → s.input.answer = .key c →
      (s.memRead a).1 = 0x8000#16 ∧
      (s.memRead a).2.cell 0xFE00#16 = 0x8000#16 ∧
      (s.memRead a).2.cell 0xFE02#16 = c.setWidth 16 ∧
      SameMemoryOffKeyboard s (s.memRead a).2 ∧
      (s.memRead a).2 = { s with
        mem := (s.memRead a).2.mem, input := s.input.rest, inPos := s.inPos + 1 }) ∧
    (a = 0xFE00#16 → s.input.answer = .idle →
      (s.memRead a).1 = 0x0000#16 ∧
      (s.memRead a).2.cell 0xFE00#16 = 0x0000#16 ∧
      SameMemoryOff 0xFE00#16 s (s.memRead a).2 ∧
      (s.memRead a).2 = { s with mem := (s.memRead a).2.mem, input := s.input.rest })

/-- MemWrite is a plain store at every address, the device registers included (20_memory R43). The word reads
back at every address but KBSR, where a read returns what its poll finds: the spec's inference from R41 and
R43 (20_memory R44). The canonical form of memory is the model's choice (notes/assumptions/1.md), and so is
the place of the answers (notes/assumptions/5.md). -/
def Obligations.MemWriteIsPlainStore : Prop :=
  ∀ (a v : Word) (s : State),
    SameMemoryOff a s (s.memWrite a v) ∧
    s.memWrite a v = { s with mem := (s.memWrite a v).mem } ∧
    (s.mem.wf → (s.memWrite a v).mem.wf) ∧ (s.memWrite a v).cell a = v ∧
    (a ≠ 0xFE00#16 → (s.memWrite a v).memRead a = (v, s.memWrite a v)) ∧
    (∀ c : Byte, a = 0xFE00#16 → s.input.answer = .key c →
      ((s.memWrite a v).memRead a).1 = 0x8000#16) ∧
    (a = 0xFE00#16 → s.input.answer = .idle → ((s.memWrite a v).memRead a).1 = 0x0000#16)

/-! ## Loads, LEA and stores -/

/-- LD: one MemRead, whose poll is the only other effect; COND is left alone (42_load_store R100). -/
def Obligations.LoadResult : Prop :=
  (∀ w : Word, w &&& 0xF000#16 = 0x2000#16 →
    decodeWord w = .ld (w.extractLsb' 9 3) (w.extractLsb' 0 9)) ∧
  ∀ (dr : Reg) (offset9 : BitVec 9) (s : State), ∃ t, exec (.ld dr offset9) s = .next t ∧
    t.reg dr = (s.memRead (s.pc + sext16 offset9)).1 ∧
    SameRegsOff dr s t ∧ t.cond = s.cond ∧ t.pc = s.pc ∧
    SameOutside (s.memRead (s.pc + sext16 offset9)).2 t ∧
    (s.pc + sext16 offset9 ≠ kbsr →
      t.reg dr = s.cell (s.pc + sext16 offset9) ∧ SameOutside s t)

/-- LDI: the pointer read, then the data read, then SetFlags (42_load_store R101). -/
def Obligations.LoadIndirectResult : Prop :=
  (∀ w : Word, w &&& 0xF000#16 = 0xA000#16 →
    decodeWord w = .ldi (w.extractLsb' 9 3) (w.extractLsb' 0 9)) ∧
  ∀ (dr : Reg) (offset9 : BitVec 9) (s : State),
    ∀ p s1, s.memRead (s.pc + sext16 offset9) = (p, s1) →
    ∃ t, exec (.ldi dr offset9) s = .next t ∧
      t.reg dr = (s1.memRead p).1 ∧ t.cond = signFlag (t.reg dr) ∧
      SameRegsOff dr s t ∧ t.pc = s.pc ∧ SameOutside (s1.memRead p).2 t ∧
      (s.pc + sext16 offset9 ≠ kbsr → s.cell (s.pc + sext16 offset9) ≠ kbsr →
        t.reg dr = s.cell (s.cell (s.pc + sext16 offset9)) ∧ SameOutside s t)

/-- LDR: the address comes from the old BaseR; COND is left alone (42_load_store R102). -/
def Obligations.LoadBaseResult : Prop :=
  (∀ w : Word, w &&& 0xF000#16 = 0x6000#16 →
    decodeWord w = .ldr (w.extractLsb' 9 3) (w.extractLsb' 6 3) (w.extractLsb' 0 6)) ∧
  ∀ (dr baseR : Reg) (offset6 : BitVec 6) (s : State),
    ∃ t, exec (.ldr dr baseR offset6) s = .next t ∧
      t.reg dr = (s.memRead (s.reg baseR + sext16 offset6)).1 ∧
      SameRegsOff dr s t ∧ t.cond = s.cond ∧ t.pc = s.pc ∧
      SameOutside (s.memRead (s.reg baseR + sext16 offset6)).2 t ∧
      (s.reg baseR + sext16 offset6 ≠ kbsr →
        t.reg dr = s.cell (s.reg baseR + sext16 offset6) ∧ SameOutside s t)

/-- LEA: the address itself, no memory access, SetFlags (42_load_store R103). -/
def Obligations.LeaResult : Prop :=
  (∀ w : Word, w &&& 0xF000#16 = 0xE000#16 →
    decodeWord w = .lea (w.extractLsb' 9 3) (w.extractLsb' 0 9)) ∧
  ∀ (dr : Reg) (offset9 : BitVec 9) (s : State), ∃ t, exec (.lea dr offset9) s = .next t ∧
    t.reg dr = s.pc + sext16 offset9 ∧ t.cond = signFlag (t.reg dr) ∧
    SameRegsOff dr s t ∧ t.pc = s.pc ∧ SameOutside s t

/-- ST: the word at the effective address, and no other byte (42_load_store R104). -/
def Obligations.StoreResult : Prop :=
  (∀ w : Word, w &&& 0xF000#16 = 0x3000#16 →
    decodeWord w = .st (w.extractLsb' 9 3) (w.extractLsb' 0 9)) ∧
  ∀ (sr : Reg) (offset9 : BitVec 9) (s : State), ∃ t, exec (.st sr offset9) s = .next t ∧
    t.cell (s.eaPc offset9) = s.reg sr ∧
    SameMemoryOff (s.eaPc offset9) s t ∧
    s.eaPc offset9 = s.pc + sext16 offset9 ∧
    SameRegs s t ∧ t.cond = s.cond ∧ t.pc = s.pc ∧
    SameInput s t ∧ t.outLog = s.outLog ∧ SameRun s t ∧ SameParams s t

/-- STI: the pointer read, with its poll, then the store through the pointer (42_load_store R105). -/
def Obligations.StoreIndirectResult : Prop :=
  (∀ w : Word, w &&& 0xF000#16 = 0xB000#16 →
    decodeWord w = .sti (w.extractLsb' 9 3) (w.extractLsb' 0 9)) ∧
  ∀ (sr : Reg) (offset9 : BitVec 9) (s : State),
    ∀ p s1, s.memRead (s.pc + sext16 offset9) = (p, s1) →
    ∃ t, exec (.sti sr offset9) s = .next t ∧
      t.cell p = s.reg sr ∧
      SameMemoryOff p s1 t ∧
      SameRegs s t ∧ t.cond = s.cond ∧ t.pc = s.pc ∧
      SameInput s1 t ∧ t.outLog = s.outLog ∧ SameRun s t ∧ SameParams s t ∧
      (s.pc + sext16 offset9 ≠ kbsr →
        p = s.cell (s.pc + sext16 offset9) ∧ SameMemoryOff p s t ∧ SameInput s t)

/-- STR (42_load_store R106). -/
def Obligations.StoreBaseResult : Prop :=
  (∀ w : Word, w &&& 0xF000#16 = 0x7000#16 →
    decodeWord w = .str (w.extractLsb' 9 3) (w.extractLsb' 6 3) (w.extractLsb' 0 6)) ∧
  ∀ (sr baseR : Reg) (offset6 : BitVec 6) (s : State),
    ∃ t, exec (.str sr baseR offset6) s = .next t ∧
      t.cell (s.eaBase baseR offset6) = s.reg sr ∧
      SameMemoryOff (s.eaBase baseR offset6) s t ∧
      s.eaBase baseR offset6 = s.reg baseR + sext16 offset6 ∧
      SameRegs s t ∧ t.cond = s.cond ∧ t.pc = s.pc ∧
      SameInput s t ∧ t.outLog = s.outLog ∧ SameRun s t ∧ SameParams s t

/-! ## TRAP -/

/-- GETC takes the first character to come, after any number of calls of InAvail() that answer false
(43_trap R117, R126; the place of the answers is the model's choice, notes/assumptions/5.md). Where more
answers are to be waited for than are listed, GetcHoldChangesNothing says how this state is reached. -/
def Obligations.GetcReadsNextCharacter : Prop :=
  (∀ w : Word, w &&& 0xF0FF#16 = 0xF020#16 → decodeWord w = .trapGetc) ∧
  ∀ (s : State) (n : Nat) (c : Byte), s.input.keyAfter n c →
    ∃ t, exec .trapGetc s = .next t ∧
      t.reg 0#3 = c.setWidth 16 ∧
      (∀ r : Reg, r ≠ 0#3 → r ≠ 7#3 → t.reg r = s.reg r) ∧
      t.reg 7#3 = (if s.trapLinksR7 then s.pc else s.reg 7#3) ∧
      t.input = s.input.drop (n + 1) ∧ t.inPos = s.inPos + 1 ∧ t.outLog = s.outLog ∧
      t.cond = s.cond ∧ t.pc = s.pc ∧ SameMemory s t ∧ SameRun s t ∧ SameParams s t

/-- While no character is available, a GETC changes nothing but what the host has still to answer: with
no character ever to come it holds for any number of steps in the very same state; where this step's calls
answer false, it is to be done again after them; and where a character is to come after any number of
false answers, steps that change nothing else lead to a state in which GETC reads it
(43_trap R126; the form is the model's, notes/assumptions/5.md, 9.md and 16.md). -/
def Obligations.GetcHoldChangesNothing : Prop :=
  (∀ s : State, s.run = .running → s.inString = none → s.pc ≠ kbsr →
    decodeWord (s.cell s.pc) = .trapGetc →
    (∀ a ∈ s.input.listed, a = .idle) → s.input.later = .always .idle →
    ∀ n : Nat, Host.Core.run Sys2Proof.core n s = .next s) ∧
  (∀ s : State, (∀ a ∈ s.input.listed, a = .idle) → s.input.later.first = .idle →
    ∃ t, exec .trapGetc s = .next t ∧ t = { s with pc := s.pc - 1#16, input := t.input } ∧
      Drawn s t) ∧
  ∀ (s : State) (n : Nat) (c : Byte), s.run = .running → s.inString = none → s.pc ≠ kbsr →
    decodeWord (s.cell s.pc) = .trapGetc →
    (∀ k < n, (s.input.drop k).answer = .idle) → (s.input.drop n).answer = .key c →
    ∃ m n' u, Host.Core.run Sys2Proof.core m s = .next u ∧ u = { s with input := u.input } ∧
      u.input.keyAfter n' c ∧ u.input.drop (n' + 1) = s.input.drop (n + 1)

/-- OUT (43_trap R118). -/
def Obligations.OutEmitsLowByte : Prop :=
  (∀ w : Word, w &&& 0xF0FF#16 = 0xF021#16 → decodeWord w = .trapOut) ∧
  ∀ s : State, ∃ t, exec .trapOut s = .next t ∧
    t.outLog = s.outLog ++ [.byte ((s.reg 0#3).extractLsb' 0 8)] ∧
    TrapLinked s t ∧ t.cond = s.cond ∧ t.pc = s.pc ∧
    SameMemory s t ∧ SameInput s t ∧ SameRun s t ∧ SameParams s t

/-- PUTS makes the reads and outputs of the spec's loop: to its end, and then it flushes, or a part of them,
and then the machine stays inside the routine. It ends where `IN` is finite
(43_trap R119, 60_exceptions R147(b); the place of the answers and the parts are the model's choice,
notes/assumptions/5.md and 6.md, the form of memory is notes/assumptions/1.md). -/
def Obligations.PutsFollowsItsLoop : Prop :=
  (∀ w : Word, w &&& 0xF0FF#16 = 0xF022#16 → decodeWord w = .trapPuts) ∧
  (∀ s : State,
    (∃ u, PutsRun (s.reg 0#3) s.trapEnter u ∧ exec .trapPuts s = .next u.endString ∧
      StringFrame s u) ∨
    ∃ b u, PutsPart (s.reg 0#3) s.trapEnter b u ∧
      exec .trapPuts s = .next (u.stayInString .puts b) ∧ StringFrame s u) ∧
  ∀ s : State, s.input.later = .always .idle →
    ∃ u, PutsRun (s.reg 0#3) s.trapEnter u ∧ exec .trapPuts s = .next u.endString ∧
      StringFrame s u

/-- PUTS of a string that does not run through KBSR emits the low byte of each of its words and a flush,
and changes neither memory nor the input (43_trap R119). -/
def Obligations.PutsEmitsString : Prop :=
  ∀ (s : State) (ws : List Word),
    (∀ (i : Nat) (h : i < ws.length), s.cell (s.reg 0#3 + BitVec.ofNat 16 i) = ws[i]) →
    (∀ w ∈ ws, w ≠ 0x0000#16) →
    s.cell (s.reg 0#3 + BitVec.ofNat 16 ws.length) = 0x0000#16 →
    (∀ i : Nat, i ≤ ws.length → s.reg 0#3 + BitVec.ofNat 16 i ≠ kbsr) →
    ∃ t, exec .trapPuts s = .next t ∧
      t.outLog = s.outLog ++ ws.map (fun w => .byte (w.extractLsb' 0 8)) ++ [.flush] ∧
      TrapLinked s t ∧ t.cond = s.cond ∧ t.pc = s.pc ∧
      SameMemory s t ∧ SameInput s t ∧ t.run = s.run ∧ t.fault = s.fault ∧
      t.inPrompted = s.inPrompted ∧ t.inString = none ∧ SameParams s t

/-- IN: the prompt, unless this IN has emitted it before it was held, then the first character to come to R0,
then its echo (43_trap R120, R126; how a held IN is marked and where the answers are is the model's choice,
notes/assumptions/10.md and 5.md). -/
def Obligations.InPromptsReadsAndEchoes : Prop :=
  (∀ w : Word, w &&& 0xF0FF#16 = 0xF023#16 → decodeWord w = .trapIn) ∧
  ∀ (s : State) (n : Nat) (c : Byte), s.input.keyAfter n c →
    ∃ t, exec .trapIn s = .next t ∧
      (s.inPrompted = false →
        t.outLog = s.outLog ++ s.inPrompt.map .byte ++ [.byte c]) ∧
      (s.inPrompted = true → t.outLog = s.outLog ++ [.byte c]) ∧
      t.reg 0#3 = c.setWidth 16 ∧
      (∀ r : Reg, r ≠ 0#3 → r ≠ 7#3 → t.reg r = s.reg r) ∧
      t.reg 7#3 = (if s.trapLinksR7 then s.pc else s.reg 7#3) ∧
      t.input = s.input.drop (n + 1) ∧ t.inPos = s.inPos + 1 ∧
      t.cond = s.cond ∧ t.pc = s.pc ∧ SameMemory s t ∧
      t.run = s.run ∧ t.fault = s.fault ∧ t.inPrompted = false ∧ t.inString = s.inString ∧
      SameParams s t

/-- A held IN has emitted its prompt once, holds for any number of steps, and when the host makes a character
available it ends as if the character had been there from the start; where this step's calls answer false,
whatever is to come after them, the prompt is all that has happened
(43_trap R126; the form of the hold is the model's, notes/assumptions/5.md, 9.md, 10.md and 16.md). -/
def Obligations.InHoldsThenResumes : Prop :=
  (∀ s : State, s.run = .running → s.inString = none → s.pc ≠ kbsr →
    decodeWord (s.cell s.pc) = .trapIn →
    s.inPrompted = false → (∀ a ∈ s.input.listed, a = .idle) → s.input.later = .always .idle →
    ∃ t, step s = .next t ∧
      t.outLog = s.outLog ++ s.inPrompt.map .byte ∧ t.pc = s.pc ∧ t.run = .running ∧
      SameMemory s t ∧ SameInput s t ∧ t.cond = s.cond ∧ SameRegsOff 7#3 s t ∧
      t.fault = s.fault ∧ t.inString = none ∧ SameParams s t ∧
      (∀ n : Nat, Host.Core.run Sys2Proof.core n t = .next t) ∧
      ∀ (c : Byte) (rest : List InputAnswer) (l : LaterAnswers),
        step { t with input := ⟨t.input.listed ++ .key c :: rest, l⟩ } =
          step { s with input := ⟨s.input.listed ++ .key c :: rest, l⟩ }) ∧
  ∀ s : State, (∀ a ∈ s.input.listed, a = .idle) → s.input.later.first = .idle →
    ∃ t, exec .trapIn s = .next t ∧
      (s.inPrompted = false → t.outLog = s.outLog ++ s.inPrompt.map .byte) ∧
      (s.inPrompted = true → t.outLog = s.outLog) ∧ t.inPrompted = true ∧
      t.pc = s.pc - 1#16 ∧ Drawn s t ∧ t.inPos = s.inPos ∧ SameMemory s t ∧ t.cond = s.cond ∧
      SameRegsOff 7#3 s t ∧ t.run = s.run ∧ t.fault = s.fault ∧ t.inString = s.inString ∧
      SameParams s t

/-- PUTSP ends on every state, after exactly the reads and outputs of the spec's loop, and flushes. That it
ends, whatever `IN` is, is an inference: a read of KBSR returns a zero word or is followed by the read of a
word with a zero high byte, at KBDR (43_trap R121, 20_memory R41; notes/assumptions/6.md; the place of the
answers is notes/assumptions/5.md, the form of memory notes/assumptions/1.md). -/
def Obligations.PutspFollowsItsLoop : Prop :=
  (∀ w : Word, w &&& 0xF0FF#16 = 0xF024#16 → decodeWord w = .trapPutsp) ∧
  ∀ s : State, ∃ u, PutspRun (s.reg 0#3) s.trapEnter u ∧ exec .trapPutsp s = .next u.endString ∧
    StringFrame s u

/-- PUTSP of a packed string that does not run through KBSR emits the low and then the high byte of each
full word; it ends at a zero word, or after the low byte of a word whose high byte is zero
(43_trap R121). -/
def Obligations.PutspEmitsPackedString : Prop :=
  ∀ (s : State) (ws : List Word) (last : Word),
    (∀ (i : Nat) (h : i < ws.length), s.cell (s.reg 0#3 + BitVec.ofNat 16 i) = ws[i]) →
    (∀ w ∈ ws, w.extractLsb' 8 8 ≠ 0x00#8) →
    s.cell (s.reg 0#3 + BitVec.ofNat 16 ws.length) = last →
    last.extractLsb' 8 8 = 0x00#8 →
    (∀ i : Nat, i ≤ ws.length → s.reg 0#3 + BitVec.ofNat 16 i ≠ kbsr) →
    ∃ t, exec .trapPutsp s = .next t ∧
      t.outLog = s.outLog ++
        ws.flatMap (fun w => [.byte (w.extractLsb' 0 8), .byte (w.extractLsb' 8 8)]) ++
        (if last = 0x0000#16 then [] else [.byte (last.extractLsb' 0 8)]) ++ [.flush] ∧
      TrapLinked s t ∧ t.cond = s.cond ∧ t.pc = s.pc ∧
      SameMemory s t ∧ SameInput s t ∧ t.run = s.run ∧ t.fault = s.fault ∧
      t.inPrompted = s.inPrompted ∧ t.inString = none ∧ SameParams s t

/-- Inside a string routine a step fetches nothing and makes more of the routine's reads and outputs, from the
address where it stands: to the end, and then it flushes, or a part of them
(43_trap R119, R121, 60_exceptions R147(b); the parts are the model's choice, notes/assumptions/6.md). -/
def Obligations.StringRoutineGoesOn : Prop :=
  ∀ (s : State) (a : Word), s.run = .running →
    (s.inString = some (.puts, a) →
      (∃ u, PutsRun a s u ∧ step s = .next u.endString ∧ SameRegs s u ∧
        u.cond = s.cond ∧ u.pc = s.pc ∧ SameMemoryOffKeyboard s u ∧ Drawn s u ∧ SameRun s u ∧
        SameParams s u) ∨
      ∃ b u, PutsPart a s b u ∧ step s = .next (u.stayInString .puts b) ∧ SameRegs s u ∧
        u.cond = s.cond ∧ u.pc = s.pc ∧ SameMemoryOffKeyboard s u ∧ Drawn s u ∧ SameRun s u ∧
        SameParams s u) ∧
    (s.inString = some (.putsp, a) →
      ∃ u, PutspRun a s u ∧ step s = .next u.endString ∧ SameRegs s u ∧
        u.cond = s.cond ∧ u.pc = s.pc ∧ SameMemoryOffKeyboard s u ∧ Drawn s u ∧ SameRun s u ∧
        SameParams s u)

/-- PUTS as a whole, in however many steps: if the spec's loop ends, some number of steps leads to its end and
the flush, whatever `IN` is; if no word of memory is zero and every call of InAvail() finds a character
that is not zero, the run never leaves the PUTS: after any number of steps RUN is RUNNING, nothing has
faulted, and the log has grown by bytes without bound (43_trap R119, 60_exceptions R147(b); the parts and
the place of the answers are the model's choice, notes/assumptions/5.md and 6.md). -/
def Obligations.PutsEndsOrHangs : Prop :=
  (∀ s u : State, s.run = .running → s.inString = none → s.pc ≠ kbsr →
    decodeWord (s.cell s.pc) = .trapPuts →
    PutsRun (s.reg 0#3) (s.setPc (s.pc + 1#16)).trapEnter u →
    ∃ n, Host.Core.run Sys2Proof.core (n + 1) s = .next u.endString) ∧
  ∀ s : State, s.run = .running → s.inString = none → s.pc ≠ kbsr →
    decodeWord (s.cell s.pc) = .trapPuts →
    (∀ a : Word, a ≠ kbsr → s.cell a ≠ 0x0000#16) →
    (∀ k : Nat, ∃ c : Byte, c ≠ 0x00#8 ∧ (s.input.drop k).answer = .key c) →
    ∀ n : Nat, ∃ (t : State) (bs : List Byte), Host.Core.run Sys2Proof.core (n + 1) s = .next t ∧
      t.run = .running ∧ t.fault = s.fault ∧ t.pc = s.pc + 1#16 ∧
      (∃ a, t.inString = some (.puts, a)) ∧
      t.outLog = s.outLog ++ bs.map .byte ∧ n < bs.length

/-- HALT (43_trap R122). -/
def Obligations.HaltEndsTheRun : Prop :=
  (∀ w : Word, w &&& 0xF0FF#16 = 0xF025#16 → decodeWord w = .trapHalt) ∧
  ∀ s : State, ∃ t, exec .trapHalt s = .next t ∧
    t.run = .halted ∧ t.outLog = s.outLog ++ s.haltNotice.map .byte ++ [.flush] ∧
    TrapLinked s t ∧ t.cond = s.cond ∧ t.pc = s.pc ∧ SameMemory s t ∧ SameInput s t ∧
    t.fault = s.fault ∧ t.inPrompted = s.inPrompted ∧ t.inString = s.inString ∧ SameParams s t

/-- TRAP with an undefined vector raises UndefinedTrapVector and does nothing else but link R7 if TRAPs
link; every such word decodes to one of the six rows, which keeps the whole word
(43_trap R123, 60_exceptions R138, R139). The code of the cause is 2 (60_exceptions R136). -/
def Obligations.UndefinedVectorFaults : Prop :=
  (∀ w : Word, w &&& 0xF000#16 = 0xF000#16 →
    (w.extractLsb' 0 8).toNat < 0x20 ∨ 0x25 < (w.extractLsb' 0 8).toNat →
    (decodeWord w).raises = some .undefinedTrapVector ∧ encode (decodeWord w) = w) ∧
  ∀ (ign : BitVec 4) (v : BitVec 8) (s : State) (i : Instr),
    i = .trapUndef00 ign v ∨ i = .trapUndef26 ign v ∨ i = .trapUndef28 ign v ∨
      i = .trapUndef30 ign v ∨ i = .trapUndef40 ign v ∨ i = .trapUndef80 ign v →
    ∃ t, exec i s = .next t ∧
      t.run = .faulted ∧ t.fault = some ⟨.undefinedTrapVector, s.pc - 1#16, 0xF#4 ++ ign ++ v⟩ ∧
      t.fault.map (fun f => f.cause.code) = some 2 ∧
      TrapLinked s t ∧ t.cond = s.cond ∧ t.pc = s.pc ∧ SameMemory s t ∧ SameInput s t ∧
      t.outLog = s.outLog ∧ t.inPrompted = s.inPrompted ∧ t.inString = s.inString ∧ SameParams s t

/-! ## The unimplemented opcodes -/

/-- RTI raises IllegalOpcode, whose code is 1 (43_trap R124, 60_exceptions R136, R139). -/
def Obligations.RtiFaults : Prop :=
  (∀ w : Word, w &&& 0xF000#16 = 0x8000#16 → decodeWord w = .rti (w.extractLsb' 0 12)) ∧
  ∀ (ign : BitVec 12) (s : State), ∃ t, exec (.rti ign) s = .next t ∧
    t.run = .faulted ∧ t.fault = some ⟨.illegalOpcode, s.pc - 1#16, 0x8#4 ++ ign⟩ ∧
    t.fault.map (fun f => f.cause.code) = some 1 ∧
    SameRegs s t ∧ t.cond = s.cond ∧ t.pc = s.pc ∧ SameMemory s t ∧ SameInput s t ∧
    t.outLog = s.outLog ∧ t.inPrompted = s.inPrompted ∧ t.inString = s.inString ∧ SameParams s t

/-- RES raises IllegalOpcode, whose code is 1 (43_trap R125, 60_exceptions R136, R139). -/
def Obligations.ResFaults : Prop :=
  (∀ w : Word, w &&& 0xF000#16 = 0xD000#16 → decodeWord w = .res (w.extractLsb' 0 12)) ∧
  ∀ (ign : BitVec 12) (s : State), ∃ t, exec (.res ign) s = .next t ∧
    t.run = .faulted ∧ t.fault = some ⟨.illegalOpcode, s.pc - 1#16, 0xD#4 ++ ign⟩ ∧
    t.fault.map (fun f => f.cause.code) = some 1 ∧
    SameRegs s t ∧ t.cond = s.cond ∧ t.pc = s.pc ∧ SameMemory s t ∧ SameInput s t ∧
    t.outLog = s.outLog ∧ t.inPrompted = s.inPrompted ∧ t.inString = s.inString ∧ SameParams s t

/-! ## Reset and the step -/

/-- Reset, for every value of the parameters that the spec leaves open (70_reset R155, 10_state R37). -/
def Obligations.ResetState : Prop :=
  ∀ l : Launch,
    (∀ a : Word, (State.launch l).cell a = l.memInit.readWord a) ∧
    (∀ r : Reg, (State.launch l).reg r = l.regInit[r.toNat]'r.isLt) ∧
    (State.launch l).cond = l.condInit ∧ (State.launch l).pc = 0x3000#16 ∧
    (State.launch l).fault = none ∧ (State.launch l).inPos = 0 ∧ (State.launch l).outLog = [] ∧
    (State.launch l).run = .running ∧ (State.launch l).input = l.input ∧
    (State.launch l).trapLinksR7 = l.trapLinksR7 ∧
    (State.launch l).haltNotice = l.haltNotice ∧ (State.launch l).inPrompt = l.inPrompt

/-- The invariant holds at reset, whatever the parameters of the run are; the model's reset state is one of
those resets, with the values that notes/assumptions/2.md to 5.md, 7.md and 8.md choose. -/
def Obligations.InvariantAtReset : Prop :=
  (∀ l : Launch, l.memInit.wf → (State.launch l).Inv) ∧ State.reset.Inv ∧
  ∃ l : Launch, State.reset = State.launch l

/-- The invariant: memory keeps its canonical form; FAULT is empty unless RUN is FAULTED, and otherwise names
the address the faulting word was fetched from and a word that raises its cause; a held IN is the
instruction at the pc; inside a string routine the machine is running and no IN is held. Every step keeps it
(10_state R27, 60_exceptions R139; the form of memory, of the held IN and of the string routine are the
model's, notes/assumptions/1.md, 10.md and 6.md). -/
def Obligations.InvariantKeptByStep : Prop :=
  ∀ s t : State, s.Inv → step s = .next t → t.Inv

/-- A step of a running machine is MemRead at the pc, the increment, and exec of the decoded instruction,
which is well formed; away from KBSR the fetch has no side effect (70_reset R160). Inside a string routine it
is the next part of that routine (which byte of the word comes first and the parts of a routine are the
model's choice, notes/assumptions/1.md and 6.md). -/
def Obligations.StepRunsDecodedInstruction : Prop :=
  (∀ s : State, s.run = .running → s.inString = none →
    (decodeWord (s.memRead s.pc).1).wellFormed = true ∧
    step s = exec (decodeWord (s.memRead s.pc).1)
      { (s.memRead s.pc).2 with pc := s.pc + 1#16 }) ∧
  (∀ (s : State) (i : Instr) (rest : List Byte), s.run = .running → s.inString = none →
    s.pc ≠ kbsr →
    decode (s.mem.readByte (highAddr s.pc) :: s.mem.readByte (lowAddr s.pc) :: rest) =
      .ok (i, rest) →
    step s = exec i { s with pc := s.pc + 1#16 }) ∧
  ∀ (s : State) (r : StringRoutine) (a : Word), s.run = .running → s.inString = some (r, a) →
    step s = .next (s.stringPart r a)

/-- An instruction stored by its encoding at the pc is the instruction that the next step runs; so is the word
that `withFetchWord` places, from every state (the model's stand-in for a load, notes/assumptions/11.md). -/
def Obligations.StoredEncodingRuns : Prop :=
  (∀ (s : State) (i : Instr), s.run = .running → s.inString = none → s.pc ≠ kbsr →
    i.wellFormed = true →
    step (s.memWrite s.pc (encode i)) = exec i ((s.memWrite s.pc (encode i)).setPc (s.pc + 1#16))) ∧
  ∀ (s : State) (i : Instr), i.wellFormed = true →
    ∃ u, step (s.withFetchWord 16 (encode i).toNat) = exec i u ∧ SameRegs s u ∧
      u.cond = s.cond ∧ u.run = .running ∧ u.inPrompted = false ∧ u.inString = none ∧ SameInput s u ∧
      u.outLog = s.outLog ∧ SameParams s u ∧
      (s.pc ≠ kbsr → u.pc = s.pc + 1#16 ∧ SameMemoryOff s.pc s u)

/-- The store that rewrites the next instruction is seen by the very next fetch (20_memory R54). -/
def Obligations.StoreIsSeenByNextFetch : Prop :=
  ∀ (s : State) (sr : Reg), s.run = .running → s.inString = none → s.pc ≠ kbsr → s.pc + 1#16 ≠ kbsr →
    decodeWord (s.cell s.pc) = .st sr 0#9 →
    ∃ t, step s = .next t ∧ t.pc = s.pc + 1#16 ∧
      step t = exec (decodeWord (s.reg sr)) (t.setPc (s.pc + 2#16))

/-- The fetch at KBSR polls: with a character available the word is 0x8000, which is RTI and faults; with none
it is 0x0000, a no-op; what was stored there is never run (70_reset R166; the place of the answers is the
model's choice, notes/assumptions/5.md). -/
def Obligations.FetchAtKbsrPolls : Prop :=
  ∀ s : State, s.run = .running → s.inString = none → s.pc = 0xFE00#16 →
    (∀ c : Byte, s.input.answer = .key c →
      ∃ t, step s = .next t ∧ t.run = .faulted ∧
        t.fault = some ⟨.illegalOpcode, 0xFE00#16, 0x8000#16⟩ ∧ t.pc = 0xFE01#16 ∧
        t.cell 0xFE00#16 = 0x8000#16 ∧ t.cell 0xFE02#16 = c.setWidth 16 ∧
        t.input = s.input.rest ∧ t.inPos = s.inPos + 1 ∧ SameRegs s t ∧ t.cond = s.cond ∧
        SameMemoryOffKeyboard s t ∧ t.outLog = s.outLog) ∧
    (s.input.answer = .idle →
      ∃ t, step s = .next t ∧ t.run = .running ∧ t.fault = s.fault ∧ t.pc = 0xFE01#16 ∧
        t.cell 0xFE00#16 = 0x0000#16 ∧ SameMemoryOff 0xFE00#16 s t ∧
        t.input = s.input.rest ∧ t.inPos = s.inPos ∧ SameRegs s t ∧ t.cond = s.cond ∧
        t.outLog = s.outLog)

/-- A core on all-zero memory that is given no character runs no-ops for ever: after any number of steps the
pc has advanced by that number, modulo 65536, and nothing else but the answers that the polls have used up
has changed; an empty input stays empty (70_reset R166; the place of the answers, and that memory with no
cell listed reads 0, are the model's choice, notes/assumptions/5.md and 2.md). -/
def Obligations.ZeroMemoryRunsForEver : Prop :=
  ∀ (n : Nat) (s : State), s.run = .running → s.inString = none → s.mem = [] →
    (∀ k : Nat, (s.input.drop k).answer = .idle) →
    ∃ k : Nat, k ≤ n ∧ Host.Core.run Sys2Proof.core n s =
        .next { s with pc := s.pc + BitVec.ofNat 16 n, input := s.input.drop k } ∧
      (∃ drawn : List InputAnswer, s.input.listed = drawn ++ (s.input.drop k).listed) ∧
      (s.input = ⟨[], .always .idle⟩ → s.input.drop k = s.input)

/-! ## Rules of the whole machine -/

/-- Every instruction, in every state, has a next state: no memory access, arithmetic, privilege or operand
stops the machine (60_exceptions R140, R141), and PUTS and PUTSP end or the machine stays inside them (R147).
So has every step. A hold, a part of a string routine and the end of a run answer a state as the model
chooses (notes/assumptions/6.md, 9.md and 11.md). -/
def Obligations.EveryInstructionCompletes : Prop :=
  (∀ (i : Instr) (s : State), ∃ t, exec i s = .next t) ∧ ∀ s : State, ∃ t, step s = .next t

/-- COND is written by ADD, AND, LDI and LEA only, and they leave exactly one flag set (10_state R25). -/
def Obligations.CondWrittenOnlyBySetFlags : Prop :=
  ∀ (i : Instr) (s t : State), exec i s = .next t →
    (i.setsFlags = false → t.cond = s.cond) ∧ (i.setsFlags = true → t.condOneHot)

/-- COND is read by BR only: any other instruction does the same whatever COND holds (10_state R25). -/
def Obligations.CondReadOnlyByBranch : Prop :=
  ∀ (i : Instr) (s t : State) (c : BitVec 3), i.opcode ≠ .br → exec i s = .next t →
    exec i { s with cond := c } =
      .next (if i.setsFlags = true then t else { t with cond := c })

/-- Once COND holds exactly one flag, it does so after every step (10_state R25, 90_conflicts C2). -/
def Obligations.CondStaysOneHot : Prop :=
  ∀ s t : State, s.condOneHot → step s = .next t → t.condOneHot

/-- An instruction writes no general register but those 10_state R21 and R28 allow it: DR; R0 for GETC and IN;
R7 for a TRAP of a run with TRAP_LINKS_R7. In particular JSR and JSRR do not write R7. -/
def Obligations.RegistersWrittenOnlyAsAllowed : Prop :=
  ∀ (i : Instr) (s t : State) (r : Reg), exec i s = .next t → ¬ i.mayWrite s.trapLinksR7 r →
    t.reg r = s.reg r

/-- An instruction that is no store changes no byte of memory but the keyboard registers, and those only by a
poll: an instruction to which 20_memory R56 gives no read changes nothing; nor does one that leaves a
nonempty list of answers as it was, since a poll draws one; if no character is consumed, KBSR alone can
change; whatever changes, KBSR then reads as a poll leaves it; and if one is consumed by a reading
instruction, KBDR holds a character of the input (20_memory R41, R56; the place of the answers is the
model's choice, notes/assumptions/5.md). -/
def Obligations.MemoryWrittenOnlyByStoresAndPolls : Prop :=
  ∀ (i : Instr) (s t : State), exec i s = .next t → i.isStore = false →
    SameMemoryOffKeyboard s t ∧
    (i.readsMemory = false → SameMemory s t) ∧
    (t.input.listed = s.input.listed → s.input.listed ≠ [] → SameMemory s t) ∧
    (t.inPos = s.inPos → SameMemoryOff kbsr s t) ∧
    (SameMemory s t ∨ t.cell kbsr = 0x8000#16 ∨ t.cell kbsr = 0x0000#16) ∧
    (t.inPos ≠ s.inPos → i.readsMemory = true →
      ∃ (k : Nat) (c : Byte), (s.input.drop k).answer = .key c ∧ t.cell kbdr = c.setWidth 16)

/-- RUN leaves RUNNING for HALTED by the HALT routine only and for FAULTED by a fault only, and leaves neither
again (10_state R26; that a step of an ended run answers a state, and that a step inside a string routine
fetches nothing, is the model's form, notes/assumptions/11.md and 6.md). -/
def Obligations.RunStateTransitions : Prop :=
  ∀ s t : State, step s = .next t →
    (s.run ≠ .running → t.run = s.run) ∧
    (s.run = .running → s.inString ≠ none → t.run = .running) ∧
    (s.run = .running → s.inString = none →
      (t.run = .halted ↔ decodeWord (s.memRead s.pc).1 = .trapHalt)) ∧
    (s.run = .running → s.inString = none →
      (t.run = .faulted ↔ ∃ f, (decodeWord (s.memRead s.pc).1).raises = some f))

/-- The state in which a run has ended is frozen for any number of steps (10_state R38; that a step there
answers the same state is the model's form, notes/assumptions/11.md). -/
def Obligations.EndedRunIsFrozen : Prop :=
  ∀ (n : Nat) (s : State), s.ended → Host.Core.run Sys2Proof.core n s = .next s

/-- The core never reads out_log: a run from a state with more events before it does the same, step for step,
with those events before it (10_state R35). -/
def Obligations.OutLogIsNeverRead : Prop :=
  ∀ (n : Nat) (s t : State) (before : List OutEvent),
    Host.Core.run Sys2Proof.core n s = .next t →
    Host.Core.run Sys2Proof.core n { s with outLog := before ++ s.outLog } =
      .next { t with outLog := before ++ t.outLog }

/-- The log of a run only grows, and no answer of the input device is lost or made: those drawn are the
first of those that were to come, in order, and `in_pos` counts the characters among them. Of a finite `IN`
the characters consumed and those left add up to the same number in every state of a run
(10_state R34, R35, R36; the place of the answers is the model's choice, notes/assumptions/5.md). -/
def Obligations.InputAndOutputAreAccounted : Prop :=
  ∀ (n : Nat) (s t : State), Host.Core.run Sys2Proof.core n s = .next t →
    (∃ more, t.outLog = s.outLog ++ more) ∧
    Drawn s t ∧
    (∃ drawn, s.input.listed = drawn ++ t.input.listed) ∧
    s.inPos ≤ t.inPos ∧
    (s.input.later = .always .idle → t.input.later = .always .idle ∧
      t.inPos + keysLeft t.input.listed = s.inPos + keysLeft s.input.listed)

/-- The parameters of a run do not change during it (10_state, the opening paragraph, before R20; that they are
fields of State is the model's choice, notes/assumptions/7.md and 8.md). -/
def Obligations.ParametersNeverChange : Prop :=
  ∀ (n : Nat) (s t : State), Host.Core.run Sys2Proof.core n s = .next t → SameParams s t

/-- TRAP_LINKS_R7 decides what R7 holds after a TRAP and nothing else: if it is true R7 holds the address of
the TRAP plus 1, but for a GETC that is held and has done nothing (43_trap R116, R126, 70_reset R165; that a
held IN has already linked R7 is the model's choice, notes/assumptions/10.md, and so is the form of a held
GETC, notes/assumptions/9.md). -/
def Obligations.TrapLinkAffectsOnlyR7 : Prop :=
  ∀ (i : Instr) (s t u : State),
    exec i { s with trapLinksR7 := false } = .next t →
    exec i { s with trapLinksR7 := true } = .next u →
    SameRegsOff 7#3 t u ∧
    u = { t with regs := u.regs, trapLinksR7 := true } ∧
    (i.isTrap = false → u.regs = t.regs) ∧
    (i.isTrap = true →
      u.reg 7#3 = s.pc ∨ (i = .trapGetc ∧ (∀ a ∈ s.input.listed, a = .idle) ∧ s.input.later.first = .idle ∧
        u.regs = t.regs))
end

