-- ==== Sys2Proof/Laws/Decode.lean ====
section
/-! SUPPORT. The small lemmas of the encoding: what each field of each format's word is, and how a mask and a
match give the fields of a word. -/

namespace Sys2Proof

/-- Under a mask that covers it, a field of a word is that field of the match. -/
theorem extract_of_mask {w m v : Word} (h : w &&& m = v) (start len : Nat)
    (hm : m.extractLsb' start len = BitVec.allOnes len) :
    w.extractLsb' start len = v.extractLsb' start len := by
  rw [← h, BitVec.extractLsb'_and, hm, BitVec.and_allOnes]

/-- The fields of a word of format RRR. -/
theorem fields_encodeRRR (op : Opcode) (dr sr1 sr2 : Reg) :
    fieldOpcode (encodeRRR op dr sr1 sr2) = op.number ∧
    field11to9 (encodeRRR op dr sr1 sr2) = dr ∧
    field8to6 (encodeRRR op dr sr1 sr2) = sr1 ∧
    fieldMode5 (encodeRRR op dr sr1 sr2) = 0#1 ∧
    field2to0 (encodeRRR op dr sr1 sr2) = sr2 := by
  refine ⟨?_, ?_, ?_, ?_, ?_⟩ <;> ext i hi <;>
    simp [encodeRRR, fieldOpcode, field11to9, field8to6, fieldMode5, field2to0] <;> grind

/-- The fields of a word of format RRI. -/
theorem fields_encodeRRI (op : Opcode) (dr sr1 : Reg) (imm5 : BitVec 5) :
    fieldOpcode (encodeRRI op dr sr1 imm5) = op.number ∧
    field11to9 (encodeRRI op dr sr1 imm5) = dr ∧
    field8to6 (encodeRRI op dr sr1 imm5) = sr1 ∧
    fieldMode5 (encodeRRI op dr sr1 imm5) = 1#1 ∧
    fieldImm5 (encodeRRI op dr sr1 imm5) = imm5 := by
  refine ⟨?_, ?_, ?_, ?_, ?_⟩ <;> ext i hi <;>
    simp [encodeRRI, fieldOpcode, field11to9, field8to6, fieldMode5, fieldImm5] <;> grind

/-- The fields of a word of format RO or BR. -/
theorem fields_encodeRO (op : Opcode) (r : Reg) (offset9 : BitVec 9) :
    fieldOpcode (encodeRO op r offset9) = op.number ∧
    field11to9 (encodeRO op r offset9) = r ∧
    fieldOffset9 (encodeRO op r offset9) = offset9 := by
  refine ⟨?_, ?_, ?_⟩ <;> ext i hi <;>
    simp [encodeRO, fieldOpcode, field11to9, fieldOffset9] <;> grind

/-- The fields of a word of format RBO. -/
theorem fields_encodeRBO (op : Opcode) (r baseR : Reg) (offset6 : BitVec 6) :
    fieldOpcode (encodeRBO op r baseR offset6) = op.number ∧
    field11to9 (encodeRBO op r baseR offset6) = r ∧
    field8to6 (encodeRBO op r baseR offset6) = baseR ∧
    fieldOffset6 (encodeRBO op r baseR offset6) = offset6 := by
  refine ⟨?_, ?_, ?_, ?_⟩ <;> ext i hi <;>
    simp [encodeRBO, fieldOpcode, field11to9, field8to6, fieldOffset6] <;> grind

/-- The fields of a word of format TV. -/
theorem fields_encodeTV (ign : BitVec 4) (v : BitVec 8) :
    fieldOpcode (encodeTV ign v) = Opcode.trap.number ∧
    fieldTrapIgnored (encodeTV ign v) = ign ∧
    fieldVector (encodeTV ign v) = v := by
  refine ⟨?_, ?_, ?_⟩ <;> ext i hi <;>
    simp [encodeTV, fieldOpcode, fieldTrapIgnored, fieldVector] <;> grind

/-- The fields of a NOT word (format RR). -/
theorem fields_encode_not (dr sr : Reg) :
    fieldOpcode (encode (.not dr sr)) = Opcode.not.number ∧
    field11to9 (encode (.not dr sr)) = dr ∧
    field8to6 (encode (.not dr sr)) = sr := by
  refine ⟨?_, ?_, ?_⟩ <;> ext i hi <;>
    simp [encode, fieldOpcode, field11to9, field8to6] <;> grind

/-- The fields of a JMP word (format JB). -/
theorem fields_encode_jmp (baseR : Reg) :
    fieldOpcode (encode (.jmp baseR)) = Opcode.jmp.number ∧
    field8to6 (encode (.jmp baseR)) = baseR := by
  refine ⟨?_, ?_⟩ <;> ext i hi <;>
    simp [encode, fieldOpcode, field8to6] <;> grind

/-- The fields of a JSR word (format JO). -/
theorem fields_encode_jsr (offset11 : BitVec 11) :
    fieldOpcode (encode (.jsr offset11)) = Opcode.jsr.number ∧
    fieldMode11 (encode (.jsr offset11)) = 1#1 ∧
    fieldOffset11 (encode (.jsr offset11)) = offset11 := by
  refine ⟨?_, ?_, ?_⟩ <;> ext i hi <;>
    simp [encode, fieldOpcode, fieldMode11, fieldOffset11] <;> grind

/-- The fields of a JSRR word (format JR). -/
theorem fields_encode_jsrr (baseR : Reg) :
    fieldOpcode (encode (.jsrr baseR)) = Opcode.jsr.number ∧
    fieldMode11 (encode (.jsrr baseR)) = 0#1 ∧
    field8to6 (encode (.jsrr baseR)) = baseR := by
  refine ⟨?_, ?_, ?_⟩ <;> ext i hi <;>
    simp [encode, fieldOpcode, fieldMode11, field8to6] <;> grind

/-- The fields of an RTI word (format NF). -/
theorem fields_encode_rti (ign : BitVec 12) :
    fieldOpcode (encode (.rti ign)) = Opcode.rti.number ∧
    fieldNfIgnored (encode (.rti ign)) = ign := by
  refine ⟨?_, ?_⟩ <;> ext i hi <;>
    simp [encode, fieldOpcode, fieldNfIgnored] <;> grind

/-- The fields of a RES word (format NF). -/
theorem fields_encode_res (ign : BitVec 12) :
    fieldOpcode (encode (.res ign)) = Opcode.res.number ∧
    fieldNfIgnored (encode (.res ign)) = ign := by
  refine ⟨?_, ?_⟩ <;> ext i hi <;>
    simp [encode, fieldOpcode, fieldNfIgnored] <;> grind

/-- `OPCODE_MAP` read both ways. -/
@[simp] theorem opcodeOfNumber_number (o : Opcode) : opcodeOfNumber o.number = o := by
  cases o <;> rfl

/-- `OPCODE_MAP` read both ways. -/
@[simp] theorem number_opcodeOfNumber (n : BitVec 4) : (opcodeOfNumber n).number = n := by
  revert n; decide

/-! ## The bits of each format -/

/-- The bits of a word of format RRR. -/
theorem getLsbD_encodeRRR (op : Opcode) (dr sr1 sr2 : Reg) (k : Nat) :
    (encodeRRR op dr sr1 sr2).getLsbD k =
      if k < 3 then sr2.getLsbD k 
      else if k < 6 then false 
      else if k < 9 then sr1.getLsbD (k - 6) 
      else if k < 12 then dr.getLsbD (k - 9) else op.number.getLsbD (k - 12) := by
  simp only [encodeRRR]
  grind

/-- The bits of a word of format RRI. -/
theorem getLsbD_encodeRRI (op : Opcode) (dr sr1 : Reg) (imm5 : BitVec 5) (k : Nat) :
    (encodeRRI op dr sr1 imm5).getLsbD k =
      if k < 5 then imm5.getLsbD k 
      else if k < 6 then true 
      else if k < 9 then sr1.getLsbD (k - 6) 
      else if k < 12 then dr.getLsbD (k - 9) else op.number.getLsbD (k - 12) := by
  simp only [encodeRRI]
  grind

/-- The bits of a word of format RO or BR. -/
theorem getLsbD_encodeRO (op : Opcode) (r : Reg) (offset9 : BitVec 9) (k : Nat) :
    (encodeRO op r offset9).getLsbD k =
      if k < 9 then offset9.getLsbD k 
      else if k < 12 then r.getLsbD (k - 9) else op.number.getLsbD (k - 12) := by
  simp only [encodeRO]
  grind

/-- The bits of a word of format RBO. -/
theorem getLsbD_encodeRBO (op : Opcode) (r baseR : Reg) (offset6 : BitVec 6) (k : Nat) :
    (encodeRBO op r baseR offset6).getLsbD k =
      if k < 6 then offset6.getLsbD k 
      else if k < 9 then baseR.getLsbD (k - 6) 
      else if k < 12 then r.getLsbD (k - 9) else op.number.getLsbD (k - 12) := by
  simp only [encodeRBO]
  grind

/-- The bits of a word of format TV. -/
theorem getLsbD_encodeTV (ign : BitVec 4) (v : BitVec 8) (k : Nat) :
    (encodeTV ign v).getLsbD k =
      if k < 8 then v.getLsbD k 
      else if k < 12 then ign.getLsbD (k - 8) else Opcode.trap.number.getLsbD (k - 12) := by
  simp only [encodeTV]
  grind

/-- The bits of a NOT word. -/
theorem getLsbD_encode_not (dr sr : Reg) (k : Nat) :
    (encode (.not dr sr)).getLsbD k =
      if k < 6 then true 
      else if k < 9 then sr.getLsbD (k - 6) 
      else if k < 12 then dr.getLsbD (k - 9) else Opcode.not.number.getLsbD (k - 12) := by
  have ones : ∀ i (_ : i < 6), (0b111111#6)[i] = true := by decide
  simp only [encode]
  generalize 0b111111#6 = low at ones
  grind

/-- The bits of a JMP word. -/
theorem getLsbD_encode_jmp (baseR : Reg) (k : Nat) :
    (encode (.jmp baseR)).getLsbD k =
      if k < 6 then false 
      else if k < 9 then baseR.getLsbD (k - 6) 
      else if k < 12 then false else Opcode.jmp.number.getLsbD (k - 12) := by
  simp only [encode]
  grind

/-- The bits of a JSR word. -/
theorem getLsbD_encode_jsr (offset11 : BitVec 11) (k : Nat) :
    (encode (.jsr offset11)).getLsbD k =
      if k < 11 then offset11.getLsbD k 
      else if k < 12 then true else Opcode.jsr.number.getLsbD (k - 12) := by
  simp only [encode]
  grind

/-- The bits of a JSRR word. -/
theorem getLsbD_encode_jsrr (baseR : Reg) (k : Nat) :
    (encode (.jsrr baseR)).getLsbD k =
      if k < 6 then false 
      else if k < 9 then baseR.getLsbD (k - 6) 
      else if k < 12 then false else Opcode.jsr.number.getLsbD (k - 12) := by
  simp only [encode]
  grind

/-- The bits of an RTI word. -/
theorem getLsbD_encode_rti (ign : BitVec 12) (k : Nat) :
    (encode (.rti ign)).getLsbD k =
      if k < 12 then ign.getLsbD k else Opcode.rti.number.getLsbD (k - 12) := by
  simp only [encode]
  grind

/-- The bits of a RES word. -/
theorem getLsbD_encode_res (ign : BitVec 12) (k : Nat) :
    (encode (.res ign)).getLsbD k =
      if k < 12 then ign.getLsbD k else Opcode.res.number.getLsbD (k - 12) := by
  simp only [encode]
  grind

/-- The number of the opcode that a word selects is its opcode field. -/
theorem number_of_opcode {w : Word} {o : Opcode} (h : opcodeOfNumber (fieldOpcode w) = o) :
    o.number = fieldOpcode w := by
  rw [← h, number_opcodeOfNumber]

end Sys2Proof
end

