-- ==== Sys2Proof/Laws/Memory.lean ====
section
/-! SUPPORT. The laws of memory: reading after writing, and that every memory operation keeps the
canonical form. -/

namespace Sys2Proof.Machine

@[simp] theorem readByte_nil (b : Nat) : Memory.readByte [] b = 0#8 := rfl

theorem readByte_cons (c : Host.Cell) (m : Memory) (b : Nat) :
    Memory.readByte (c :: m) b = if c.1 = b then c.2 else Memory.readByte m b := rfl

/-- A byte that no cell lists reads as an unlisted one. -/
theorem readByte_of_not_listed (m : Memory) (b : Nat) (h : ∀ c ∈ m, c.1 ≠ b) :
    Memory.readByte m b = 0#8 := by
  induction m with
  | nil => rfl
  | cons c m ih =>
    rw [readByte_cons, if_neg (h c (by simp))]
    exact ih fun d hd => h d (by simp [hd])

/-- Taking out the cells of one address leaves every other cell alone. -/
theorem readByte_filter_ne (m : Memory) (b b' : Nat) (h : b' ≠ b) :
    Memory.readByte (m.filter (fun c => c.1 != b)) b' = Memory.readByte m b' := by
  induction m with
  | nil => rfl
  | cons c m ih =>
    by_cases hc : c.1 = b
    · simp [hc, readByte_cons, ih, Ne.symm h]
    · simp [hc, readByte_cons, ih]

/-- Reading the cell put in, where it was not listed before. -/
theorem readByte_insertCell_self (m : Memory) (b : Nat) (v : Byte) (h : ∀ c ∈ m, c.1 ≠ b) :
    Memory.readByte (Memory.insertCell m b v) b = v := by
  induction m with
  | nil => simp [Memory.insertCell, readByte_cons]
  | cons c m ih =>
    simp only [Memory.insertCell]
    split
    · rw [readByte_cons, if_neg (h c (by simp))]
      exact ih fun d hd => h d (by simp [hd])
    · simp [readByte_cons]

/-- Putting a cell in leaves every other cell alone. -/
theorem readByte_insertCell_ne (m : Memory) (b b' : Nat) (v : Byte) (h : b' ≠ b) :
    Memory.readByte (Memory.insertCell m b v) b' = Memory.readByte m b' := by
  induction m with
  | nil => simp [Memory.insertCell, readByte_cons, Ne.symm h]
  | cons c m ih =>
    simp only [Memory.insertCell]
    split
    · simp only [readByte_cons, ih]
    · rw [readByte_cons, if_neg (Ne.symm h)]

theorem filter_not_listed (m : Memory) (b : Nat) :
    ∀ c ∈ m.filter (fun c => c.1 != b), c.1 ≠ b := by
  intro c hc
  simpa using (List.mem_filter.mp hc).2

/-- A cell written reads back. -/
theorem readByte_writeByte_self (m : Memory) (b : Nat) (v : Byte) :
    Memory.readByte (Memory.writeByte m b v) b = v := by
  unfold Memory.writeByte
  split
  · rename_i hv
    rw [readByte_of_not_listed _ _ (filter_not_listed m b), hv]
  · exact readByte_insertCell_self _ _ _ (filter_not_listed m b)

/-- Writing one cell leaves every other cell alone. -/
theorem readByte_writeByte_ne (m : Memory) (b b' : Nat) (v : Byte) (h : b' ≠ b) :
    Memory.readByte (Memory.writeByte m b v) b' = Memory.readByte m b' := by
  unfold Memory.writeByte
  split
  · exact readByte_filter_ne _ _ _ h
  · rw [readByte_insertCell_ne _ _ _ _ h, readByte_filter_ne _ _ _ h]

theorem mem_insertCell (m : Memory) (b : Nat) (v : Byte) (d : Host.Cell) :
    d ∈ Memory.insertCell m b v ↔ d = (b, v) ∨ d ∈ m := by
  induction m with
  | nil => simp [Memory.insertCell]
  | cons c m ih =>
    simp only [Memory.insertCell]
    split
    · simp [ih]; tauto
    · simp

/-- Putting an unlisted cell in keeps the addresses rising. -/
theorem insertCell_rising (m : Memory) (b : Nat) (v : Byte) (h : ∀ c ∈ m, c.1 ≠ b)
    (hm : m.Pairwise (fun c d => c.1 < d.1)) :
    (Memory.insertCell m b v).Pairwise (fun c d => c.1 < d.1) := by
  induction m with
  | nil => simp [Memory.insertCell]
  | cons c m ih =>
    obtain ⟨hc, hm'⟩ := List.pairwise_cons.mp hm
    have hcb := h c (by simp)
    simp only [Memory.insertCell]
    split
    · refine List.pairwise_cons.mpr ⟨fun d hd => ?_, ih (fun d hd => h d (by simp [hd])) hm'⟩
      rcases (mem_insertCell m b v d).mp hd with rfl | hd
      · assumption
      · exact hc d hd
    · refine List.pairwise_cons.mpr ⟨fun d hd => ?_, hm⟩
      rcases List.mem_cons.mp hd with rfl | hd
      · simp only; omega
      · have := hc d hd; simp only; omega

/-- Writing a cell of the address space keeps the canonical form. -/
theorem writeByte_wf (m : Memory) (b : Nat) (v : Byte) (h : m.wf) (hb : b < 131072) :
    (Memory.writeByte m b v).wf := by
  have hf : Memory.wf (m.filter (fun c => c.1 != b)) :=
    ⟨h.1.filter _, fun c hc => h.2 c (List.mem_filter.mp hc).1⟩
  unfold Memory.writeByte
  split
  · exact hf
  · refine ⟨insertCell_rising _ _ _ (filter_not_listed m b) hf.1, fun d hd => ?_⟩
    rcases (mem_insertCell _ b v d).mp hd with rfl | hd
    · exact ⟨hb, by assumption⟩
    · exact hf.2 d hd

theorem highAddr_lt (a : Word) : highAddr a < 131072 := by
  have := a.isLt; simp only [highAddr]; omega

theorem lowAddr_lt (a : Word) : lowAddr a < 131072 := by
  have := a.isLt; simp only [lowAddr]; omega

theorem highAddr_ne_lowAddr (a b : Word) : highAddr a ≠ lowAddr b := by
  simp only [highAddr, lowAddr]; omega

theorem highAddr_inj {a b : Word} (h : highAddr a = highAddr b) : a = b := by
  apply BitVec.eq_of_toNat_eq; simp only [highAddr] at h; omega

theorem lowAddr_inj {a b : Word} (h : lowAddr a = lowAddr b) : a = b := by
  apply BitVec.eq_of_toNat_eq; simp only [lowAddr] at h; omega

theorem highHalf_append_lowHalf (w : Word) : highHalf w ++ lowHalf w = w := by
  ext i hi
  simp only [highHalf, lowHalf, BitVec.getElem_append, BitVec.getElem_extractLsb']
  split
  · simp [BitVec.getLsbD_eq_getElem hi]
  · rw [show 8 + (i - 8) = i by omega, BitVec.getLsbD_eq_getElem hi]

/-- `MemWrite` keeps the canonical form. -/
theorem writeWord_wf (m : Memory) (a v : Word) (h : m.wf) : (Memory.writeWord m a v).wf :=
  writeByte_wf _ _ _ (writeByte_wf _ _ _ h (highAddr_lt a)) (lowAddr_lt a)

/-- A word written reads back. -/
theorem readWord_writeWord_self (m : Memory) (a v : Word) :
    Memory.readWord (Memory.writeWord m a v) a = v := by
  rw [Memory.readWord, Memory.writeWord, readByte_writeByte_self,
    readByte_writeByte_ne _ _ _ _ (highAddr_ne_lowAddr a a), readByte_writeByte_self,
    highHalf_append_lowHalf]

/-- A write leaves every byte outside the word alone. -/
theorem readByte_writeWord_ne (m : Memory) (a v : Word) (b : Nat) (hh : b ≠ highAddr a)
    (hl : b ≠ lowAddr a) : Memory.readByte (Memory.writeWord m a v) b = Memory.readByte m b := by
  rw [Memory.writeWord, readByte_writeByte_ne _ _ _ _ hl, readByte_writeByte_ne _ _ _ _ hh]

/-- A write leaves every other word alone. -/
theorem readWord_writeWord_ne (m : Memory) (a a' v : Word) (h : a' ≠ a) :
    Memory.readWord (Memory.writeWord m a v) a' = Memory.readWord m a' := by
  have hl : lowAddr a' ≠ highAddr a := fun e => highAddr_ne_lowAddr a a' e.symm
  rw [Memory.readWord, Memory.readWord,
    readByte_writeWord_ne _ _ _ _ (fun e => h (highAddr_inj e)) (highAddr_ne_lowAddr a' a),
    readByte_writeWord_ne _ _ _ _ hl (fun e => h (lowAddr_inj e))]

end Sys2Proof.Machine
end

