-- ==== Sys2Proof/Laws/State.lean ====
section
/-! SUPPORT. One lemma per field per update of the state, each true by definition. -/

namespace Sys2Proof.Machine

variable (s : State)

/-! ## `State.setReg` -/

@[simp] theorem setReg_regs (r : BitVec 3) (v : Word) : (s.setReg r v).regs = s.regs.set r.toNat v r.isLt := rfl
@[simp] theorem setReg_pc (r : BitVec 3) (v : Word) : (s.setReg r v).pc = s.pc := rfl
@[simp] theorem setReg_cond (r : BitVec 3) (v : Word) : (s.setReg r v).cond = s.cond := rfl
@[simp] theorem setReg_run (r : BitVec 3) (v : Word) : (s.setReg r v).run = s.run := rfl
@[simp] theorem setReg_fault (r : BitVec 3) (v : Word) : (s.setReg r v).fault = s.fault := rfl
@[simp] theorem setReg_mem (r : BitVec 3) (v : Word) : (s.setReg r v).mem = s.mem := rfl
@[simp] theorem setReg_inPos (r : BitVec 3) (v : Word) : (s.setReg r v).inPos = s.inPos := rfl
@[simp] theorem setReg_outLog (r : BitVec 3) (v : Word) : (s.setReg r v).outLog = s.outLog := rfl
@[simp] theorem setReg_input (r : BitVec 3) (v : Word) : (s.setReg r v).input = s.input := rfl
@[simp] theorem setReg_trapLinksR7 (r : BitVec 3) (v : Word) : (s.setReg r v).trapLinksR7 = s.trapLinksR7 := rfl
@[simp] theorem setReg_haltNotice (r : BitVec 3) (v : Word) : (s.setReg r v).haltNotice = s.haltNotice := rfl
@[simp] theorem setReg_inPrompt (r : BitVec 3) (v : Word) : (s.setReg r v).inPrompt = s.inPrompt := rfl
@[simp] theorem setReg_inPrompted (r : BitVec 3) (v : Word) : (s.setReg r v).inPrompted = s.inPrompted := rfl
@[simp] theorem setReg_inString (r : BitVec 3) (v : Word) : (s.setReg r v).inString = s.inString := rfl
@[simp] theorem setReg_cell (r : BitVec 3) (v : Word) (q : Word) : (s.setReg r v).cell q = s.cell q := rfl

/-! ## `State.setPc` -/

@[simp] theorem setPc_regs (t : Word) : (s.setPc t).regs = s.regs := rfl
@[simp] theorem setPc_pc (t : Word) : (s.setPc t).pc = t := rfl
@[simp] theorem setPc_cond (t : Word) : (s.setPc t).cond = s.cond := rfl
@[simp] theorem setPc_run (t : Word) : (s.setPc t).run = s.run := rfl
@[simp] theorem setPc_fault (t : Word) : (s.setPc t).fault = s.fault := rfl
@[simp] theorem setPc_mem (t : Word) : (s.setPc t).mem = s.mem := rfl
@[simp] theorem setPc_inPos (t : Word) : (s.setPc t).inPos = s.inPos := rfl
@[simp] theorem setPc_outLog (t : Word) : (s.setPc t).outLog = s.outLog := rfl
@[simp] theorem setPc_input (t : Word) : (s.setPc t).input = s.input := rfl
@[simp] theorem setPc_trapLinksR7 (t : Word) : (s.setPc t).trapLinksR7 = s.trapLinksR7 := rfl
@[simp] theorem setPc_haltNotice (t : Word) : (s.setPc t).haltNotice = s.haltNotice := rfl
@[simp] theorem setPc_inPrompt (t : Word) : (s.setPc t).inPrompt = s.inPrompt := rfl
@[simp] theorem setPc_inPrompted (t : Word) : (s.setPc t).inPrompted = s.inPrompted := rfl
@[simp] theorem setPc_inString (t : Word) : (s.setPc t).inString = s.inString := rfl
@[simp] theorem setPc_reg (t : Word) (q : BitVec 3) : (s.setPc t).reg q = s.reg q := rfl
@[simp] theorem setPc_cell (t : Word) (q : Word) : (s.setPc t).cell q = s.cell q := rfl

/-! ## `State.memWrite` -/

@[simp] theorem memWrite_regs (a v : Word) : (s.memWrite a v).regs = s.regs := rfl
@[simp] theorem memWrite_pc (a v : Word) : (s.memWrite a v).pc = s.pc := rfl
@[simp] theorem memWrite_cond (a v : Word) : (s.memWrite a v).cond = s.cond := rfl
@[simp] theorem memWrite_run (a v : Word) : (s.memWrite a v).run = s.run := rfl
@[simp] theorem memWrite_fault (a v : Word) : (s.memWrite a v).fault = s.fault := rfl
@[simp] theorem memWrite_mem (a v : Word) : (s.memWrite a v).mem = s.mem.writeWord a v := rfl
@[simp] theorem memWrite_inPos (a v : Word) : (s.memWrite a v).inPos = s.inPos := rfl
@[simp] theorem memWrite_outLog (a v : Word) : (s.memWrite a v).outLog = s.outLog := rfl
@[simp] theorem memWrite_input (a v : Word) : (s.memWrite a v).input = s.input := rfl
@[simp] theorem memWrite_trapLinksR7 (a v : Word) : (s.memWrite a v).trapLinksR7 = s.trapLinksR7 := rfl
@[simp] theorem memWrite_haltNotice (a v : Word) : (s.memWrite a v).haltNotice = s.haltNotice := rfl
@[simp] theorem memWrite_inPrompt (a v : Word) : (s.memWrite a v).inPrompt = s.inPrompt := rfl
@[simp] theorem memWrite_inPrompted (a v : Word) : (s.memWrite a v).inPrompted = s.inPrompted := rfl
@[simp] theorem memWrite_inString (a v : Word) : (s.memWrite a v).inString = s.inString := rfl
@[simp] theorem memWrite_reg (a v : Word) (q : BitVec 3) : (s.memWrite a v).reg q = s.reg q := rfl

/-! ## `State.setFlags` -/

@[simp] theorem setFlags_regs (r : BitVec 3) : (s.setFlags r).regs = s.regs := rfl
@[simp] theorem setFlags_pc (r : BitVec 3) : (s.setFlags r).pc = s.pc := rfl
@[simp] theorem setFlags_cond (r : BitVec 3) : (s.setFlags r).cond = signFlag (s.reg r) := rfl
@[simp] theorem setFlags_run (r : BitVec 3) : (s.setFlags r).run = s.run := rfl
@[simp] theorem setFlags_fault (r : BitVec 3) : (s.setFlags r).fault = s.fault := rfl
@[simp] theorem setFlags_mem (r : BitVec 3) : (s.setFlags r).mem = s.mem := rfl
@[simp] theorem setFlags_inPos (r : BitVec 3) : (s.setFlags r).inPos = s.inPos := rfl
@[simp] theorem setFlags_outLog (r : BitVec 3) : (s.setFlags r).outLog = s.outLog := rfl
@[simp] theorem setFlags_input (r : BitVec 3) : (s.setFlags r).input = s.input := rfl
@[simp] theorem setFlags_trapLinksR7 (r : BitVec 3) : (s.setFlags r).trapLinksR7 = s.trapLinksR7 := rfl
@[simp] theorem setFlags_haltNotice (r : BitVec 3) : (s.setFlags r).haltNotice = s.haltNotice := rfl
@[simp] theorem setFlags_inPrompt (r : BitVec 3) : (s.setFlags r).inPrompt = s.inPrompt := rfl
@[simp] theorem setFlags_inPrompted (r : BitVec 3) : (s.setFlags r).inPrompted = s.inPrompted := rfl
@[simp] theorem setFlags_inString (r : BitVec 3) : (s.setFlags r).inString = s.inString := rfl
@[simp] theorem setFlags_reg (r : BitVec 3) (q : BitVec 3) : (s.setFlags r).reg q = s.reg q := rfl
@[simp] theorem setFlags_cell (r : BitVec 3) (q : Word) : (s.setFlags r).cell q = s.cell q := rfl

/-! ## `State.out` -/

@[simp] theorem out_regs (b : Byte) : (s.out b).regs = s.regs := rfl
@[simp] theorem out_pc (b : Byte) : (s.out b).pc = s.pc := rfl
@[simp] theorem out_cond (b : Byte) : (s.out b).cond = s.cond := rfl
@[simp] theorem out_run (b : Byte) : (s.out b).run = s.run := rfl
@[simp] theorem out_fault (b : Byte) : (s.out b).fault = s.fault := rfl
@[simp] theorem out_mem (b : Byte) : (s.out b).mem = s.mem := rfl
@[simp] theorem out_inPos (b : Byte) : (s.out b).inPos = s.inPos := rfl
@[simp] theorem out_outLog (b : Byte) : (s.out b).outLog = s.outLog ++ [.byte b] := rfl
@[simp] theorem out_input (b : Byte) : (s.out b).input = s.input := rfl
@[simp] theorem out_trapLinksR7 (b : Byte) : (s.out b).trapLinksR7 = s.trapLinksR7 := rfl
@[simp] theorem out_haltNotice (b : Byte) : (s.out b).haltNotice = s.haltNotice := rfl
@[simp] theorem out_inPrompt (b : Byte) : (s.out b).inPrompt = s.inPrompt := rfl
@[simp] theorem out_inPrompted (b : Byte) : (s.out b).inPrompted = s.inPrompted := rfl
@[simp] theorem out_inString (b : Byte) : (s.out b).inString = s.inString := rfl
@[simp] theorem out_reg (b : Byte) (q : BitVec 3) : (s.out b).reg q = s.reg q := rfl
@[simp] theorem out_cell (b : Byte) (q : Word) : (s.out b).cell q = s.cell q := rfl

/-! ## `State.outAll` -/

@[simp] theorem outAll_regs (bs : List Byte) : (s.outAll bs).regs = s.regs := rfl
@[simp] theorem outAll_pc (bs : List Byte) : (s.outAll bs).pc = s.pc := rfl
@[simp] theorem outAll_cond (bs : List Byte) : (s.outAll bs).cond = s.cond := rfl
@[simp] theorem outAll_run (bs : List Byte) : (s.outAll bs).run = s.run := rfl
@[simp] theorem outAll_fault (bs : List Byte) : (s.outAll bs).fault = s.fault := rfl
@[simp] theorem outAll_mem (bs : List Byte) : (s.outAll bs).mem = s.mem := rfl
@[simp] theorem outAll_inPos (bs : List Byte) : (s.outAll bs).inPos = s.inPos := rfl
@[simp] theorem outAll_outLog (bs : List Byte) : (s.outAll bs).outLog = s.outLog ++ bs.map .byte := rfl
@[simp] theorem outAll_input (bs : List Byte) : (s.outAll bs).input = s.input := rfl
@[simp] theorem outAll_trapLinksR7 (bs : List Byte) : (s.outAll bs).trapLinksR7 = s.trapLinksR7 := rfl
@[simp] theorem outAll_haltNotice (bs : List Byte) : (s.outAll bs).haltNotice = s.haltNotice := rfl
@[simp] theorem outAll_inPrompt (bs : List Byte) : (s.outAll bs).inPrompt = s.inPrompt := rfl
@[simp] theorem outAll_inPrompted (bs : List Byte) : (s.outAll bs).inPrompted = s.inPrompted := rfl
@[simp] theorem outAll_inString (bs : List Byte) : (s.outAll bs).inString = s.inString := rfl
@[simp] theorem outAll_reg (bs : List Byte) (q : BitVec 3) : (s.outAll bs).reg q = s.reg q := rfl
@[simp] theorem outAll_cell (bs : List Byte) (q : Word) : (s.outAll bs).cell q = s.cell q := rfl

/-! ## `State.flush` -/

@[simp] theorem flush_regs : s.flush.regs = s.regs := rfl
@[simp] theorem flush_pc : s.flush.pc = s.pc := rfl
@[simp] theorem flush_cond : s.flush.cond = s.cond := rfl
@[simp] theorem flush_run : s.flush.run = s.run := rfl
@[simp] theorem flush_fault : s.flush.fault = s.fault := rfl
@[simp] theorem flush_mem : s.flush.mem = s.mem := rfl
@[simp] theorem flush_inPos : s.flush.inPos = s.inPos := rfl
@[simp] theorem flush_outLog : s.flush.outLog = s.outLog ++ [.flush] := rfl
@[simp] theorem flush_input : s.flush.input = s.input := rfl
@[simp] theorem flush_trapLinksR7 : s.flush.trapLinksR7 = s.trapLinksR7 := rfl
@[simp] theorem flush_haltNotice : s.flush.haltNotice = s.haltNotice := rfl
@[simp] theorem flush_inPrompt : s.flush.inPrompt = s.inPrompt := rfl
@[simp] theorem flush_inPrompted : s.flush.inPrompted = s.inPrompted := rfl
@[simp] theorem flush_inString : s.flush.inString = s.inString := rfl
@[simp] theorem flush_reg (q : BitVec 3) : s.flush.reg q = s.reg q := rfl
@[simp] theorem flush_cell (q : Word) : s.flush.cell q = s.cell q := rfl

/-! ## `State.endString` -/

@[simp] theorem endString_regs : s.endString.regs = s.regs := rfl
@[simp] theorem endString_pc : s.endString.pc = s.pc := rfl
@[simp] theorem endString_cond : s.endString.cond = s.cond := rfl
@[simp] theorem endString_run : s.endString.run = s.run := rfl
@[simp] theorem endString_fault : s.endString.fault = s.fault := rfl
@[simp] theorem endString_mem : s.endString.mem = s.mem := rfl
@[simp] theorem endString_inPos : s.endString.inPos = s.inPos := rfl
@[simp] theorem endString_outLog : s.endString.outLog = s.outLog ++ [.flush] := rfl
@[simp] theorem endString_input : s.endString.input = s.input := rfl
@[simp] theorem endString_trapLinksR7 : s.endString.trapLinksR7 = s.trapLinksR7 := rfl
@[simp] theorem endString_haltNotice : s.endString.haltNotice = s.haltNotice := rfl
@[simp] theorem endString_inPrompt : s.endString.inPrompt = s.inPrompt := rfl
@[simp] theorem endString_inPrompted : s.endString.inPrompted = s.inPrompted := rfl
@[simp] theorem endString_inString : s.endString.inString = none := rfl
@[simp] theorem endString_reg (q : BitVec 3) : s.endString.reg q = s.reg q := rfl
@[simp] theorem endString_cell (q : Word) : s.endString.cell q = s.cell q := rfl

/-! ## `State.stayInString` -/

@[simp] theorem stayInString_regs (r : StringRoutine) (a : Word) : (s.stayInString r a).regs = s.regs := rfl
@[simp] theorem stayInString_pc (r : StringRoutine) (a : Word) : (s.stayInString r a).pc = s.pc := rfl
@[simp] theorem stayInString_cond (r : StringRoutine) (a : Word) : (s.stayInString r a).cond = s.cond := rfl
@[simp] theorem stayInString_run (r : StringRoutine) (a : Word) : (s.stayInString r a).run = s.run := rfl
@[simp] theorem stayInString_fault (r : StringRoutine) (a : Word) : (s.stayInString r a).fault = s.fault := rfl
@[simp] theorem stayInString_mem (r : StringRoutine) (a : Word) : (s.stayInString r a).mem = s.mem := rfl
@[simp] theorem stayInString_inPos (r : StringRoutine) (a : Word) : (s.stayInString r a).inPos = s.inPos := rfl
@[simp] theorem stayInString_outLog (r : StringRoutine) (a : Word) : (s.stayInString r a).outLog = s.outLog := rfl
@[simp] theorem stayInString_input (r : StringRoutine) (a : Word) : (s.stayInString r a).input = s.input := rfl
@[simp] theorem stayInString_trapLinksR7 (r : StringRoutine) (a : Word) : (s.stayInString r a).trapLinksR7 = s.trapLinksR7 := rfl
@[simp] theorem stayInString_haltNotice (r : StringRoutine) (a : Word) : (s.stayInString r a).haltNotice = s.haltNotice := rfl
@[simp] theorem stayInString_inPrompt (r : StringRoutine) (a : Word) : (s.stayInString r a).inPrompt = s.inPrompt := rfl
@[simp] theorem stayInString_inPrompted (r : StringRoutine) (a : Word) : (s.stayInString r a).inPrompted = s.inPrompted := rfl
@[simp] theorem stayInString_inString (r : StringRoutine) (a : Word) : (s.stayInString r a).inString = some (r, a) := rfl
@[simp] theorem stayInString_reg (r : StringRoutine) (a : Word) (q : BitVec 3) : (s.stayInString r a).reg q = s.reg q := rfl
@[simp] theorem stayInString_cell (r : StringRoutine) (a : Word) (q : Word) : (s.stayInString r a).cell q = s.cell q := rfl

/-! ## `State.hold` -/

@[simp] theorem hold_regs : s.hold.regs = s.regs := rfl
@[simp] theorem hold_pc : s.hold.pc = s.pc - 1#16 := rfl
@[simp] theorem hold_cond : s.hold.cond = s.cond := rfl
@[simp] theorem hold_run : s.hold.run = s.run := rfl
@[simp] theorem hold_fault : s.hold.fault = s.fault := rfl
@[simp] theorem hold_mem : s.hold.mem = s.mem := rfl
@[simp] theorem hold_inPos : s.hold.inPos = s.inPos := rfl
@[simp] theorem hold_outLog : s.hold.outLog = s.outLog := rfl
@[simp] theorem hold_input : s.hold.input = s.input.missed := rfl
@[simp] theorem hold_trapLinksR7 : s.hold.trapLinksR7 = s.trapLinksR7 := rfl
@[simp] theorem hold_haltNotice : s.hold.haltNotice = s.haltNotice := rfl
@[simp] theorem hold_inPrompt : s.hold.inPrompt = s.inPrompt := rfl
@[simp] theorem hold_inPrompted : s.hold.inPrompted = s.inPrompted := rfl
@[simp] theorem hold_inString : s.hold.inString = s.inString := rfl
@[simp] theorem hold_reg (q : BitVec 3) : s.hold.reg q = s.reg q := rfl
@[simp] theorem hold_cell (q : Word) : s.hold.cell q = s.cell q := rfl

/-! ## `State.endPrompt` -/

@[simp] theorem endPrompt_regs : s.endPrompt.regs = s.regs := rfl
@[simp] theorem endPrompt_pc : s.endPrompt.pc = s.pc := rfl
@[simp] theorem endPrompt_cond : s.endPrompt.cond = s.cond := rfl
@[simp] theorem endPrompt_run : s.endPrompt.run = s.run := rfl
@[simp] theorem endPrompt_fault : s.endPrompt.fault = s.fault := rfl
@[simp] theorem endPrompt_mem : s.endPrompt.mem = s.mem := rfl
@[simp] theorem endPrompt_inPos : s.endPrompt.inPos = s.inPos := rfl
@[simp] theorem endPrompt_outLog : s.endPrompt.outLog = s.outLog := rfl
@[simp] theorem endPrompt_input : s.endPrompt.input = s.input := rfl
@[simp] theorem endPrompt_trapLinksR7 : s.endPrompt.trapLinksR7 = s.trapLinksR7 := rfl
@[simp] theorem endPrompt_haltNotice : s.endPrompt.haltNotice = s.haltNotice := rfl
@[simp] theorem endPrompt_inPrompt : s.endPrompt.inPrompt = s.inPrompt := rfl
@[simp] theorem endPrompt_inPrompted : s.endPrompt.inPrompted = false := rfl
@[simp] theorem endPrompt_inString : s.endPrompt.inString = s.inString := rfl
@[simp] theorem endPrompt_reg (q : BitVec 3) : s.endPrompt.reg q = s.reg q := rfl
@[simp] theorem endPrompt_cell (q : Word) : s.endPrompt.cell q = s.cell q := rfl

/-! ## `State.raise` -/

@[simp] theorem raise_regs (f : FaultCause) (instr : Word) : (s.raise f instr).regs = s.regs := rfl
@[simp] theorem raise_pc (f : FaultCause) (instr : Word) : (s.raise f instr).pc = s.pc := rfl
@[simp] theorem raise_cond (f : FaultCause) (instr : Word) : (s.raise f instr).cond = s.cond := rfl
@[simp] theorem raise_run (f : FaultCause) (instr : Word) : (s.raise f instr).run = .faulted := rfl
@[simp] theorem raise_fault (f : FaultCause) (instr : Word) : (s.raise f instr).fault = some ⟨f, s.pc - 1#16, instr⟩ := rfl
@[simp] theorem raise_mem (f : FaultCause) (instr : Word) : (s.raise f instr).mem = s.mem := rfl
@[simp] theorem raise_inPos (f : FaultCause) (instr : Word) : (s.raise f instr).inPos = s.inPos := rfl
@[simp] theorem raise_outLog (f : FaultCause) (instr : Word) : (s.raise f instr).outLog = s.outLog := rfl
@[simp] theorem raise_input (f : FaultCause) (instr : Word) : (s.raise f instr).input = s.input := rfl
@[simp] theorem raise_trapLinksR7 (f : FaultCause) (instr : Word) : (s.raise f instr).trapLinksR7 = s.trapLinksR7 := rfl
@[simp] theorem raise_haltNotice (f : FaultCause) (instr : Word) : (s.raise f instr).haltNotice = s.haltNotice := rfl
@[simp] theorem raise_inPrompt (f : FaultCause) (instr : Word) : (s.raise f instr).inPrompt = s.inPrompt := rfl
@[simp] theorem raise_inPrompted (f : FaultCause) (instr : Word) : (s.raise f instr).inPrompted = s.inPrompted := rfl
@[simp] theorem raise_inString (f : FaultCause) (instr : Word) : (s.raise f instr).inString = s.inString := rfl
@[simp] theorem raise_reg (f : FaultCause) (instr : Word) (q : BitVec 3) : (s.raise f instr).reg q = s.reg q := rfl
@[simp] theorem raise_cell (f : FaultCause) (instr : Word) (q : Word) : (s.raise f instr).cell q = s.cell q := rfl

/-! ## `State.consume` -/

@[simp] theorem consume_regs (rest : Input) : (s.consume rest).regs = s.regs := rfl
@[simp] theorem consume_pc (rest : Input) : (s.consume rest).pc = s.pc := rfl
@[simp] theorem consume_cond (rest : Input) : (s.consume rest).cond = s.cond := rfl
@[simp] theorem consume_run (rest : Input) : (s.consume rest).run = s.run := rfl
@[simp] theorem consume_fault (rest : Input) : (s.consume rest).fault = s.fault := rfl
@[simp] theorem consume_mem (rest : Input) : (s.consume rest).mem = s.mem := rfl
@[simp] theorem consume_inPos (rest : Input) : (s.consume rest).inPos = s.inPos + 1 := rfl
@[simp] theorem consume_outLog (rest : Input) : (s.consume rest).outLog = s.outLog := rfl
@[simp] theorem consume_input (rest : Input) : (s.consume rest).input = rest := rfl
@[simp] theorem consume_trapLinksR7 (rest : Input) : (s.consume rest).trapLinksR7 = s.trapLinksR7 := rfl
@[simp] theorem consume_haltNotice (rest : Input) : (s.consume rest).haltNotice = s.haltNotice := rfl
@[simp] theorem consume_inPrompt (rest : Input) : (s.consume rest).inPrompt = s.inPrompt := rfl
@[simp] theorem consume_inPrompted (rest : Input) : (s.consume rest).inPrompted = s.inPrompted := rfl
@[simp] theorem consume_inString (rest : Input) : (s.consume rest).inString = s.inString := rfl
@[simp] theorem consume_reg (rest : Input) (q : BitVec 3) : (s.consume rest).reg q = s.reg q := rfl
@[simp] theorem consume_cell (rest : Input) (q : Word) : (s.consume rest).cell q = s.cell q := rfl

/-! ## `State.decline` -/

@[simp] theorem decline_regs (rest : Input) : (s.decline rest).regs = s.regs := rfl
@[simp] theorem decline_pc (rest : Input) : (s.decline rest).pc = s.pc := rfl
@[simp] theorem decline_cond (rest : Input) : (s.decline rest).cond = s.cond := rfl
@[simp] theorem decline_run (rest : Input) : (s.decline rest).run = s.run := rfl
@[simp] theorem decline_fault (rest : Input) : (s.decline rest).fault = s.fault := rfl
@[simp] theorem decline_mem (rest : Input) : (s.decline rest).mem = s.mem := rfl
@[simp] theorem decline_inPos (rest : Input) : (s.decline rest).inPos = s.inPos := rfl
@[simp] theorem decline_outLog (rest : Input) : (s.decline rest).outLog = s.outLog := rfl
@[simp] theorem decline_input (rest : Input) : (s.decline rest).input = rest := rfl
@[simp] theorem decline_trapLinksR7 (rest : Input) : (s.decline rest).trapLinksR7 = s.trapLinksR7 := rfl
@[simp] theorem decline_haltNotice (rest : Input) : (s.decline rest).haltNotice = s.haltNotice := rfl
@[simp] theorem decline_inPrompt (rest : Input) : (s.decline rest).inPrompt = s.inPrompt := rfl
@[simp] theorem decline_inPrompted (rest : Input) : (s.decline rest).inPrompted = s.inPrompted := rfl
@[simp] theorem decline_inString (rest : Input) : (s.decline rest).inString = s.inString := rfl
@[simp] theorem decline_reg (rest : Input) (q : BitVec 3) : (s.decline rest).reg q = s.reg q := rfl
@[simp] theorem decline_cell (rest : Input) (q : Word) : (s.decline rest).cell q = s.cell q := rfl

end Sys2Proof.Machine
end

