-- ==== Sys2Proof/Laws/Ops.lean ====
section
/-! SUPPORT. For each shared operation, what it can do: the provers cite these lemmas and do not unfold the
operations. -/

namespace Sys2Proof.Machine

variable (s : State)

/-! ## Registers -/

@[simp] theorem setReg_reg_self (r : BitVec 3) (v : Word) : (s.setReg r v).reg r = v := by
  simp [State.reg]

theorem setReg_reg_ne (r q : BitVec 3) (v : Word) (h : q ≠ r) :
    (s.setReg r v).reg q = s.reg q := by
  have hn : r.toNat ≠ q.toNat := fun e => h (BitVec.eq_of_toNat_eq e.symm)
  simp [State.reg, Vector.getElem_set_ne _ _ hn]

/-- A register write changes the one register. -/
theorem setReg_reg (r q : BitVec 3) (v : Word) :
    (s.setReg r v).reg q = if q = r then v else s.reg q := by
  split
  · subst q; exact setReg_reg_self s r v
  · exact setReg_reg_ne s r q v ‹_›

/-! ## Memory words -/

@[simp] theorem memWrite_cell_self (a v : Word) : (s.memWrite a v).cell a = v :=
  readWord_writeWord_self _ _ _

theorem memWrite_cell_ne (a a' v : Word) (h : a' ≠ a) : (s.memWrite a v).cell a' = s.cell a' :=
  readWord_writeWord_ne _ _ _ _ h

theorem memWrite_wf (a v : Word) (h : s.mem.wf) : (s.memWrite a v).mem.wf :=
  writeWord_wf _ _ _ h

/-- `MemWrite` changes no byte outside its word. -/
theorem memWrite_sameMemoryOff (a v : Word) : SameMemoryOff a s (s.memWrite a v) :=
  fun b hh hl => readByte_writeWord_ne _ _ _ b hh hl

/-- Equal bytes are equal words. -/
theorem cell_of_sameMemory {s t : State} (h : SameMemory s t) (a : Word) :
    t.cell a = s.cell a := by
  rw [State.cell, State.cell, Memory.readWord, Memory.readWord, h, h]

/-! ## The input device -/

/-- All that one `InAvail()` with its `InRead()` can do (10_state R34). -/
theorem ask_cases :
    (s.input.answer = .idle ∧ s.ask = (none, s.decline s.input.rest)) ∨
    (∃ c, s.input.answer = .key c ∧ s.ask = (some c, s.consume s.input.rest)) := by
  unfold State.ask
  rcases h : s.input.answer with _ | c <;> simp

/-- All that the calls of one step of a wait can do (43_trap R126). -/
theorem await_cases :
    (firstKey s.input.listed s.input.later = none ∧ s.await = none) ∨
    (∃ c rest, firstKey s.input.listed s.input.later = some (c, rest) ∧
      s.await = some (c, s.consume rest)) := by
  unfold State.await
  rcases firstKey s.input.listed s.input.later with _ | ⟨c, rest⟩ <;> simp

/-! ## What is to come of the input -/

theorem drop_succ (k : Nat) (i : Input) : i.drop (k + 1) = i.rest.drop k := rfl

theorem drop_drop (j k : Nat) (i : Input) : (i.drop j).drop k = i.drop (j + k) := by
  induction j generalizing i with
  | zero => simp [Input.drop]
  | succ j ih => rw [drop_succ, ih, Nat.succ_add, drop_succ]

/-- The characters of calls in two parts. -/
theorem keys_add (j k : Nat) (i : Input) : i.keys (j + k) = i.keys j + (i.drop j).keys k := by
  induction j generalizing i with
  | zero => simp [Input.keys, Input.drop]
  | succ j ih => simp only [Nat.succ_add, Input.keys, ih, drop_succ]; omega

theorem Drawn.refl : Drawn s s := ⟨0, rfl, rfl⟩

theorem Drawn.trans {s t u : State} (h : Drawn s t) (h' : Drawn t u) : Drawn s u := by
  obtain ⟨j, hj, pj⟩ := h
  obtain ⟨k, hk, pk⟩ := h'
  exact ⟨j + k, by rw [hk, hj, drop_drop], by rw [pk, pj, hj, keys_add]; omega⟩

/-- A state with the same input device has drawn nothing. -/
theorem Drawn.of_same {s t : State} (h : t.input = s.input) (h' : t.inPos = s.inPos) :
    Drawn s t := ⟨0, h, h'⟩

/-- A wait that finds a character makes some calls, of which the last alone finds one. -/
theorem firstKey_some {l : List InputAnswer} {later : LaterAnswers} {c : Byte} {rest : Input}
    (h : firstKey l later = some (c, rest)) :
    ∃ k, rest = (Input.mk l later).drop k ∧ (Input.mk l later).keys k = 1 := by
  induction l with
  | nil =>
    simp only [firstKey] at h
    rcases e : later.first with _ | d <;> rw [e] at h
    · cases h
    · obtain ⟨rfl, rfl⟩ := Prod.mk.inj (Option.some.inj h)
      exact ⟨1, by simp [Input.drop, Input.keys, Input.answer, Input.rest, e]⟩
  | cons a l ih =>
    cases a with
    | idle =>
      obtain ⟨k, h1, h2⟩ := ih h
      exact ⟨k + 1, h1, by rw [Input.keys]; simpa [Input.answer, Input.rest] using h2⟩
    | key d =>
      obtain ⟨rfl, rfl⟩ := Prod.mk.inj (Option.some.inj h)
      exact ⟨1, rfl, rfl⟩

/-- A wait that finds no character: every call of the step has answered false. -/
theorem firstKey_none {l : List InputAnswer} {later : LaterAnswers} :
    firstKey l later = none ↔ (∀ a ∈ l, a = .idle) ∧ later.first = .idle := by
  induction l with
  | nil =>
    simp only [firstKey]
    rcases later.first with _ | d <;> simp
  | cons a l ih => cases a <;> simp [firstKey, ih]

/-- The calls of a wait that finds a character, as calls of the input device. -/
theorem consume_drawn {c : Byte} {rest : Input}
    (h : firstKey s.input.listed s.input.later = some (c, rest)) : Drawn s (s.consume rest) := by
  obtain ⟨k, h1, h2⟩ := firstKey_some h
  exact ⟨k, h1, by rw [consume_inPos]; exact congrArg _ h2.symm⟩

/-- The calls of a step of a wait that finds no character, as calls of the input device. -/
theorem missed_drop {l : List InputAnswer} {later : LaterAnswers} (h : firstKey l later = none) :
    ∃ k, (Input.mk l later).missed = (Input.mk l later).drop k ∧ (Input.mk l later).keys k = 0 := by
  rcases later with _ | n
  · exact ⟨0, rfl, rfl⟩
  · refine ⟨l.length + 1, ?_⟩
    induction l with
    | nil => exact ⟨rfl, by simp [Input.keys, Input.answer, (firstKey_none.1 h).2]⟩
    | cons a l ih =>
      obtain ⟨hl, hf⟩ := firstKey_none.1 h
      obtain ⟨h1, h2⟩ := ih (firstKey_none.2 ⟨fun b hb => hl b (List.mem_cons_of_mem a hb), hf⟩)
      have ha : a = .idle := hl a (List.mem_cons_self ..)
      exact ⟨h1, by rw [List.length_cons, Input.keys]; simpa [Input.answer, Input.rest, ha] using h2⟩

/-- A held step draws false answers only. -/
theorem hold_drawn (h : firstKey s.input.listed s.input.later = none) : Drawn s s.hold := by
  obtain ⟨k, hk, hz⟩ := missed_drop h
  exact ⟨k, hk, by rw [hold_inPos, hz, Nat.add_zero]⟩

/-! ## The poll and MemRead -/

/-- All that a keyboard poll can do (20_memory R41). -/
theorem poll_cases :
    (s.input.answer = .idle ∧ s.poll = (s.decline s.input.rest).memWrite kbsr 0#16) ∨
    (∃ c, s.input.answer = .key c ∧
      s.poll = ((s.consume s.input.rest).memWrite kbsr kbsrReady).memWrite kbdr (zext16 c)) := by
  unfold State.poll
  rcases ask_cases s with ⟨h, e⟩ | ⟨c, h, e⟩ <;> simp [e, h]

@[simp] theorem poll_input : s.poll.input = s.input.rest := by
  rcases poll_cases s with ⟨-, e⟩ | ⟨_, -, e⟩ <;> simp [e]
@[simp] theorem poll_regs : s.poll.regs = s.regs := by
  rcases poll_cases s with ⟨-, e⟩ | ⟨_, -, e⟩ <;> simp [e]
@[simp] theorem poll_pc : s.poll.pc = s.pc := by
  rcases poll_cases s with ⟨-, e⟩ | ⟨_, -, e⟩ <;> simp [e]
@[simp] theorem poll_cond : s.poll.cond = s.cond := by
  rcases poll_cases s with ⟨-, e⟩ | ⟨_, -, e⟩ <;> simp [e]
@[simp] theorem poll_run : s.poll.run = s.run := by
  rcases poll_cases s with ⟨-, e⟩ | ⟨_, -, e⟩ <;> simp [e]
@[simp] theorem poll_fault : s.poll.fault = s.fault := by
  rcases poll_cases s with ⟨-, e⟩ | ⟨_, -, e⟩ <;> simp [e]
@[simp] theorem poll_outLog : s.poll.outLog = s.outLog := by
  rcases poll_cases s with ⟨-, e⟩ | ⟨_, -, e⟩ <;> simp [e]
@[simp] theorem poll_trapLinksR7 : s.poll.trapLinksR7 = s.trapLinksR7 := by
  rcases poll_cases s with ⟨-, e⟩ | ⟨_, -, e⟩ <;> simp [e]
@[simp] theorem poll_haltNotice : s.poll.haltNotice = s.haltNotice := by
  rcases poll_cases s with ⟨-, e⟩ | ⟨_, -, e⟩ <;> simp [e]
@[simp] theorem poll_inString : s.poll.inString = s.inString := by
  rcases poll_cases s with ⟨-, e⟩ | ⟨_, -, e⟩ <;> simp [e]
@[simp] theorem poll_inPrompt : s.poll.inPrompt = s.inPrompt := by
  rcases poll_cases s with ⟨-, e⟩ | ⟨_, -, e⟩ <;> simp [e]
@[simp] theorem poll_inPrompted : s.poll.inPrompted = s.inPrompted := by
  rcases poll_cases s with ⟨-, e⟩ | ⟨_, -, e⟩ <;> simp [e]
@[simp] theorem poll_reg (q : BitVec 3) : s.poll.reg q = s.reg q := by simp [State.reg]

theorem poll_wf (h : s.mem.wf) : s.poll.mem.wf := by
  rcases poll_cases s with ⟨-, e⟩ | ⟨_, -, e⟩ <;> rw [e]
  · exact memWrite_wf _ _ _ h
  · exact memWrite_wf _ _ _ (memWrite_wf _ _ _ h)

/-- A poll writes the two keyboard registers and no other byte. -/
theorem poll_sameMemoryOffKeyboard : SameMemoryOffKeyboard s s.poll := by
  intro b h1 h2 h3 h4
  rcases poll_cases s with ⟨-, e⟩ | ⟨_, -, e⟩ <;> rw [e] <;>
    simp [readByte_writeWord_ne, h1, h2, h3, h4]

/-- A poll keeps every word but the keyboard registers. -/
theorem poll_cell_ne (a : Word) (h1 : a ≠ kbsr) (h2 : a ≠ kbdr) : s.poll.cell a = s.cell a := by
  rcases poll_cases s with ⟨-, e⟩ | ⟨_, -, e⟩ <;> rw [e] <;>
    simp [State.cell, readWord_writeWord_ne, h1, h2]

/-- What a read of KBSR returns: ready or not, never what was stored (20_memory R41). -/
theorem poll_cell_kbsr :
    s.poll.cell kbsr = 0x8000#16 ∨ s.poll.cell kbsr = 0#16 := by
  rcases poll_cases s with ⟨-, e⟩ | ⟨_, -, e⟩ <;> rw [e]
  · exact .inr (memWrite_cell_self _ _ _)
  · rw [memWrite_cell_ne _ _ _ _ (by decide)]
    exact .inl (memWrite_cell_self _ _ _)

/-- A poll is one call of the input device. -/
theorem poll_drawn : Drawn s s.poll := by
  refine ⟨1, poll_input s, ?_⟩
  rcases poll_cases s with ⟨h, e⟩ | ⟨_, h, e⟩ <;> simp [e, h, Input.keys]

@[simp] theorem afterRead_kbsr : s.afterRead kbsr = s.poll := by simp [State.afterRead]

theorem afterRead_ne (a : Word) (h : a ≠ kbsr) : s.afterRead a = s := by
  simp [State.afterRead, h]

/-- A read is a poll, or it changes nothing (20_memory R41). -/
theorem afterRead_cases (a : Word) :
    (a = kbsr ∧ s.afterRead a = s.poll) ∨ (a ≠ kbsr ∧ s.afterRead a = s) := by
  by_cases h : a = kbsr <;> simp [State.afterRead, h]

@[simp] theorem afterRead_regs (a : Word) : (s.afterRead a).regs = s.regs := by
  rcases afterRead_cases s a with ⟨-, e⟩ | ⟨-, e⟩ <;> simp [e]
@[simp] theorem afterRead_pc (a : Word) : (s.afterRead a).pc = s.pc := by
  rcases afterRead_cases s a with ⟨-, e⟩ | ⟨-, e⟩ <;> simp [e]
@[simp] theorem afterRead_cond (a : Word) : (s.afterRead a).cond = s.cond := by
  rcases afterRead_cases s a with ⟨-, e⟩ | ⟨-, e⟩ <;> simp [e]
@[simp] theorem afterRead_run (a : Word) : (s.afterRead a).run = s.run := by
  rcases afterRead_cases s a with ⟨-, e⟩ | ⟨-, e⟩ <;> simp [e]
@[simp] theorem afterRead_fault (a : Word) : (s.afterRead a).fault = s.fault := by
  rcases afterRead_cases s a with ⟨-, e⟩ | ⟨-, e⟩ <;> simp [e]
@[simp] theorem afterRead_outLog (a : Word) : (s.afterRead a).outLog = s.outLog := by
  rcases afterRead_cases s a with ⟨-, e⟩ | ⟨-, e⟩ <;> simp [e]
@[simp] theorem afterRead_trapLinksR7 (a : Word) : (s.afterRead a).trapLinksR7 = s.trapLinksR7 := by
  rcases afterRead_cases s a with ⟨-, e⟩ | ⟨-, e⟩ <;> simp [e]
@[simp] theorem afterRead_haltNotice (a : Word) : (s.afterRead a).haltNotice = s.haltNotice := by
  rcases afterRead_cases s a with ⟨-, e⟩ | ⟨-, e⟩ <;> simp [e]
@[simp] theorem afterRead_inString (a : Word) : (s.afterRead a).inString = s.inString := by
  rcases afterRead_cases s a with ⟨-, e⟩ | ⟨-, e⟩ <;> simp [e]
@[simp] theorem afterRead_inPrompt (a : Word) : (s.afterRead a).inPrompt = s.inPrompt := by
  rcases afterRead_cases s a with ⟨-, e⟩ | ⟨-, e⟩ <;> simp [e]
@[simp] theorem afterRead_inPrompted (a : Word) : (s.afterRead a).inPrompted = s.inPrompted := by
  rcases afterRead_cases s a with ⟨-, e⟩ | ⟨-, e⟩ <;> simp [e]
@[simp] theorem afterRead_reg (a : Word) (q : BitVec 3) : (s.afterRead a).reg q = s.reg q := by
  simp [State.reg]

theorem afterRead_wf (a : Word) (h : s.mem.wf) : (s.afterRead a).mem.wf := by
  rcases afterRead_cases s a with ⟨-, e⟩ | ⟨-, e⟩ <;> rw [e]
  · exact poll_wf s h
  · exact h

theorem afterRead_sameMemoryOffKeyboard (a : Word) : SameMemoryOffKeyboard s (s.afterRead a) := by
  rcases afterRead_cases s a with ⟨-, e⟩ | ⟨-, e⟩ <;> rw [e]
  · exact poll_sameMemoryOffKeyboard s
  · exact fun _ _ _ _ _ => rfl

theorem afterRead_drawn (a : Word) : Drawn s (s.afterRead a) := by
  rcases afterRead_cases s a with ⟨-, e⟩ | ⟨-, e⟩ <;> rw [e]
  · exact poll_drawn s
  · exact Drawn.refl s

@[simp] theorem memRead_fst (a : Word) : (s.memRead a).1 = (s.afterRead a).cell a := rfl
@[simp] theorem memRead_snd (a : Word) : (s.memRead a).2 = s.afterRead a := rfl

/-- A read of any address but KBSR returns the cell and has no side effect (20_memory R41). -/
theorem memRead_ne (a : Word) (h : a ≠ kbsr) : s.memRead a = (s.cell a, s) := by
  simp [State.memRead, State.afterRead, h]

/-! ## The entry of a TRAP -/

/-- A TRAP writes R7, or nothing, before its routine (43_trap R116). -/
theorem trapEnter_cases :
    (s.trapLinksR7 = true ∧ s.trapEnter = s.setReg 7#3 s.pc) ∨
    (s.trapLinksR7 = false ∧ s.trapEnter = s) := by
  cases h : s.trapLinksR7 <;> simp [State.trapEnter, h]

@[simp] theorem trapEnter_pc : s.trapEnter.pc = s.pc := by
  rcases trapEnter_cases s with ⟨-, e⟩ | ⟨-, e⟩ <;> simp [e]
@[simp] theorem trapEnter_cond : s.trapEnter.cond = s.cond := by
  rcases trapEnter_cases s with ⟨-, e⟩ | ⟨-, e⟩ <;> simp [e]
@[simp] theorem trapEnter_run : s.trapEnter.run = s.run := by
  rcases trapEnter_cases s with ⟨-, e⟩ | ⟨-, e⟩ <;> simp [e]
@[simp] theorem trapEnter_fault : s.trapEnter.fault = s.fault := by
  rcases trapEnter_cases s with ⟨-, e⟩ | ⟨-, e⟩ <;> simp [e]
@[simp] theorem trapEnter_mem : s.trapEnter.mem = s.mem := by
  rcases trapEnter_cases s with ⟨-, e⟩ | ⟨-, e⟩ <;> simp [e]
@[simp] theorem trapEnter_inPos : s.trapEnter.inPos = s.inPos := by
  rcases trapEnter_cases s with ⟨-, e⟩ | ⟨-, e⟩ <;> simp [e]
@[simp] theorem trapEnter_outLog : s.trapEnter.outLog = s.outLog := by
  rcases trapEnter_cases s with ⟨-, e⟩ | ⟨-, e⟩ <;> simp [e]
@[simp] theorem trapEnter_input : s.trapEnter.input = s.input := by
  rcases trapEnter_cases s with ⟨-, e⟩ | ⟨-, e⟩ <;> simp [e]
@[simp] theorem trapEnter_trapLinksR7 : s.trapEnter.trapLinksR7 = s.trapLinksR7 := by
  rcases trapEnter_cases s with ⟨-, e⟩ | ⟨-, e⟩ <;> simp [e]
@[simp] theorem trapEnter_haltNotice : s.trapEnter.haltNotice = s.haltNotice := by
  rcases trapEnter_cases s with ⟨-, e⟩ | ⟨-, e⟩ <;> simp [e]
@[simp] theorem trapEnter_inString : s.trapEnter.inString = s.inString := by
  rcases trapEnter_cases s with ⟨-, e⟩ | ⟨-, e⟩ <;> simp [e]
@[simp] theorem trapEnter_inPrompt : s.trapEnter.inPrompt = s.inPrompt := by
  rcases trapEnter_cases s with ⟨-, e⟩ | ⟨-, e⟩ <;> simp [e]
@[simp] theorem trapEnter_inPrompted : s.trapEnter.inPrompted = s.inPrompted := by
  rcases trapEnter_cases s with ⟨-, e⟩ | ⟨-, e⟩ <;> simp [e]
@[simp] theorem trapEnter_cell (a : Word) : s.trapEnter.cell a = s.cell a := by
  simp [State.cell]

/-- The registers after the entry of a TRAP. -/
theorem trapEnter_reg (q : BitVec 3) :
    s.trapEnter.reg q = if q = 7#3 ∧ s.trapLinksR7 = true then s.pc else s.reg q := by
  rcases trapEnter_cases s with ⟨h, e⟩ | ⟨h, e⟩ <;> simp [e, h, setReg_reg]

@[simp] theorem trapEnter_reg_zero : s.trapEnter.reg 0#3 = s.reg 0#3 := by
  simp [trapEnter_reg]

theorem trapEnter_linked : TrapLinked s s.trapEnter :=
  ⟨fun r h => by simp [trapEnter_reg, h], by simp [trapEnter_reg]⟩

/-! ## The prompt of IN -/

/-- The prompt is emitted once (43_trap R126). -/
theorem prompt_cases :
    (s.inPrompted = true ∧ s.prompt = s) ∨
    (s.inPrompted = false ∧ s.prompt = { s.outAll s.inPrompt with inPrompted := true }) := by
  cases h : s.inPrompted <;> simp [State.prompt, h]

@[simp] theorem prompt_inPrompted : s.prompt.inPrompted = true := by
  rcases prompt_cases s with ⟨h, e⟩ | ⟨h, e⟩ <;> simp [e, h]
@[simp] theorem prompt_regs : s.prompt.regs = s.regs := by
  rcases prompt_cases s with ⟨-, e⟩ | ⟨-, e⟩ <;> simp [e]
@[simp] theorem prompt_pc : s.prompt.pc = s.pc := by
  rcases prompt_cases s with ⟨-, e⟩ | ⟨-, e⟩ <;> simp [e]
@[simp] theorem prompt_cond : s.prompt.cond = s.cond := by
  rcases prompt_cases s with ⟨-, e⟩ | ⟨-, e⟩ <;> simp [e]
@[simp] theorem prompt_run : s.prompt.run = s.run := by
  rcases prompt_cases s with ⟨-, e⟩ | ⟨-, e⟩ <;> simp [e]
@[simp] theorem prompt_fault : s.prompt.fault = s.fault := by
  rcases prompt_cases s with ⟨-, e⟩ | ⟨-, e⟩ <;> simp [e]
@[simp] theorem prompt_mem : s.prompt.mem = s.mem := by
  rcases prompt_cases s with ⟨-, e⟩ | ⟨-, e⟩ <;> simp [e]
@[simp] theorem prompt_inPos : s.prompt.inPos = s.inPos := by
  rcases prompt_cases s with ⟨-, e⟩ | ⟨-, e⟩ <;> simp [e]
@[simp] theorem prompt_input : s.prompt.input = s.input := by
  rcases prompt_cases s with ⟨-, e⟩ | ⟨-, e⟩ <;> simp [e]
@[simp] theorem prompt_trapLinksR7 : s.prompt.trapLinksR7 = s.trapLinksR7 := by
  rcases prompt_cases s with ⟨-, e⟩ | ⟨-, e⟩ <;> simp [e]
@[simp] theorem prompt_haltNotice : s.prompt.haltNotice = s.haltNotice := by
  rcases prompt_cases s with ⟨-, e⟩ | ⟨-, e⟩ <;> simp [e]
@[simp] theorem prompt_inString : s.prompt.inString = s.inString := by
  rcases prompt_cases s with ⟨-, e⟩ | ⟨-, e⟩ <;> simp [e]
@[simp] theorem prompt_inPrompt : s.prompt.inPrompt = s.inPrompt := by
  rcases prompt_cases s with ⟨-, e⟩ | ⟨-, e⟩ <;> simp [e]
@[simp] theorem prompt_reg (q : BitVec 3) : s.prompt.reg q = s.reg q := by simp [State.reg]
@[simp] theorem prompt_cell (a : Word) : s.prompt.cell a = s.cell a := by simp [State.cell]

theorem prompt_outLog :
    s.prompt.outLog =
      s.outLog ++ (if s.inPrompted then [] else s.inPrompt.map OutEvent.byte) := by
  rcases prompt_cases s with ⟨h, e⟩ | ⟨h, e⟩ <;> simp [e, h]

/-! ## The fetch -/

@[simp] theorem fetch_fst : s.fetch.1 = (s.afterRead s.pc).cell s.pc := rfl
@[simp] theorem fetch_snd : s.fetch.2 = (s.afterRead s.pc).setPc (s.pc + 1#16) := rfl

end Sys2Proof.Machine
end

