-- ==== Sys2Proof/Laws/PerInstr.lean ====
section
/-! SUPPORT. A statement about every instruction, proved one constructor at a time: the word of an
instruction holds its opcode's number in bits [15:12] (30_encoding R60, R66). -/

namespace Sys2Proof.Laws.EncodedOpcode

/-- The word of `i` holds the number of `i`'s opcode in bits [15:12]. -/
def Statement (i : Instr) : Prop := fieldOpcode (encode i) = i.opcode.number

theorem addReg (dr sr1 sr2 : Reg) : Statement (.addReg dr sr1 sr2) :=
  (fields_encodeRRR _ _ _ _).1

theorem addImm (dr sr1 : Reg) (imm5 : BitVec 5) : Statement (.addImm dr sr1 imm5) :=
  (fields_encodeRRI _ _ _ _).1

theorem andReg (dr sr1 sr2 : Reg) : Statement (.andReg dr sr1 sr2) :=
  (fields_encodeRRR _ _ _ _).1

theorem andImm (dr sr1 : Reg) (imm5 : BitVec 5) : Statement (.andImm dr sr1 imm5) :=
  (fields_encodeRRI _ _ _ _).1

theorem not (dr sr : Reg) : Statement (.not dr sr) :=
  (fields_encode_not _ _).1

theorem br (cond : CondMask) (offset9 : BitVec 9) : Statement (.br cond offset9) :=
  (fields_encodeRO _ _ _).1

theorem jmp (baseR : Reg) : Statement (.jmp baseR) :=
  (fields_encode_jmp _).1

theorem jsr (offset11 : BitVec 11) : Statement (.jsr offset11) :=
  (fields_encode_jsr _).1

theorem jsrr (baseR : Reg) : Statement (.jsrr baseR) :=
  (fields_encode_jsrr _).1

theorem ld (dr : Reg) (offset9 : BitVec 9) : Statement (.ld dr offset9) :=
  (fields_encodeRO _ _ _).1

theorem ldi (dr : Reg) (offset9 : BitVec 9) : Statement (.ldi dr offset9) :=
  (fields_encodeRO _ _ _).1

theorem ldr (dr baseR : Reg) (offset6 : BitVec 6) : Statement (.ldr dr baseR offset6) :=
  (fields_encodeRBO _ _ _ _).1

theorem lea (dr : Reg) (offset9 : BitVec 9) : Statement (.lea dr offset9) :=
  (fields_encodeRO _ _ _).1

theorem st (sr : Reg) (offset9 : BitVec 9) : Statement (.st sr offset9) :=
  (fields_encodeRO _ _ _).1

theorem sti (sr : Reg) (offset9 : BitVec 9) : Statement (.sti sr offset9) :=
  (fields_encodeRO _ _ _).1

theorem str (sr baseR : Reg) (offset6 : BitVec 6) : Statement (.str sr baseR offset6) :=
  (fields_encodeRBO _ _ _ _).1

theorem trapGetc : Statement .trapGetc :=
  (fields_encodeTV _ _).1

theorem trapOut : Statement .trapOut :=
  (fields_encodeTV _ _).1

theorem trapPuts : Statement .trapPuts :=
  (fields_encodeTV _ _).1

theorem trapIn : Statement .trapIn :=
  (fields_encodeTV _ _).1

theorem trapPutsp : Statement .trapPutsp :=
  (fields_encodeTV _ _).1

theorem trapHalt : Statement .trapHalt :=
  (fields_encodeTV _ _).1

theorem trapUndef00 (ign : BitVec 4) (vector : BitVec 8) : Statement (.trapUndef00 ign vector) :=
  (fields_encodeTV _ _).1

theorem trapUndef26 (ign : BitVec 4) (vector : BitVec 8) : Statement (.trapUndef26 ign vector) :=
  (fields_encodeTV _ _).1

theorem trapUndef28 (ign : BitVec 4) (vector : BitVec 8) : Statement (.trapUndef28 ign vector) :=
  (fields_encodeTV _ _).1

theorem trapUndef30 (ign : BitVec 4) (vector : BitVec 8) : Statement (.trapUndef30 ign vector) :=
  (fields_encodeTV _ _).1

theorem trapUndef40 (ign : BitVec 4) (vector : BitVec 8) : Statement (.trapUndef40 ign vector) :=
  (fields_encodeTV _ _).1

theorem trapUndef80 (ign : BitVec 4) (vector : BitVec 8) : Statement (.trapUndef80 ign vector) :=
  (fields_encodeTV _ _).1

theorem rti (ign : BitVec 12) : Statement (.rti ign) :=
  (fields_encode_rti _).1

theorem res (ign : BitVec 12) : Statement (.res ign) :=
  (fields_encode_res _).1

end Sys2Proof.Laws.EncodedOpcode
end

