-- ==== Sys2Proof/Laws/Run.lean ====
section
/-! SUPPORT. Steps and runs: what a step is in each run state, and the induction over the steps of a run, once. -/

namespace Sys2Proof.Machine

variable (s : State)

/-- A step of a running machine that is in no string routine (70_reset R160). -/
theorem step_running (h : s.run = .running) (hs : s.inString = none) :
    step s = exec (decodeWord s.fetch.1) s.fetch.2 := by
  simp only [step, h, hs]

/-- A step of a running machine inside a string routine (60_exceptions R147(b)). -/
theorem step_string (h : s.run = .running) {r : StringRoutine} {a : Word}
    (hs : s.inString = some (r, a)) : step s = .next (s.stringPart r a) := by
  simp only [step, h, hs]

/-- A step of a running machine whose fetch does not poll. -/
theorem step_plain (h : s.run = .running) (hs : s.inString = none) (hp : s.pc ≠ kbsr) :
    step s = exec (decodeWord (s.cell s.pc)) (s.setPc (s.pc + 1#16)) := by
  rw [step_running s h hs, State.fetch, memRead_ne s _ hp]

/-- A step after the end of the run. -/
theorem step_ended (h : s.run ≠ .running) : step s = .next s := by
  unfold step
  cases e : s.run <;> simp_all

theorem run_zero : Host.Core.run Sys2Proof.core 0 s = .next s := rfl

/-- The first step of a run. -/
theorem run_succ (n : Nat) {t : State} (h : step s = .next t) :
    Host.Core.run Sys2Proof.core (n + 1) s = Host.Core.run Sys2Proof.core n t := by
  have e : Sys2Proof.core.step s = .next t := h
  simp only [Host.Core.run, e]

/-- A run that ends in a next state after at least one step began with a step to a next state. -/
theorem run_succ_inv (n : Nat) {t : State}
    (h : Host.Core.run Sys2Proof.core (n + 1) s = .next t) :
    ∃ u, step s = .next u ∧ Host.Core.run Sys2Proof.core n u = .next t := by
  have e : Sys2Proof.core.step s = step s := rfl
  cases hs : step s with
  | next u => exact ⟨u, rfl, by rw [← run_succ s n hs, h]⟩
  | fault r => simp only [Host.Core.run, e, hs] at h; cases h
  | refused r => simp only [Host.Core.run, e, hs] at h; cases h

/-- A relation that holds of every step, and is reflexive and transitive, holds of every run. -/
theorem run_induction {R : State → State → Prop} (refl : ∀ s, R s s)
    (trans : ∀ s t u, R s t → R t u → R s u) (hstep : ∀ s t, step s = .next t → R s t) (n : Nat) :
    ∀ s t, Host.Core.run Sys2Proof.core n s = .next t → R s t := by
  induction n with
  | zero =>
    intro s t h
    obtain rfl : s = t := by injection h
    exact refl s
  | succ n ih =>
    intro s t h
    obtain ⟨u, hu, ht⟩ := run_succ_inv s n h
    exact trans s u t (hstep s u hu) (ih u t ht)

/-- A state whose step answers itself stays for any number of steps. -/
theorem run_fixed (h : step s = .next s) (n : Nat) :
    Host.Core.run Sys2Proof.core n s = .next s := by
  induction n with
  | zero => rfl
  | succ n ih => rw [run_succ s n h, ih]

end Sys2Proof.Machine
end

