-- ==== Sys2Proof/Laws/Strings.lean ====
section
/-! SUPPORT. The loops of PUTS and PUTSP: what they can do, and what they leave alone. -/

namespace Sys2Proof.Machine

/-- One read of the loop of PUTS. -/
theorem putsLoop_succ (n : Nat) (a : Word) (s : State) :
    putsLoop (n + 1) a s =
      if (s.afterRead a).cell a = 0#16 then (none, s.afterRead a)
      else putsLoop n (a + 1#16) ((s.afterRead a).out (lowHalf ((s.afterRead a).cell a))) := rfl

/-- One read of the loop of PUTSP. -/
theorem putspLoop_succ (n : Nat) (a : Word) (s : State) :
    putspLoop (n + 1) a s =
      if (s.afterRead a).cell a = 0#16 then (none, s.afterRead a)
      else if highHalf ((s.afterRead a).cell a) = 0#8 then
        (none, (s.afterRead a).out (lowHalf ((s.afterRead a).cell a)))
      else putspLoop n (a + 1#16)
        (((s.afterRead a).out (lowHalf ((s.afterRead a).cell a))).out
          (highHalf ((s.afterRead a).cell a))) := rfl

/-- All that `putsLoop` can answer: the end of the spec's loop, or a part of it. -/
theorem putsLoop_run (fuel : Nat) (a : Word) (s t : State) :
    (putsLoop fuel a s = (none, t) → PutsRun a s t) ∧
    ∀ b, putsLoop fuel a s = (some b, t) → PutsPart a s b t := by
  induction fuel generalizing a s with
  | zero =>
    refine ⟨fun h => by simp [putsLoop] at h, fun b h => ?_⟩
    simp only [putsLoop, Prod.mk.injEq, Option.some.injEq] at h
    obtain ⟨rfl, rfl⟩ := h
    exact .here a s
  | succ n ih =>
    rw [putsLoop_succ]
    by_cases hz : (s.afterRead a).cell a = 0#16
    · rw [if_pos hz]
      refine ⟨fun h => ?_, fun b h => by simp at h⟩
      obtain rfl := (Prod.mk.inj h).2
      exact .stop a s hz
    · rw [if_neg hz]
      exact ⟨fun h => .char a s t hz ((ih _ _).1 h), fun b h => .char a s b t hz ((ih _ _).2 b h)⟩

/-- What `putspLoop` answers, where the string ends, is a run of the spec's loop. -/
theorem putspLoop_run (fuel : Nat) (a : Word) (s t : State) (h : putspLoop fuel a s = (none, t)) :
    PutspRun a s t := by
  induction fuel generalizing a s with
  | zero => simp [putspLoop] at h
  | succ n ih =>
    rw [putspLoop_succ] at h
    by_cases hz : (s.afterRead a).cell a = 0#16
    · rw [if_pos hz] at h
      obtain rfl := (Prod.mk.inj h).2
      exact .stop a s hz
    · rw [if_neg hz] at h
      by_cases hy : highHalf ((s.afterRead a).cell a) = 0#8
      · rw [if_pos hy] at h
        obtain rfl := (Prod.mk.inj h).2
        exact .last a s hz hy
      · rw [if_neg hy] at h
        exact .pair a s t hz hy (ih _ _ h)

/-- A relation that every read and every output keeps, and that is reflexive and transitive, holds between the
ends of a run of the loop of PUTS. -/
theorem PutsRun_induction {R : State → State → Prop}
    (trans : ∀ s t u, R s t → R t u → R s u) (read : ∀ s a, R s (s.afterRead a))
    (out : ∀ s b, R s (s.out b)) (a : Word) (s t : State) (h : PutsRun a s t) : R s t := by
  induction h with
  | stop a s _ => exact read s a
  | char a s t _ _ ih => exact trans _ _ _ (trans _ _ _ (read s a) (out _ _)) ih

/-- The same for the loop of PUTSP. -/
theorem PutspRun_induction {R : State → State → Prop}
    (trans : ∀ s t u, R s t → R t u → R s u) (read : ∀ s a, R s (s.afterRead a))
    (out : ∀ s b, R s (s.out b)) (a : Word) (s t : State) (h : PutspRun a s t) : R s t := by
  induction h with
  | stop a s _ => exact read s a
  | last a s _ _ => exact trans _ _ _ (read s a) (out _ _)
  | pair a s t _ _ _ ih =>
    exact trans _ _ _ (trans _ _ _ (trans _ _ _ (read s a) (out _ _)) (out _ _)) ih

/-- The same for a part of the loop of PUTS. -/
theorem PutsPart_induction {R : State → State → Prop} (refl : ∀ s, R s s)
    (trans : ∀ s t u, R s t → R t u → R s u) (read : ∀ s a, R s (s.afterRead a))
    (out : ∀ s b, R s (s.out b)) (a : Word) (s : State) (b : Word) (t : State)
    (h : PutsPart a s b t) : R s t := by
  induction h with
  | here a s => exact refl s
  | char a s b t _ _ ih => exact trans _ _ _ (trans _ _ _ (read s a) (out _ _)) ih

/-- The same for `putspLoop`, wherever it stops. -/
theorem putspLoop_induction {R : State → State → Prop} (refl : ∀ s, R s s)
    (trans : ∀ s t u, R s t → R t u → R s u) (read : ∀ s a, R s (s.afterRead a))
    (out : ∀ s b, R s (s.out b)) (fuel : Nat) (a : Word) (s : State) :
    R s (putspLoop fuel a s).2 := by
  induction fuel generalizing a s with
  | zero => exact refl s
  | succ n ih =>
    rw [putspLoop_succ]
    by_cases hz : (s.afterRead a).cell a = 0#16
    · rw [if_pos hz]; exact read s a
    · rw [if_neg hz]
      by_cases hy : highHalf ((s.afterRead a).cell a) = 0#8
      · rw [if_pos hy]; exact trans _ _ _ (read s a) (out _ _)
      · rw [if_neg hy]
        exact trans _ _ _ (trans _ _ _ (trans _ _ _ (read s a) (out _ _)) (out _ _)) (ih _ _)

/-- The same for `putsLoop`, wherever it stops. -/
theorem putsLoop_induction {R : State → State → Prop} (refl : ∀ s, R s s)
    (trans : ∀ s t u, R s t → R t u → R s u) (read : ∀ s a, R s (s.afterRead a))
    (out : ∀ s b, R s (s.out b)) (fuel : Nat) (a : Word) (s : State) :
    R s (putsLoop fuel a s).2 := by
  induction fuel generalizing a s with
  | zero => exact refl s
  | succ n ih =>
    rw [putsLoop_succ]
    by_cases hz : (s.afterRead a).cell a = 0#16
    · rw [if_pos hz]; exact read s a
    · rw [if_neg hz]; exact trans _ _ _ (trans _ _ _ (read s a) (out _ _)) (ih _ _)

/-- All that a step's share of a string routine can do: its loop ends, or the machine stays in it. -/
theorem stringPart_cases (s : State) (r : StringRoutine) (a : Word) :
    (∃ u, r.loop (stringFuel s.input) a s = (none, u) ∧ s.stringPart r a = u.endString) ∨
    (∃ b u, r.loop (stringFuel s.input) a s = (some b, u) ∧
      s.stringPart r a = u.stayInString r b) := by
  unfold State.stringPart
  rcases r.loop (stringFuel s.input) a s with ⟨_ | b, u⟩ <;> simp

/-- What a step's share of a string routine keeps: all that reads, outputs, and the two ways to leave the loop
keep. -/
theorem stringPart_induction {R : State → State → Prop} (refl : ∀ s, R s s)
    (trans : ∀ s t u, R s t → R t u → R s u) (read : ∀ s a, R s (s.afterRead a))
    (out : ∀ s b, R s (s.out b)) (stop : ∀ s : State, R s s.endString)
    (stay : ∀ s r b, R s (State.stayInString s r b)) (s : State) (r : StringRoutine) (a : Word) :
    R s (s.stringPart r a) := by
  have h : R s (r.loop (stringFuel s.input) a s).2 := by
    cases r
    · exact putsLoop_induction refl trans read out _ _ _
    · exact putspLoop_induction refl trans read out _ _ _
  rcases stringPart_cases s r a with ⟨u, e, e'⟩ | ⟨b, u, e, e'⟩ <;> rw [e] at h <;> rw [e']
  · exact trans _ _ _ h (stop u)
  · exact trans _ _ _ h (stay u r b)

end Sys2Proof.Machine
end

