-- ==== Sys2Proof/Tests/Slice0.lean ====
section
/-! SUPPORT. Tests on fixed values and, for every statement with hypotheses, a state that meets them. Expected
results come from spec/95_test_vectors.md (part and row named) or are worked out by hand from a rule. -/

open Sys2Proof Sys2Proof.Machine

namespace Sys2Proof.Tests

/-! ## Helpers -/

/-- The general registers that Part 3 of the test vectors uses. -/
def someRegs : Vector Word 8 :=
  #v[0x1111#16, 0x2222#16, 0x3333#16, 0x4444#16, 0x5555#16, 0x6666#16, 0x7777#16, 0x8888#16]

/-- A machine about to fetch at an address, with the words listed in memory. -/
def boot (start : Word) (cond : BitVec 3) (regs : Vector Word 8) (words : List (Word × Word))
    (input : List InputAnswer := []) (links : Bool := false)
    (later : LaterAnswers := .always .idle) : State :=
  { State.launch
      { memInit := words.foldl (fun m p => Memory.writeWord m p.1 p.2) []
        regInit := regs
        condInit := cond
        input := ⟨input, later⟩
        trapLinksR7 := links
        haltNotice := [0x21#8]
        inPrompt := [0x3F#8] } with pc := start }

/-- What a step from `s` leaves, where it answers a next state. -/
def after {α : Type} (s : State) (f : State → α) : Option α :=
  match step s with
  | .next t => some (f t)
  | .fault _ => none
  | .refused _ => none

/-- `exec` answers a next state. -/
def completes (i : Instr) (s : State) : Bool :=
  match exec i s with
  | .next _ => true
  | .fault _ => false
  | .refused _ => false

/-- A machine about to fetch 0x3000 with the given registers changed. -/
def at3000 (word : Word) (cond : BitVec 3) (changed : List (Fin 8 × Word))
    (words : List (Word × Word) := []) (input : List InputAnswer := []) (links : Bool := false)
    (later : LaterAnswers := .always .idle) : State :=
  boot 0x3000#16 cond (changed.foldl (fun v p => v.set p.1 p.2) someRegs)
    ((0x3000#16, word) :: words) input links later

/-! ## WellFormed refuses an ill-formed term of each check -/

theorem test_wf_undef00_refuses_20 : (Instr.trapUndef00 0#4 0x20#8).wellFormed = false := by decide
theorem test_wf_undef26_refuses_25 : (Instr.trapUndef26 0#4 0x25#8).wellFormed = false := by decide
theorem test_wf_undef26_refuses_28 : (Instr.trapUndef26 0#4 0x28#8).wellFormed = false := by decide
theorem test_wf_undef28_refuses_27 : (Instr.trapUndef28 0#4 0x27#8).wellFormed = false := by decide
theorem test_wf_undef28_refuses_30 : (Instr.trapUndef28 0#4 0x30#8).wellFormed = false := by decide
theorem test_wf_undef30_refuses_2F : (Instr.trapUndef30 0#4 0x2F#8).wellFormed = false := by decide
theorem test_wf_undef30_refuses_40 : (Instr.trapUndef30 0#4 0x40#8).wellFormed = false := by decide
theorem test_wf_undef40_refuses_3F : (Instr.trapUndef40 0#4 0x3F#8).wellFormed = false := by decide
theorem test_wf_undef40_refuses_80 : (Instr.trapUndef40 0#4 0x80#8).wellFormed = false := by decide
theorem test_wf_undef80_refuses_7F : (Instr.trapUndef80 0#4 0x7F#8).wellFormed = false := by decide

/-! ## Decoding: for every constructor a word written out from its format (30_encoding R61, R66, R67) -/

theorem test_decode_addReg : decodeWord 0b0001_010_011_000_100#16 = .addReg 2#3 3#3 4#3 := by decide
theorem test_decode_addReg_ignored :
    decodeWord 0b0001_010_011_011_100#16 = .addReg 2#3 3#3 4#3 := by decide
theorem test_decode_addImm : decodeWord 0b0001_101_110_1_10000#16 = .addImm 5#3 6#3 16#5 := by decide
theorem test_decode_andReg : decodeWord 0b0101_010_011_000_100#16 = .andReg 2#3 3#3 4#3 := by decide
theorem test_decode_andImm : decodeWord 0b0101_001_010_1_01111#16 = .andImm 1#3 2#3 15#5 := by decide
theorem test_decode_not : decodeWord 0b1001_011_010_111111#16 = .not 3#3 2#3 := by decide
theorem test_decode_not_ignored : decodeWord 0b1001_000_001_000000#16 = .not 0#3 1#3 := by decide
theorem test_decode_br : decodeWord 0b0000_101_000000011#16 = .br 0b101#3 3#9 := by decide
theorem test_decode_jmp : decodeWord 0b1100_000_011_000000#16 = .jmp 3#3 := by decide
theorem test_decode_jmp_ignored : decodeWord 0b1100_111_011_111111#16 = .jmp 3#3 := by decide
theorem test_decode_jsr : decodeWord 0b0100_1_10000000000#16 = .jsr 1024#11 := by decide
theorem test_decode_jsrr : decodeWord 0b0100_0_00_010_000000#16 = .jsrr 2#3 := by decide
theorem test_decode_jsrr_ignored : decodeWord 0b0100_0_11_010_111111#16 = .jsrr 2#3 := by decide
theorem test_decode_ld : decodeWord 0b0010_010_000000101#16 = .ld 2#3 5#9 := by decide
theorem test_decode_ldi : decodeWord 0b1010_011_000010000#16 = .ldi 3#3 16#9 := by decide
theorem test_decode_ldr : decodeWord 0b0110_001_010_111111#16 = .ldr 1#3 2#3 63#6 := by decide
theorem test_decode_lea : decodeWord 0b1110_100_100000000#16 = .lea 4#3 256#9 := by decide
theorem test_decode_st : decodeWord 0b0011_010_111111111#16 = .st 2#3 511#9 := by decide
theorem test_decode_sti : decodeWord 0b1011_011_000010000#16 = .sti 3#3 16#9 := by decide
theorem test_decode_str : decodeWord 0b0111_001_010_100000#16 = .str 1#3 2#3 32#6 := by decide
theorem test_decode_trapGetc : decodeWord 0b1111_0000_00100000#16 = .trapGetc := by decide
theorem test_decode_trapOut : decodeWord 0b1111_0000_00100001#16 = .trapOut := by decide
theorem test_decode_trapPuts : decodeWord 0b1111_0000_00100010#16 = .trapPuts := by decide
theorem test_decode_trapIn : decodeWord 0b1111_0000_00100011#16 = .trapIn := by decide
theorem test_decode_trapPutsp : decodeWord 0b1111_0000_00100100#16 = .trapPutsp := by decide
theorem test_decode_trapHalt : decodeWord 0b1111_0000_00100101#16 = .trapHalt := by decide
theorem test_decode_trapHalt_ignored : decodeWord 0b1111_1111_00100101#16 = .trapHalt := by decide
theorem test_decode_trapUndef00 :
    decodeWord 0b1111_0000_00011111#16 = .trapUndef00 0#4 0x1F#8 := by decide
theorem test_decode_trapUndef26 :
    decodeWord 0b1111_1010_00100110#16 = .trapUndef26 10#4 0x26#8 := by decide
theorem test_decode_trapUndef28 :
    decodeWord 0b1111_0000_00101111#16 = .trapUndef28 0#4 0x2F#8 := by decide
theorem test_decode_trapUndef30 :
    decodeWord 0b1111_0001_00110000#16 = .trapUndef30 1#4 0x30#8 := by decide
theorem test_decode_trapUndef40 :
    decodeWord 0b1111_0000_01111111#16 = .trapUndef40 0#4 0x7F#8 := by decide
theorem test_decode_trapUndef80 :
    decodeWord 0b1111_1000_11111111#16 = .trapUndef80 8#4 0xFF#8 := by decide
theorem test_decode_rti : decodeWord 0b1000_101010111100#16 = .rti 0xABC#12 := by decide
theorem test_decode_res : decodeWord 0b1101_000100100011#16 = .res 0x123#12 := by decide

/-- The ends of the undefined ranges, and the words between them (30_encoding R69(c)). -/
theorem test_decode_undefined_ends :
    decodeWord 0xF000#16 = .trapUndef00 0#4 0x00#8 ∧ decodeWord 0xF027#16 = .trapUndef26 0#4 0x27#8 ∧
    decodeWord 0xF028#16 = .trapUndef28 0#4 0x28#8 ∧ decodeWord 0xF03F#16 = .trapUndef30 0#4 0x3F#8 ∧
    decodeWord 0xF040#16 = .trapUndef40 0#4 0x40#8 ∧ decodeWord 0xF080#16 = .trapUndef80 0#4 0x80#8 := by
  decide

/-- Canonical words of the assembler (30_encoding R73). -/
theorem test_encode_canonical :
    encode (.not 3#3 2#3) = 0x96BF#16 ∧ encode (.jmp 7#3) = 0xC1C0#16 ∧
    encode (.jsrr 2#3) = 0x4080#16 ∧ encode (.addReg 2#3 3#3 4#3) = 0x14C4#16 ∧
    encode .trapHalt = 0xF025#16 := by decide

/-- Fewer than two bytes are no instruction word. -/
theorem test_decode_truncated :
    decode [] = .error .truncated ∧ decode [0xF0#8] = .error .truncated := by
  exact ⟨rfl, rfl⟩

/-- The host's numbering of the bits of a row is that of the word. -/
theorem test_decodeTableWord : decodeTableWord 16 0x14C4 = some (.addReg 2#3 3#3 4#3) := by decide

/-! ## Operands (Part 1, S1) -/

theorem test_sext_imm5 : sext16 0x10#5 = 0xFFF0#16 ∧ sext16 0x0F#5 = 0x000F#16 := by decide
theorem test_sext_offset6 : sext16 0x20#6 = 0xFFE0#16 ∧ sext16 0x1F#6 = 0x001F#16 := by decide
theorem test_sext_offset9 : sext16 0x100#9 = 0xFF00#16 ∧ sext16 0x0FF#9 = 0x00FF#16 := by decide
theorem test_sext_offset11 : sext16 0x400#11 = 0xFC00#16 ∧ sext16 0x3FF#11 = 0x03FF#16 := by decide
theorem test_sext_ends :
    sext16 1#1 = 0xFFFF#16 ∧ sext16 0#1 = 0#16 ∧ sext16 0x8000#16 = 0x8000#16 := by decide

/-- The sign rule (Part 1, S5). -/
theorem test_signFlag :
    signFlag 0x0000#16 = 0b010#3 ∧ signFlag 0x0001#16 = 0b001#3 ∧ signFlag 0x7FFF#16 = 0b001#3 ∧
    signFlag 0x8000#16 = 0b100#3 ∧ signFlag 0xFFFF#16 = 0b100#3 := by decide

/-! ## Operate instructions (Part 2.1) -/

theorem test_addReg_overflow_is_negative :
    after (at3000 0x14C4#16 0#3 [(3, 0x7FFF#16), (4, 1#16)]) (fun t => (t.reg 2#3, t.cond, t.pc)) =
      some (0x8000#16, 0b100#3, 0x3001#16) := by decide
theorem test_addReg_source_is_destination :
    after (at3000 0x1241#16 0#3 [(1, 0x8000#16)]) (fun t => (t.reg 1#3, t.cond, t.pc)) =
      some (0x0000#16, 0b010#3, 0x3001#16) := by decide
theorem test_addImm_minus_one :
    after (at3000 0x127F#16 0#3 [(1, 0#16)]) (fun t => (t.reg 1#3, t.cond, t.pc)) =
      some (0xFFFF#16, 0b100#3, 0x3001#16) := by decide
theorem test_addImm_three :
    after (at3000 0x1023#16 0#3 [(0, 5#16)]) (fun t => (t.reg 0#3, t.cond, t.pc)) =
      some (0x0008#16, 0b001#3, 0x3001#16) := by decide
theorem test_andReg :
    after (at3000 0x54C4#16 0#3 [(3, 0xF0F0#16), (4, 0xFF00#16)]) (fun t => (t.reg 2#3, t.cond)) =
      some (0xF000#16, 0b100#3) := by decide
theorem test_andImm_sign_extends :
    after (at3000 0x52B0#16 0#3 [(2, 0xABCD#16)]) (fun t => (t.reg 1#3, t.cond)) =
      some (0xABC0#16, 0b100#3) := by decide
theorem test_andImm_zero :
    after (at3000 0x5920#16 0#3 [(4, 0xBEEF#16)]) (fun t => (t.reg 4#3, t.cond)) =
      some (0x0000#16, 0b010#3) := by decide
theorem test_not_leaves_flags :
    after (at3000 0x96BF#16 0b010#3 [(2, 0x1234#16)]) (fun t => (t.reg 3#3, t.cond)) =
      some (0xEDCB#16, 0b010#3) := by decide
theorem test_not_zero_result_leaves_flags :
    after (at3000 0x903F#16 0b100#3 [(0, 0xFFFF#16)]) (fun t => (t.reg 0#3, t.cond)) =
      some (0x0000#16, 0b100#3) := by decide

/-! ## Control transfer (Part 2.2) -/

theorem test_br_taken_backwards :
    after (boot 0x3001#16 0b001#3 someRegs [(0x3001#16, 0x07FE#16)]) (·.pc) = some 0x3000#16 := by
  decide
theorem test_br_not_taken :
    after (at3000 0x0605#16 0b100#3 []) (·.pc) = some 0x3001#16 := by decide
theorem test_jmp_ignored_bits :
    after (at3000 0xCEFF#16 0b001#3 [(3, 0x5000#16)]) (·.pc) = some 0x5000#16 := by decide
theorem test_jsr_leaves_r7 :
    after (at3000 0x4C00#16 0b001#3 []) (fun t => (t.pc, t.reg 7#3)) =
      some (0x2C01#16, 0x8888#16) := by decide
theorem test_jsrr_leaves_r7 :
    after (at3000 0x4080#16 0b001#3 [(2, 0x4321#16)]) (fun t => (t.pc, t.reg 7#3)) =
      some (0x4321#16, 0x8888#16) := by decide

/-! ## Loads, LEA and stores (Part 2.3) -/

theorem test_ld_leaves_flags :
    after (at3000 0x2405#16 0b010#3 [] [(0x3006#16, 0x8001#16)]) (fun t => (t.reg 2#3, t.cond)) =
      some (0x8001#16, 0b010#3) := by decide
theorem test_ld_own_word :
    after (at3000 0x25FF#16 0b010#3 []) (fun t => (t.reg 2#3, t.cond)) =
      some (0x25FF#16, 0b010#3) := by decide
theorem test_ldi_sets_flags :
    after (at3000 0xA610#16 0#3 [] [(0x3011#16, 0x4000#16), (0x4000#16, 0x002A#16)])
      (fun t => (t.reg 3#3, t.cond)) = some (0x002A#16, 0b001#3) := by decide
/-- K1 of Part 2.4. -/
theorem test_ldi_polls_keyboard :
    after (at3000 0xA004#16 0#3 [] [(0x3005#16, 0xFE00#16)] [.key 0x41#8])
      (fun t => (t.reg 0#3, t.cond, t.cell 0xFE00#16, t.cell 0xFE02#16, t.inPos)) =
      some (0x8000#16, 0b100#3, 0x8000#16, 0x0041#16, 1) := by decide
theorem test_ldr_address_wraps :
    after (at3000 0x629F#16 0b001#3 [(2, 0xFFF0#16)] [(0x000F#16, 0x00AA#16)])
      (fun t => (t.reg 1#3, t.cond)) = some (0x00AA#16, 0b001#3) := by decide
/-- K4 of Part 2.4. -/
theorem test_ldr_kbdr_does_not_poll :
    after (at3000 0x6042#16 0b001#3 [(1, 0xFE00#16)] [(0xFE02#16, 0x0077#16)] [.key 0x41#8])
      (fun t => (t.reg 0#3, t.inPos, t.input.listed)) = some (0x0077#16, 0, [.key 0x41#8]) := by decide
theorem test_lea_uses_incremented_pc :
    after (boot 0x2FFF#16 0#3 someRegs [(0x2FFF#16, 0xE802#16)])
      (fun t => (t.reg 4#3, t.cond, t.pc)) = some (0x3002#16, 0b001#3, 0x3000#16) := by decide
theorem test_lea_negative_address :
    after (boot 0x8000#16 0#3 someRegs [(0x8000#16, 0xE1FF#16)]) (fun t => (t.reg 0#3, t.cond)) =
      some (0x8000#16, 0b100#3) := by decide
theorem test_st :
    after (at3000 0x3405#16 0b010#3 [(2, 0xBEEF#16)]) (fun t => (t.mem, t.cond)) =
      some ([(0x6000, 0x34#8), (0x6001, 0x05#8), (0x600C, 0xBE#8), (0x600D, 0xEF#8)], 0b010#3) := by
  decide
theorem test_st_zero_unlists_the_word :
    after (at3000 0x35FF#16 0b010#3 [(2, 0#16)]) (·.mem) = some [] := by decide
theorem test_sti :
    after (at3000 0xB610#16 0b010#3 [(3, 0x1234#16)] [(0x3011#16, 0x4000#16)])
      (fun t => (t.cell 0x4000#16, t.cell 0x3011#16)) = some (0x1234#16, 0x4000#16) := by decide
/-- K9 of Part 2.4. -/
theorem test_sti_pointer_read_polls :
    after (boot 0xFDFF#16 0#3 (someRegs.set 3 0x5555#16) [(0xFDFF#16, 0xB600#16)] [.key 0x41#8])
      (fun t => (t.cell 0x8000#16, t.inPos)) = some (0x5555#16, 1) := by decide
theorem test_str_address_wraps :
    after (at3000 0x7281#16 0b010#3 [(1, 0xCAFE#16), (2, 0xFFFF#16)]) (fun t => t.cell 0#16) =
      some 0xCAFE#16 := by decide
theorem test_str_source_is_base :
    after (at3000 0x7480#16 0b010#3 [(2, 0x4020#16)]) (fun t => t.cell 0x4020#16) =
      some 0x4020#16 := by decide

/-! ## TRAP (Part 2.5) -/

theorem test_getc :
    after (at3000 0xF020#16 0b100#3 [(0, 0xFFFF#16)] [] [.key 0x41#8, .key 0x7A#8])
      (fun t => (t.reg 0#3, t.cond, t.input.listed, t.outLog, t.pc)) =
      some (0x0041#16, 0b100#3, [.key 0x7A#8], [], 0x3001#16) := by decide
theorem test_getc_holds :
    after (at3000 0xF020#16 0b100#3 []) id = some (at3000 0xF020#16 0b100#3 []) := by decide
theorem test_out_low_byte :
    after (at3000 0xF021#16 0b100#3 [(0, 0x1241#16)]) (fun t => (t.outLog, t.cond)) =
      some ([.byte 0x41#8], 0b100#3) := by decide
theorem test_out_links_r7 :
    after (at3000 0xF021#16 0b100#3 [(0, 0x0041#16)] [] [] true) (fun t => (t.outLog, t.reg 7#3)) =
      some ([.byte 0x41#8], 0x3001#16) := by decide
theorem test_puts_high_bytes_ignored :
    after (at3000 0xF022#16 0b100#3 [(0, 0x4000#16)] [(0x4000#16, 0x4100#16), (0x4001#16, 0x1242#16)])
      (fun t => (t.outLog, t.pc, t.reg 0#3)) =
      some ([.byte 0x00#8, .byte 0x42#8, .flush], 0x3001#16, 0x4000#16) := by decide
/-- K12 of Part 2.4: a string that runs through the keyboard registers. -/
theorem test_puts_polls :
    after (at3000 0xF022#16 0b100#3 [(0, 0xFDFF#16)] [(0xFDFF#16, 0x0041#16), (0xFE01#16, 0x0042#16)]
      [.key 0x78#8]) (·.outLog) =
      some [.byte 0x41#8, .byte 0x00#8, .byte 0x42#8, .byte 0x78#8, .flush] := by decide
theorem test_in :
    after (at3000 0xF023#16 0b100#3 [] [] [.key 0x71#8]) (fun t => (t.outLog, t.reg 0#3, t.pc)) =
      some ([.byte 0x3F#8, .byte 0x71#8], 0x0071#16, 0x3001#16) := by decide
theorem test_in_holds_after_prompt :
    after (at3000 0xF023#16 0b100#3 []) (fun t => (t.outLog, t.pc, t.inPrompted, t.regs)) =
      some ([.byte 0x3F#8], 0x3000#16, true, someRegs) := by decide
theorem test_putsp_hello :
    after (at3000 0xF024#16 0b100#3 [(0, 0x4000#16)]
      [(0x4000#16, 0x6548#16), (0x4001#16, 0x6C6C#16), (0x4002#16, 0x006F#16)]) (·.outLog) =
      some [.byte 0x48#8, .byte 0x65#8, .byte 0x6C#8, .byte 0x6C#8, .byte 0x6F#8, .flush] := by
  decide
theorem test_putsp_zero_low_byte :
    after (at3000 0xF024#16 0b100#3 [(0, 0x4000#16)] [(0x4000#16, 0x4100#16)]) (·.outLog) =
      some [.byte 0x00#8, .byte 0x41#8, .flush] := by decide
theorem test_halt :
    after (at3000 0xF025#16 0b100#3 []) (fun t => (t.run, t.outLog, t.pc, t.regs)) =
      some (.halted, [.byte 0x21#8, .flush], 0x3001#16, someRegs) := by decide
theorem test_halted_is_frozen :
    after { State.reset with run := .halted } id = some { State.reset with run := .halted } := by
  decide
theorem test_undef00 :
    after (at3000 0xF01F#16 0b100#3 []) (fun t => (t.run, t.fault, t.pc, t.outLog)) =
      some (.faulted, some ⟨.undefinedTrapVector, 0x3000#16, 0xF01F#16⟩, 0x3001#16, []) := by decide
theorem test_undef26 :
    after (at3000 0xF026#16 0b100#3 []) (fun t => (t.run, t.fault)) =
      some (.faulted, some ⟨.undefinedTrapVector, 0x3000#16, 0xF026#16⟩) := by decide
theorem test_undef28 :
    after (at3000 0xFA28#16 0b100#3 []) (fun t => (t.run, t.fault)) =
      some (.faulted, some ⟨.undefinedTrapVector, 0x3000#16, 0xFA28#16⟩) := by decide
theorem test_undef30 :
    after (at3000 0xF030#16 0b100#3 []) (fun t => (t.run, t.fault)) =
      some (.faulted, some ⟨.undefinedTrapVector, 0x3000#16, 0xF030#16⟩) := by decide
theorem test_undef40 :
    after (at3000 0xF040#16 0b100#3 []) (fun t => (t.run, t.fault)) =
      some (.faulted, some ⟨.undefinedTrapVector, 0x3000#16, 0xF040#16⟩) := by decide
theorem test_undef80_links_r7 :
    after (at3000 0xF0FF#16 0b100#3 [] [] [] true) (fun t => (t.run, t.fault, t.reg 7#3)) =
      some (.faulted, some ⟨.undefinedTrapVector, 0x3000#16, 0xF0FF#16⟩, 0x3001#16) := by decide
theorem test_rti :
    after (at3000 0x8ABC#16 0b100#3 []) (fun t => (t.run, t.fault, t.pc, t.regs)) =
      some (.faulted, some ⟨.illegalOpcode, 0x3000#16, 0x8ABC#16⟩, 0x3001#16, someRegs) := by decide
theorem test_res :
    after (at3000 0xDFFF#16 0b100#3 []) (fun t => (t.run, t.fault)) =
      some (.faulted, some ⟨.illegalOpcode, 0x3000#16, 0xDFFF#16⟩) := by decide

/-! ## A string routine in parts (60_exceptions R147(b)) -/

/-- A part of PUTS: two reads of a longer string. -/
theorem test_puts_part :
    let u := putsLoop 2 0x4000#16 (boot 0x3001#16 0#3 someRegs
      [(0x4000#16, 0x0041#16), (0x4001#16, 0x0042#16), (0x4002#16, 0x0043#16)])
    u.1 = some 0x4002#16 ∧ u.2.outLog = [.byte 0x41#8, .byte 0x42#8] := by decide
/-- The rest of PUTS: no fetch, the pc as it was, then the flush. -/
theorem test_puts_goes_on :
    after { boot 0x3001#16 0b100#3 someRegs [(0x3001#16, 0xF025#16), (0x4002#16, 0x0043#16)] with
        inString := some (.puts, 0x4002#16) } (fun t => (t.outLog, t.pc, t.run)) =
      some ([.byte 0x43#8, .flush], 0x3001#16, .running) := by decide
/-- The rest of PUTSP. -/
theorem test_putsp_goes_on :
    after { boot 0x3001#16 0b100#3 someRegs [(0x3001#16, 0xF025#16), (0x4002#16, 0x4443#16)] with
        inString := some (.putsp, 0x4002#16) } (fun t => (t.outLog, t.pc, t.run)) =
      some ([.byte 0x43#8, .byte 0x44#8, .flush], 0x3001#16, .running) := by decide

/-! ## Reset, the fetch, and the host's entry (Part 2.6, K10, K11) -/

theorem test_reset :
    State.reset.pc = 0x3000#16 ∧ State.reset.run = .running ∧ State.reset.fault = none ∧
    State.reset.inPos = 0 ∧ State.reset.outLog = [] := by decide
theorem test_pc_wraps :
    after (boot 0xFFFF#16 0#3 someRegs []) (·.pc) = some 0x0000#16 := by decide
theorem test_fetch_polls_ready :
    after (boot 0xFE00#16 0#3 someRegs [(0xFE00#16, 0xF025#16)] [.key 0x41#8])
      (fun t => (t.run, t.fault, t.pc, t.cell 0xFE02#16)) =
      some (.faulted, some ⟨.illegalOpcode, 0xFE00#16, 0x8000#16⟩, 0xFE01#16, 0x0041#16) := by decide
theorem test_fetch_polls_none :
    after (boot 0xFE00#16 0#3 someRegs [(0xFE00#16, 0xF025#16)]) (fun t => (t.run, t.pc, t.mem)) =
      some (.running, 0xFE01#16, []) := by decide
theorem test_withFetchWord_runs :
    after (State.reset.withFetchWord 16 0xF025) (·.run) = some .halted := by decide

/-! ## States that meet the hypotheses of the statements

One for each hypothesis or clause, at the ends of its range; a statement that has none is not named. -/

/-- DecodeEncodeRoundTrip: rows with a check, at both ends of the narrowest range. -/
theorem witness_DecodeEncodeRoundTrip :
    (Instr.trapUndef26 0xF#4 0x26#8).wellFormed = true ∧
    (Instr.trapUndef26 0x0#4 0x27#8).wellFormed = true ∧
    (Instr.addReg 7#3 0#3 7#3).wellFormed = true := by decide

/-- IgnoredBitsHaveNoEffect: a word that raises nothing, one that raises, and the canonical words. -/
theorem witness_IgnoredBitsHaveNoEffect :
    ((0x14C4#16 ^^^ 0x14DC#16) &&& ~~~(decodeWord 0x14C4#16).ignoredBits = 0#16 ∧
      (decodeWord 0x14C4#16).raises = none) ∧
    ((0xF0FF#16 ^^^ 0xFFFF#16) &&& ~~~(decodeWord 0xF0FF#16).ignoredBits = 0#16 ∧
      (decodeWord 0xF0FF#16).raises = some .undefinedTrapVector) ∧
    ((0x8000#16 ^^^ 0x8FFF#16) &&& ~~~(decodeWord 0x8000#16).ignoredBits = 0#16 ∧
      (decodeWord 0x8000#16).raises = some .illegalOpcode) ∧
    ((Instr.not 3#3 2#3).wellFormed = true ∧ (Instr.not 3#3 2#3).raises = none) ∧
    ((Instr.jmp 3#3).wellFormed = true ∧ (Instr.jmp 3#3).raises = none) := by decide

/-- SignExtensionValue: both signs at both ends of the width. -/
theorem witness_SignExtensionValue :
    (1 ≤ 1 ∧ 1 ≤ 16 ∧ (1#1).getLsbD (1 - 1) = true) ∧ (0#1).getLsbD (1 - 1) = false ∧
    (1 ≤ 16 ∧ 16 ≤ 16 ∧ (0x8000#16).getLsbD (16 - 1) = true) ∧
    (0x7FFF#16).getLsbD (16 - 1) = false := by decide

/-- SetFlagsSignRule: the three clauses at the ends of the signed range. -/
theorem witness_SetFlagsSignRule :
    State.reset.reg 0#3 = 0x0000#16 ∧
    ((State.reset.setReg 0#3 0x8000#16).reg 0#3 ≠ 0x0000#16 ∧
      ((State.reset.setReg 0#3 0x8000#16).reg 0#3).getLsbD 15 = true) ∧
    ((State.reset.setReg 0#3 0x7FFF#16).reg 0#3 ≠ 0x0000#16 ∧
      ((State.reset.setReg 0#3 0x7FFF#16).reg 0#3).getLsbD 15 = false) := by decide

/-- The words of the decoding clauses of the per-instruction statements, with every free bit at 0 and 1. -/
theorem witness_decoding_clauses :
    0x1FDF#16 &&& 0xF020#16 = 0x1000#16 ∧ 0x1FFF#16 &&& 0xF020#16 = 0x1020#16 ∧
    0x5FDF#16 &&& 0xF020#16 = 0x5000#16 ∧ 0x5020#16 &&& 0xF020#16 = 0x5020#16 ∧
    0x9FFF#16 &&& 0xF000#16 = 0x9000#16 ∧ 0x0FFF#16 &&& 0xF000#16 = 0x0000#16 ∧
    0xCFFF#16 &&& 0xF000#16 = 0xC000#16 ∧ 0x4FFF#16 &&& 0xF800#16 = 0x4800#16 ∧
    0x47FF#16 &&& 0xF800#16 = 0x4000#16 ∧ 0x2FFF#16 &&& 0xF000#16 = 0x2000#16 ∧
    0xAFFF#16 &&& 0xF000#16 = 0xA000#16 ∧ 0x6FFF#16 &&& 0xF000#16 = 0x6000#16 ∧
    0xEFFF#16 &&& 0xF000#16 = 0xE000#16 ∧ 0x3FFF#16 &&& 0xF000#16 = 0x3000#16 ∧
    0xBFFF#16 &&& 0xF000#16 = 0xB000#16 ∧ 0x7FFF#16 &&& 0xF000#16 = 0x7000#16 ∧
    0xFF20#16 &&& 0xF0FF#16 = 0xF020#16 ∧ 0xFF21#16 &&& 0xF0FF#16 = 0xF021#16 ∧
    0xFF22#16 &&& 0xF0FF#16 = 0xF022#16 ∧ 0xFF23#16 &&& 0xF0FF#16 = 0xF023#16 ∧
    0xFF24#16 &&& 0xF0FF#16 = 0xF024#16 ∧ 0xFF25#16 &&& 0xF0FF#16 = 0xF025#16 ∧
    0x8FFF#16 &&& 0xF000#16 = 0x8000#16 ∧ 0xDFFF#16 &&& 0xF000#16 = 0xD000#16 := by decide

/-- BranchResult: taken and not taken. -/
theorem witness_BranchResult :
    (at3000 0#16 0b100#3 []).cond &&& 0b100#3 ≠ 0b000#3 ∧
    (at3000 0#16 0b100#3 []).cond &&& 0b011#3 = 0b000#3 := by decide

/-- MemReadPollsAtKbsr: beside KBSR; at it with a character, listed or later; with a false answer, listed or
later. -/
theorem witness_MemReadPollsAtKbsr :
    (0xFE01#16 ≠ 0xFE00#16 ∧ 0xFDFF#16 ≠ 0xFE00#16) ∧
    (at3000 0#16 0#3 [] [] [.key 0xFF#8]).input.answer = .key 0xFF#8 ∧
    (at3000 0#16 0#3 [] [] [] false (.always (.key 0#8))).input.answer = .key 0x00#8 ∧
    (at3000 0#16 0#3 [] [] [.idle, .key 0#8]).input.answer = .idle ∧
    State.reset.input.answer = .idle := by decide

/-- MemWriteIsPlainStore: memory in canonical form, an address beside KBSR, and KBSR with either answer. -/
theorem witness_MemWriteIsPlainStore :
    (at3000 0xF025#16 0#3 []).mem.wf ∧ 0xFE02#16 ≠ 0xFE00#16 ∧ (kbsr = 0xFE00#16) ∧
    (at3000 0#16 0#3 [] [] [.key 0x41#8]).input.answer = .key 0x41#8 ∧
    State.reset.input.answer = .idle := by decide

/-- LoadResult: an address beside KBSR. -/
theorem witness_LoadResult : State.reset.pc + sext16 0x1FF#9 ≠ kbsr := by decide

/-- LoadIndirectResult: a pointer read that polls, one that does not, and neither address at KBSR. -/
theorem witness_LoadIndirectResult :
    ((boot kbsr 0#3 someRegs [] [.key 0x41#8]).memRead (kbsr + sext16 0#9)).1 = 0x8000#16 ∧
    (State.reset.memRead (State.reset.pc + sext16 0#9)).1 = 0#16 ∧
    State.reset.pc + sext16 0#9 ≠ kbsr ∧
    State.reset.cell (State.reset.pc + sext16 0#9) ≠ kbsr := by decide

/-- LoadBaseResult: an address beside KBSR. -/
theorem witness_LoadBaseResult :
    (State.reset.setReg 1#3 kbsr).reg 1#3 + sext16 0x3F#6 ≠ kbsr := by decide

/-- StoreIndirectResult: a pointer read that polls, and one at an address beside KBSR. -/
theorem witness_StoreIndirectResult :
    ((boot kbsr 0#3 someRegs [] [.key 0x41#8]).memRead (kbsr + sext16 0#9)).1 = 0x8000#16 ∧
    State.reset.pc + sext16 0x100#9 ≠ kbsr := by decide

/-- GetcReadsNextCharacter and InPromptsReadsAndEchoes: at once, after two answers false, and after all the
listed ones. -/
theorem witness_next_character :
    (at3000 0#16 0#3 [] [] [.key 0x80#8]).input.keyAfter 0 0x80#8 ∧
    (at3000 0#16 0#3 [] [] [.idle, .idle, .key 0x41#8, .idle]).input.keyAfter 2 0x41#8 ∧
    (at3000 0#16 0#3 [] [] [.idle] false (.always (.key 0x42#8))).input.keyAfter 1 0x42#8 := by
  unfold Input.keyAfter; decide

/-- InPromptsReadsAndEchoes: with the prompt still to come, and after a hold. -/
theorem witness_InPromptsReadsAndEchoes :
    (at3000 0xF023#16 0#3 [] [] [.key 0x41#8]).inPrompted = false ∧
    { at3000 0xF023#16 0#3 [] [] [.key 0x41#8] with inPrompted := true }.inPrompted = true := by
  decide

/-- GetcHoldChangesNothing: with no answer listed and with one that is false, and a character after the one
answer false that is listed. -/
theorem witness_GetcHoldChangesNothing :
    let s := at3000 0xF020#16 0#3 [] [] [.idle]
    let t := at3000 0xF020#16 0#3 [] [] [.idle] false (.always (.key 0x42#8))
    (s.run = .running ∧ s.inString = none ∧ s.pc ≠ kbsr ∧ decodeWord (s.cell s.pc) = .trapGetc ∧
      (∀ a ∈ s.input.listed, a = .idle) ∧ s.input.later = .always .idle) ∧
    ((∀ a ∈ State.reset.input.listed, a = .idle) ∧ State.reset.input.later.first = .idle) ∧
    t.run = .running ∧ t.inString = none ∧ t.pc ≠ kbsr ∧ decodeWord (t.cell t.pc) = .trapGetc ∧
      (∀ k < 1, (t.input.drop k).answer = .idle) ∧ (t.input.drop 1).answer = .key 0x42#8 := by decide

/-- InHoldsThenResumes, with and without the prompt still to come. -/
theorem witness_InHoldsThenResumes :
    let s := at3000 0xF023#16 0#3 [] [] [.idle]
    s.run = .running ∧ s.inString = none ∧ s.pc ≠ kbsr ∧ decodeWord (s.cell s.pc) = .trapIn ∧
      s.inPrompted = false ∧ (∀ a ∈ s.input.listed, a = .idle) ∧ s.input.later = .always .idle ∧
      s.input.later.first = .idle ∧ { s with inPrompted := true }.inPrompted = true := by decide

/-- The same answer for ever stays the same. -/
theorem drop_always (k : Nat) (a : InputAnswer) : (Input.mk [] (.always a)).drop k = ⟨[], .always a⟩ := by
  induction k with
  | zero => rfl
  | succ k ih => exact ih

/-- PutsFollowsItsLoop: a finite `IN`, used up and not. -/
theorem witness_PutsFollowsItsLoop :
    State.reset.input.later = .always .idle ∧
    (at3000 0xF022#16 0#3 [] [] [.key 0x41#8]).input.later = .always .idle := by decide

/-- StringRoutineGoesOn: a running machine inside either routine. -/
theorem witness_StringRoutineGoesOn :
    State.reset.run = .running ∧
    { State.reset with inString := some (.puts, kbsr) }.inString = some (.puts, kbsr) ∧
    { State.reset with inString := some (.putsp, 0#16) }.inString = some (.putsp, 0#16) := by decide

/-- Memory in which every word is 0xF022. -/
def putsEverywhere : Memory :=
  (List.range 131072).map fun b => (b, if b % 2 = 0 then 0xF0#8 else 0x22#8)

theorem readByte_append (l m : Memory) (b : Nat) (h : ∀ c ∈ l, c.1 ≠ b) :
    Memory.readByte (l ++ m) b = Memory.readByte m b := by
  induction l with
  | nil => rfl
  | cons c l ih =>
    simp only [List.cons_append, Memory.readByte, if_neg (h c (List.mem_cons_self ..))]
    exact ih fun d hd => h d (List.mem_cons_of_mem c hd)

theorem readByte_range (f : Nat → Byte) (n b : Nat) (h : b < n) :
    Memory.readByte ((List.range n).map fun b => (b, f b)) b = f b := by
  obtain ⟨k, rfl⟩ : ∃ k, n = b + (k + 1) := ⟨n - b - 1, by omega⟩
  rw [List.range_add, List.map_append, readByte_append, List.range_succ_eq_map]
  · simp [Memory.readByte]
  · intro c hc
    obtain ⟨d, hd, rfl⟩ := List.mem_map.1 hc
    have := List.mem_range.1 hd
    simp only; omega

theorem putsEverywhere_word (a : Word) : putsEverywhere.readWord a = 0xF022#16 := by
  have ha := a.isLt
  rw [Memory.readWord, putsEverywhere,
    readByte_range (fun b => if b % 2 = 0 then 0xF0#8 else 0x22#8) _ _ (by rw [highAddr]; omega),
    readByte_range (fun b => if b % 2 = 0 then 0xF0#8 else 0x22#8) _ _ (by rw [lowAddr]; omega),
    if_pos (by rw [highAddr]; omega), if_neg (by rw [lowAddr]; omega)]
  rfl

/-- PutsEndsOrHangs, the end: a string of one character, at a PUTS that links R7 and at one that does not. -/
theorem witness_PutsEndsOrHangs_end :
    (∀ b : Bool,
      let s := at3000 0xF022#16 0#3 [(0, 0x4000#16)] [(0x4000#16, 0x0041#16)] [] b
      s.run = .running ∧ s.inString = none ∧ s.pc ≠ kbsr ∧ decodeWord (s.cell s.pc) = .trapPuts) ∧
    ∀ b : Bool,
      let s := at3000 0xF022#16 0#3 [(0, 0x4000#16)] [(0x4000#16, 0x0041#16)] [] b
      ∃ u, PutsRun (s.reg 0#3) (s.setPc (s.pc + 1#16)).trapEnter u := by
  refine ⟨by decide, fun b => ?_⟩
  cases b <;> exact ⟨_, .char _ _ _ (by decide) (.stop _ _ (by decide))⟩

/-- PutsEndsOrHangs, the hang: no word of memory is zero, and `IN` is the character 1 for ever. -/
theorem witness_PutsEndsOrHangs_hang :
    let s := { State.reset with mem := putsEverywhere, input := ⟨[], .always (.key 0x01#8)⟩ }
    s.run = .running ∧ s.inString = none ∧ s.pc ≠ kbsr ∧ decodeWord (s.cell s.pc) = .trapPuts ∧
    (∀ a : Word, a ≠ kbsr → s.cell a ≠ 0x0000#16) ∧
    ∀ k : Nat, ∃ c : Byte, c ≠ 0x00#8 ∧ (s.input.drop k).answer = .key c := by
  refine ⟨rfl, rfl, by decide, ?_, fun a _ => ?_, fun k => ⟨0x01#8, by decide, ?_⟩⟩
  · rw [State.cell, putsEverywhere_word]; rfl
  · rw [State.cell, putsEverywhere_word]; decide
  · rw [drop_always]; rfl

/-- PutsEmitsString: a string across the end of the address space, and the empty one. -/
theorem witness_PutsEmitsString :
    let s := at3000 0xF022#16 0#3 [(0, 0xFFFF#16)] [(0xFFFF#16, 0x0041#16), (0#16, 0x1200#16)]
    let ws : List Word := [0x0041#16, 0x1200#16]
    (∀ (i : Nat) (h : i < ws.length), s.cell (s.reg 0#3 + BitVec.ofNat 16 i) = ws[i]) ∧
    (∀ w ∈ ws, w ≠ 0x0000#16) ∧
    s.cell (s.reg 0#3 + BitVec.ofNat 16 ws.length) = 0x0000#16 ∧
    (∀ i : Nat, i ≤ ws.length → s.reg 0#3 + BitVec.ofNat 16 i ≠ kbsr) ∧
    State.reset.cell (State.reset.reg 0#3 + BitVec.ofNat 16 0) = 0x0000#16 := by
  refine ⟨?_, by simp, by decide, ?_, by decide⟩ <;> decide

/-- PutspEmitsPackedString: a last word with a low byte, and a zero word as the last. -/
theorem witness_PutspEmitsPackedString :
    let s := at3000 0xF024#16 0#3 [(0, 0x4000#16)] [(0x4000#16, 0x6548#16), (0x4001#16, 0x006F#16)]
    let ws : List Word := [0x6548#16]
    (∀ (i : Nat) (h : i < ws.length), s.cell (s.reg 0#3 + BitVec.ofNat 16 i) = ws[i]) ∧
    (∀ w ∈ ws, w.extractLsb' 8 8 ≠ 0x00#8) ∧
    s.cell (s.reg 0#3 + BitVec.ofNat 16 ws.length) = 0x006F#16 ∧
    (0x006F#16).extractLsb' 8 8 = 0x00#8 ∧
    (∀ i : Nat, i ≤ ws.length → s.reg 0#3 + BitVec.ofNat 16 i ≠ kbsr) ∧
    State.reset.cell (State.reset.reg 0#3 + BitVec.ofNat 16 0) = 0x0000#16 ∧
    (0x0000#16).extractLsb' 8 8 = 0x00#8 := by
  refine ⟨?_, ?_, by decide, by decide, ?_, by decide, by decide⟩
  · decide
  · simp
  · decide

/-- UndefinedVectorFaults: the vectors next to the six defined ones, and the six rows. -/
theorem witness_UndefinedVectorFaults :
    (0xF01F#16 &&& 0xF000#16 = 0xF000#16 ∧ ((0xF01F#16).extractLsb' 0 8).toNat < 0x20) ∧
    (0xFF26#16 &&& 0xF000#16 = 0xF000#16 ∧ 0x25 < ((0xFF26#16).extractLsb' 0 8).toNat) ∧
    (Instr.trapUndef00 0#4 0#8 = .trapUndef00 0#4 0#8) := by decide

/-- InvariantAtReset: memory in canonical form, empty and not. -/
theorem witness_InvariantAtReset :
    Memory.wf [] ∧ Memory.wf [(0, 1#8), (0x6000, 0xF0#8), (131071, 0xFF#8)] := by decide

/-- InvariantKeptByStep: at reset; after a fault; while an IN is held; inside a string routine. -/
theorem witness_InvariantKeptByStep :
    State.reset.Inv ∧
    State.Inv { at3000 0x8000#16 0#3 [] with
      pc := 0x3001#16, run := .faulted
      fault := some ⟨.illegalOpcode, 0x3000#16, 0x8000#16⟩ } ∧
    State.Inv { at3000 0xF023#16 0#3 [] with inPrompted := true } ∧
    State.Inv { at3000 0xF022#16 0#3 [] with inString := some (.puts, 0x4000#16) } ∧
    completes (.br 0#3 0#9) State.reset = true := by
  refine ⟨⟨by decide, ?_, ?_, ?_⟩, ⟨by decide, ?_, ?_, ?_⟩, ⟨by decide, ?_, ?_, ?_⟩,
    ⟨by decide, ?_, ?_, ?_⟩, by decide⟩
  · exact (by decide : State.reset.run ≠ .faulted)
  · unfold State.promptOk; decide
  · unfold State.stringOk; decide
  · exact ⟨rfl, by decide, by decide⟩
  · unfold State.promptOk; decide
  · unfold State.stringOk; decide
  · exact (by decide : State.reset.run ≠ .faulted)
  · unfold State.promptOk; decide
  · unfold State.stringOk; decide
  · exact (by decide : State.reset.run ≠ .faulted)
  · unfold State.promptOk; decide
  · unfold State.stringOk; decide

/-- StepRunsDecodedInstruction: a running machine away from KBSR, whose two bytes decode; and one inside a
string routine. -/
theorem witness_StepRunsDecodedInstruction :
    let s := at3000 0x14C4#16 0#3 []
    { s with inString := some (.puts, 0#16) }.inString = some (.puts, 0#16) ∧
    s.run = .running ∧ s.inString = none ∧ s.pc ≠ kbsr ∧
    decodeWord (s.mem.readByte (highAddr s.pc) ++ s.mem.readByte (lowAddr s.pc)) =
      .addReg 2#3 3#3 4#3 ∧
    decode [s.mem.readByte (highAddr s.pc), s.mem.readByte (lowAddr s.pc)] =
      .ok (.addReg 2#3 3#3 4#3, []) := by
  refine ⟨by decide, by decide, by decide, by decide, by decide, ?_⟩
  rfl

/-- StoredEncodingRuns: the two clauses, and the pc at and off KBSR. -/
theorem witness_StoredEncodingRuns :
    State.reset.run = .running ∧ State.reset.inString = none ∧ State.reset.pc ≠ kbsr ∧
    (Instr.trapUndef80 0#4 0x80#8).wellFormed = true ∧
    { State.reset with pc := kbsr + 1#16 }.pc ≠ kbsr := by decide

/-- StoreIsSeenByNextFetch. -/
theorem witness_StoreIsSeenByNextFetch :
    let s := at3000 0x3200#16 0#3 [(1, 0x14A5#16)]
    s.run = .running ∧ s.inString = none ∧ s.pc ≠ kbsr ∧ s.pc + 1#16 ≠ kbsr ∧
      decodeWord (s.cell s.pc) = .st 1#3 0#9 := by decide

/-- FetchAtKbsrPolls: with a character, and with none. -/
theorem witness_FetchAtKbsrPolls :
    let s := boot 0xFE00#16 0#3 someRegs [] [.key 0x41#8, .idle]
    let t := boot 0xFE00#16 0#3 someRegs [] [.idle, .key 0x41#8]
    s.run = .running ∧ s.inString = none ∧ s.pc = 0xFE00#16 ∧ s.input.answer = .key 0x41#8 ∧
    t.run = .running ∧ t.inString = none ∧ t.pc = 0xFE00#16 ∧ t.input.answer = .idle := by decide

/-- ZeroMemoryRunsForEver: with one answer false listed, and with none. -/
theorem witness_ZeroMemoryRunsForEver :
    let s := boot 0xFE00#16 0b111#3 someRegs [] [.idle]
    (s.run = .running ∧ s.inString = none ∧ s.mem = [] ∧
      ∀ k : Nat, (s.input.drop k).answer = .idle) ∧
    State.reset.run = .running ∧ State.reset.inString = none ∧ State.reset.mem = [] ∧
      (∀ k : Nat, (State.reset.input.drop k).answer = .idle) ∧
      State.reset.input = ⟨[], .always .idle⟩ := by
  refine ⟨⟨rfl, rfl, rfl, fun k => ?_⟩, rfl, rfl, rfl, fun k => ?_, rfl⟩
  · cases k with
    | zero => rfl
    | succ k => exact congrArg Input.answer (drop_always k .idle)
  · exact congrArg Input.answer (drop_always k .idle)

/-- CondWrittenOnlyBySetFlags, CondReadOnlyByBranch: instructions of both kinds that answer a next state. -/
theorem witness_Cond_statements :
    (completes (.ldi 1#3 0#9) State.reset = true ∧ (Instr.ldi 1#3 0#9).setsFlags = true) ∧
    (completes (.not 1#3 2#3) State.reset = true ∧ (Instr.not 1#3 2#3).setsFlags = false) ∧
    (Instr.not 1#3 2#3).opcode ≠ .br ∧ (Instr.ldi 1#3 0#9).opcode ≠ .br := by decide

/-- CondStaysOneHot: a state with one flag, and a step of it. -/
theorem witness_CondStaysOneHot :
    (at3000 0x14C4#16 0b010#3 []).condOneHot ∧
    after (at3000 0x14C4#16 0b010#3 []) (·.cond) = some 0b100#3 := by
  refine ⟨?_, by decide⟩
  unfold State.condOneHot; decide

/-- RegistersWrittenOnlyAsAllowed: a register that the instruction may not write, of the three kinds. -/
theorem witness_RegistersWrittenOnlyAsAllowed :
    (completes (.jsr 0#11) State.reset = true ∧ ¬ (Instr.jsr 0#11).mayWrite true 7#3) ∧
    (completes .trapGetc State.reset = true ∧ ¬ Instr.trapGetc.mayWrite true 6#3 ∧
      ¬ Instr.trapGetc.mayWrite false 7#3) ∧
    (completes (.ld 2#3 0#9) State.reset = true ∧ ¬ (Instr.ld 2#3 0#9).mayWrite false 3#3) := by
  unfold Instr.mayWrite; decide

/-- MemoryWrittenOnlyByStoresAndPolls: instructions that are no stores, with a read and with none; with and
without a poll that draws a character; with answers listed and none drawn. -/
theorem witness_MemoryWrittenOnlyByStoresAndPolls :
    ((Instr.ldr 0#3 1#3 0#6).isStore = false ∧ (Instr.ldr 0#3 1#3 0#6).readsMemory = true ∧
      completes (.ldr 0#3 1#3 0#6) (State.reset.setReg 1#3 kbsr) = true) ∧
    (Instr.trapGetc.isStore = false ∧ Instr.trapGetc.readsMemory = false ∧
      completes .trapGetc State.reset = true) ∧
    after (at3000 0x6040#16 0#3 [(1, 0xFE00#16)] [] [.key 0x41#8]) (·.inPos) = some 1 ∧
    after (at3000 0x6040#16 0#3 [(1, 0xFE00#16)]) (·.inPos) = some 0 ∧
    after (at3000 0x6040#16 0#3 [] [] [.idle]) (·.input.listed) = some [.idle] := by decide

/-- RunStateTransitions: a step of a running machine, of one inside a string routine, and of one that has
ended. -/
theorem witness_RunStateTransitions :
    after (at3000 0xF025#16 0#3 []) (·.run) = some .halted ∧
    after (at3000 0xD000#16 0#3 []) (·.run) = some .faulted ∧
    after { State.reset with run := .faulted } (·.run) = some .faulted ∧
    after { State.reset with inString := some (.putsp, 0#16) } (·.run) = some .running ∧
    (at3000 0xF025#16 0#3 []).run = .running ∧ (at3000 0xF025#16 0#3 []).inString = none := by decide

/-- EndedRunIsFrozen: both ends of a run. -/
theorem witness_EndedRunIsFrozen :
    State.ended { State.reset with run := .halted } ∧
    State.ended { State.reset with run := .faulted } := ⟨.inl rfl, .inr rfl⟩

/-- OutLogIsNeverRead, InputAndOutputAreAccounted, ParametersNeverChange: a run of one step that emits, with a
finite `IN`. -/
theorem witness_run_statements :
    (match Host.Core.run Sys2Proof.core 1 (at3000 0xF021#16 0#3 []) with
      | .next t => t.outLog
      | .fault _ => []
      | .refused _ => []) = [OutEvent.byte 0x11#8] ∧
    (at3000 0xF021#16 0#3 []).input.later = .always .idle := by decide

/-- TrapLinkAffectsOnlyR7: both answers are next states, for a TRAP, a held GETC and another instruction. -/
theorem witness_TrapLinkAffectsOnlyR7 :
    (∀ b : Bool, completes .trapOut { State.reset with trapLinksR7 := b } = true) ∧
    (∀ b : Bool, completes .trapGetc { State.reset with trapLinksR7 := b } = true) ∧
    (∀ b : Bool, completes (.jmp 0#3) { State.reset with trapLinksR7 := b } = true) ∧
    Instr.trapOut.isTrap = true ∧ (Instr.jmp 0#3).isTrap = false := by decide

end Sys2Proof.Tests
end

section
/-! PROOFS. The value of a sign-extended field (00_scope R9). -/

namespace Sys2Proof.Machine

/-- The value of `sext16` by the sign of the field: the bits above a set sign bit add `65536 - 2 ^ n`, the
bits above a clear one add nothing. -/
theorem sext16_toNat {n : Nat} (f : BitVec n) (hn : n ≤ 16) :
    (sext16 f).toNat = f.toNat + if f.msb = true then 65536 - 2 ^ n else 0 := by
  rw [sext16, BitVec.toNat_signExtend, BitVec.toNat_setWidth_of_le hn]

/-- Settles O5, by the sign bit `f[n-1]` (00_scope R9). The lower bound on the width is not needed: the empty
field has no set bit and the value 0. -/
theorem signExtensionValue : Obligations.SignExtensionValue := by
  intro n f _ hn
  rw [sext16_toNat f hn, ← BitVec.msb_eq_getLsbD_last]
  cases f.msb with
  | true => simp
  | false => simp

end Sys2Proof.Machine
end

section
/-! PROOFS. What a step can do, said once: the operations of which every meaning and every string routine is made,
each under the guard that lets an instruction use it. The statements about all steps and all runs go through it. -/

namespace Sys2Proof.Machine

/-- One operation of a step that runs `i`. A read is open to every instruction, because its fetch is one
(70_reset R160); a register, COND, memory, RUN and the two fields of the model's own change only for the
instructions named. -/
inductive Act (i : Instr) (s : State) : State → Prop where
  | read (a : Word) : Act i s (s.afterRead a)
  | setPc (a : Word) : Act i s (s.setPc a)
  | setReg (r : Reg) (v : Word) (h : i.mayWrite s.trapLinksR7 r) : Act i s (s.setReg r v)
  | setFlags (r : Reg) (h : i.setsFlags = true) : Act i s (s.setFlags r)
  | memWrite (a v : Word) (h : i.isStore = true) : Act i s (s.memWrite a v)
  | emit (events : List OutEvent) : Act i s { s with outLog := s.outLog ++ events }
  | take (c : Byte) (rest : Input)
      (h : firstKey s.input.listed s.input.later = some (c, rest)) : Act i s (s.consume rest)
  | hold (h : firstKey s.input.listed s.input.later = none) : Act i s s.hold
  | setPrompted (b : Bool) (h : i = .trapIn) : Act i s { s with inPrompted := b }
  | setString (place : Option (StringRoutine × Word)) (h : i = .trapPuts ∨ i = .trapPutsp) :
      Act i s { s with inString := place }
  | raise (f : FaultCause) (w : Word) (h : i.raises = some f) : Act i s (s.raise f w)
  | halt (h : i = .trapHalt) : Act i s { s with run := .halted }

/-- Any number of operations of a step that runs `i`. -/
abbrev Acts (i : Instr) : State → State → Prop := Relation.ReflTransGen (Act i)

/-- What every operation keeps, and is reflexive and transitive, any number of them keep. -/
theorem Acts.keep {i : Instr} {R : State → State → Prop} (refl : ∀ s, R s s)
    (trans : ∀ s t u, R s t → R t u → R s u) (act : ∀ s t, Act i s t → R s t) {s t : State}
    (h : Acts i s t) : R s t := by
  induction h with
  | refl => exact refl s
  | tail _ hact ih => exact trans _ _ _ ih (act _ _ hact)

/-- A part of the state that no operation changes is as before. -/
theorem Acts.keep_field {i : Instr} {α : Type} (field : State → α)
    (act : ∀ s t, Act i s t → field t = field s) {s t : State} (h : Acts i s t) :
    field t = field s :=
  h.keep (R := fun s t => field t = field s) (fun _ => rfl) (fun _ _ _ hs ht => ht.trans hs) act

/-! ## The shared operations as operations of a step -/

/-- R7 is open to every TRAP of a run in which TRAPs link (43_trap R116). -/
theorem mayWrite_link_of_isTrap {i : Instr} (h : i.isTrap = true) : i.mayWrite true 7#3 := by
  cases i with
  | trapGetc | trapIn => exact .inr ⟨rfl, rfl⟩
  | trapOut | trapPuts | trapPutsp | trapHalt | trapUndef00 | trapUndef26 | trapUndef28 | trapUndef30
  | trapUndef40 | trapUndef80 => exact ⟨rfl, rfl⟩
  | _ => exact nomatch h

theorem trapEnter_acts {i : Instr} (h : i.isTrap = true) (s : State) : Acts i s s.trapEnter := by
  rcases trapEnter_cases s with ⟨hlink, e⟩ | ⟨-, e⟩
  · exact e ▸ .single (.setReg _ _ (hlink ▸ mayWrite_link_of_isTrap h))
  · rw [e]

theorem prompt_acts (s : State) : Acts .trapIn s s.prompt := by
  rcases prompt_cases s with ⟨-, e⟩ | ⟨-, e⟩
  · rw [e]
  · exact e ▸ .tail (.single (.emit (s.inPrompt.map .byte))) (.setPrompted true rfl)

/-- A step's share of a string routine is made of operations of PUTS and PUTSP. -/
theorem stringPart_acts {i : Instr} (h : i = .trapPuts ∨ i = .trapPutsp) (s : State) (r : StringRoutine)
    (a : Word) : Acts i s (s.stringPart r a) :=
  stringPart_induction (R := Acts i) (fun _ => .refl) (fun _ _ _ => Relation.ReflTransGen.trans)
    (read := fun _ a => .single (.read a))
    (out := fun _ b => .single (.emit [.byte b]))
    (stop := fun _ => .tail (.single (.emit [.flush])) (.setString none h))
    (stay := fun _ r b => .single (.setString (some (r, b)) h)) s r a

/-! ## What GETC, IN, HALT and the faulting instructions answer -/

/-- GETC is held, or it puts a character in R0 (43_trap R117, R126). -/
theorem exec_trapGetc_cases (s : State) :
    (firstKey s.input.listed s.input.later = none ∧ exec .trapGetc s = .next s.hold) ∨
    (∃ c rest, firstKey s.input.listed s.input.later = some (c, rest) ∧
      exec .trapGetc s = .next ((s.trapEnter.consume rest).setReg 0#3 (zext16 c))) := by
  change _ ∧ execTrapGetc s = _ ∨ ∃ c rest, _ ∧ execTrapGetc s = _
  rw [← trapEnter_input s]
  rcases await_cases s.trapEnter with ⟨hk, e⟩ | ⟨c, rest, hk, e⟩
  · exact .inl ⟨hk, by simp only [execTrapGetc, e]⟩
  · exact .inr ⟨c, rest, hk, by simp only [execTrapGetc, e]⟩

/-- IN has emitted its prompt and is held, or it ends with a character in R0 and its echo (43_trap R120, R126). -/
theorem exec_trapIn_cases (s : State) :
    (firstKey s.input.listed s.input.later = none ∧ exec .trapIn s = .next s.trapEnter.prompt.hold) ∨
    (∃ c rest, firstKey s.input.listed s.input.later = some (c, rest) ∧
      exec .trapIn s =
        .next (((s.trapEnter.prompt.consume rest).setReg 0#3 (zext16 c)).out c).endPrompt) := by
  change _ ∧ execTrapIn s = _ ∨ ∃ c rest, _ ∧ execTrapIn s = _
  rw [← trapEnter_input s, ← prompt_input s.trapEnter]
  rcases await_cases s.trapEnter.prompt with ⟨hk, e⟩ | ⟨c, rest, hk, e⟩
  · exact .inl ⟨hk, by simp only [execTrapIn, e]⟩
  · exact .inr ⟨c, rest, hk, by simp only [execTrapIn, e]⟩

/-- HALT ends the run (43_trap R122). -/
theorem exec_trapHalt_run {s t : State} (h : exec .trapHalt s = .next t) : t.run = .halted := by
  obtain rfl := Host.Outcome.next.inj h
  rfl

/-- An instruction that raises a fault does that, after the link of a TRAP, and nothing else; the record holds
its whole word (43_trap R123 to R125, 60_exceptions R139). -/
theorem exec_of_raises {i : Instr} {f : FaultCause} (h : i.raises = some f) (s : State) :
    ∃ u, (u = s ∨ (i.isTrap = true ∧ u = s.trapEnter)) ∧ exec i s = .next (u.raise f (encode i)) := by
  cases i with
  | rti | res => obtain rfl := Option.some.inj h; exact ⟨s, .inl rfl, rfl⟩
  | trapUndef00 | trapUndef26 | trapUndef28 | trapUndef30 | trapUndef40 | trapUndef80 =>
    obtain rfl := Option.some.inj h
    exact ⟨s.trapEnter, .inr ⟨rfl, rfl⟩, rfl⟩
  | _ => exact nomatch h

/-- An instruction that sets the flags ends with SetFlags (40_alu R80). -/
theorem exec_of_setsFlags {i : Instr} (h : i.setsFlags = true) (s : State) :
    ∃ u r, exec i s = .next (State.setFlags u r) := by
  cases i with
  | addReg | addImm | andReg | andImm | ldi | lea => exact ⟨_, _, rfl⟩
  | _ => exact nomatch h

/-! ## Every instruction and every step -/

/-- All that an instruction can do. -/
theorem exec_acts {i : Instr} {s t : State} (h : exec i s = .next t) : Acts i s t := by
  cases i with
  | addReg | addImm | andReg | andImm | lea =>
    obtain rfl := Host.Outcome.next.inj h
    exact .tail (.single (.setReg _ _ rfl)) (.setFlags _ rfl)
  | not =>
    obtain rfl := Host.Outcome.next.inj h
    exact .single (.setReg _ _ rfl)
  | br cond offset9 =>
    obtain rfl := Host.Outcome.next.inj h
    split
    · exact .single (.setPc _)
    · exact .refl
  | jmp | jsr | jsrr =>
    obtain rfl := Host.Outcome.next.inj h
    exact .single (.setPc _)
  | ld | ldr =>
    obtain rfl := Host.Outcome.next.inj h
    exact .tail (.single (.read _)) (.setReg _ _ rfl)
  | ldi =>
    obtain rfl := Host.Outcome.next.inj h
    exact .tail (.tail (.tail (.single (.read _)) (.read _)) (.setReg _ _ rfl)) (.setFlags _ rfl)
  | st | str =>
    obtain rfl := Host.Outcome.next.inj h
    exact .single (.memWrite _ _ rfl)
  | sti =>
    obtain rfl := Host.Outcome.next.inj h
    exact .tail (.single (.read _)) (.memWrite _ _ rfl)
  | trapGetc =>
    rcases exec_trapGetc_cases s with ⟨hk, e⟩ | ⟨c, rest, hk, e⟩ <;>
      obtain rfl := Host.Outcome.next.inj (e.symm.trans h)
    · exact .single (.hold hk)
    · refine .tail (.tail (trapEnter_acts rfl s) (.take c rest ?_)) (.setReg _ _ (.inl rfl))
      rwa [trapEnter_input]
  | trapOut =>
    obtain rfl := Host.Outcome.next.inj h
    exact .tail (trapEnter_acts rfl s) (.emit [.byte _])
  | trapPuts =>
    obtain rfl := Host.Outcome.next.inj h
    exact (trapEnter_acts rfl s).trans (stringPart_acts (.inl rfl) _ _ _)
  | trapIn =>
    have enter : Acts .trapIn s s.trapEnter.prompt := (trapEnter_acts rfl s).trans (prompt_acts _)
    rcases exec_trapIn_cases s with ⟨hk, e⟩ | ⟨c, rest, hk, e⟩ <;>
      obtain rfl := Host.Outcome.next.inj (e.symm.trans h)
    · refine enter.tail (.hold ?_)
      rwa [prompt_input, trapEnter_input]
    · have taken : Acts .trapIn s (s.trapEnter.prompt.consume rest) :=
        enter.tail (.take c rest (by rwa [prompt_input, trapEnter_input]))
      exact ((taken.tail (.setReg 0#3 _ (.inl rfl))).tail (.emit [.byte c])).tail
        (.setPrompted false rfl)
  | trapPutsp =>
    obtain rfl := Host.Outcome.next.inj h
    exact (trapEnter_acts rfl s).trans (stringPart_acts (.inr rfl) _ _ _)
  | trapHalt =>
    obtain rfl := Host.Outcome.next.inj h
    exact ((trapEnter_acts rfl s).tail (.emit (s.haltNotice.map .byte))).tail (.emit [.flush])
      |>.tail (.halt rfl)
  | trapUndef00 | trapUndef26 | trapUndef28 | trapUndef30 | trapUndef40 | trapUndef80 =>
    obtain rfl := Host.Outcome.next.inj h
    exact (trapEnter_acts rfl s).tail (.raise _ _ rfl)
  | rti | res =>
    obtain rfl := Host.Outcome.next.inj h
    exact .single (.raise _ _ rfl)

/-- The three kinds of step: of a run that has ended, inside a string routine, and of an instruction. -/
theorem step_cases {s t : State} (h : step s = .next t) :
    (s.run ≠ .running ∧ t = s) ∨
    (s.run = .running ∧ ∃ r a, s.inString = some (r, a) ∧ t = s.stringPart r a) ∨
    (s.run = .running ∧ s.inString = none ∧ exec (decodeWord s.fetch.1) s.fetch.2 = .next t) := by
  by_cases hrun : s.run = .running
  · rcases hstring : s.inString with _ | ⟨r, a⟩
    · exact .inr (.inr ⟨hrun, rfl, step_running s hrun hstring ▸ h⟩)
    · exact .inr (.inl ⟨hrun, r, a, rfl, (Host.Outcome.next.inj (step_string s hrun hstring ▸ h)).symm⟩)
  · exact .inl ⟨hrun, (Host.Outcome.next.inj (step_ended s hrun ▸ h)).symm⟩

/-- Every step is made of operations of one instruction. -/
theorem step_acts {s t : State} (h : step s = .next t) : ∃ i, Acts i s t := by
  rcases step_cases h with ⟨-, rfl⟩ | ⟨-, r, a, -, rfl⟩ | ⟨-, -, hexec⟩
  · exact ⟨.trapPuts, .refl⟩
  · exact ⟨.trapPuts, stringPart_acts (.inl rfl) s r a⟩
  · have fetched : Acts (decodeWord s.fetch.1) s s.fetch.2 :=
      .tail (.single (.read s.pc)) (.setPc (s.pc + 1#16))
    exact ⟨_, fetched.trans (exec_acts hexec)⟩

/-- What every operation of every instruction keeps, and is reflexive and transitive, every run keeps. -/
theorem run_keeps {R : State → State → Prop} (refl : ∀ s, R s s)
    (trans : ∀ s t u, R s t → R t u → R s u) (act : ∀ i s t, Act i s t → R s t) {n : Nat} {s t : State}
    (h : Host.Core.run Sys2Proof.core n s = .next t) : R s t := by
  refine run_induction refl trans (fun s t hstep => ?_) n s t h
  obtain ⟨i, hi⟩ := step_acts hstep
  exact hi.keep refl trans (act i)

end Sys2Proof.Machine
end

section
/-! PROOFS. Rules of the whole machine, read off the operations of a step: the parameters, COND, the general
registers, the log and the input (10_state R20 to R25, R34 to R36). -/

namespace Sys2Proof.Machine

/-! ## The parameters -/

theorem SameParams.refl (s : State) : SameParams s s := ⟨rfl, rfl, rfl⟩

theorem SameParams.trans (s t u : State) : SameParams s t → SameParams t u → SameParams s u := by
  rintro ⟨hlinks, hnotice, hprompt⟩ ⟨hlinks', hnotice', hprompt'⟩
  exact ⟨hlinks'.trans hlinks, hnotice'.trans hnotice, hprompt'.trans hprompt⟩

theorem Act.sameParams {i : Instr} {s t : State} (h : Act i s t) : SameParams s t := by
  cases h with
  | read => simp [SameParams]
  | _ => exact .refl _

theorem Acts.sameParams {i : Instr} {s t : State} (h : Acts i s t) : SameParams s t :=
  h.keep SameParams.refl SameParams.trans fun _ _ => Act.sameParams

/-- Settles O58, by induction over the operations of the run. -/
theorem parametersNeverChange : Obligations.ParametersNeverChange :=
  fun _ _ _ h => run_keeps SameParams.refl SameParams.trans (fun _ _ _ => Act.sameParams) h

/-! ## COND -/

theorem signFlag_oneHot (v : Word) :
    signFlag v = 0b100#3 ∨ signFlag v = 0b010#3 ∨ signFlag v = 0b001#3 := by
  unfold signFlag
  split
  · exact .inr (.inl rfl)
  · split
    · exact .inl rfl
    · exact .inr (.inr rfl)

theorem setFlags_condOneHot (s : State) (r : Reg) : (s.setFlags r).condOneHot :=
  signFlag_oneHot (s.reg r)

theorem Act.cond {i : Instr} (hi : i.setsFlags = false) {s t : State} (h : Act i s t) :
    t.cond = s.cond := by
  cases h with
  | read => exact afterRead_cond ..
  | setFlags r hset => exact absurd hset (by simp [hi])
  | _ => rfl

theorem Act.condOneHot {i : Instr} {s t : State} (h : Act i s t) (hs : s.condOneHot) :
    t.condOneHot := by
  cases h with
  | read a => simpa [State.condOneHot] using hs
  | setFlags r => exact setFlags_condOneHot s r
  | _ => exact hs

/-- Settles O49: without SetFlags no operation changes COND, and SetFlags comes last. -/
theorem condWrittenOnlyBySetFlags : Obligations.CondWrittenOnlyBySetFlags := by
  intro i s t h
  refine ⟨fun hi => (exec_acts h).keep_field State.cond fun _ _ => Act.cond hi, fun hi => ?_⟩
  obtain ⟨u, r, e⟩ := exec_of_setsFlags hi s
  obtain rfl := Host.Outcome.next.inj (e.symm.trans h)
  exact setFlags_condOneHot u r

/-- Settles O51, over the operations of a step. -/
theorem condStaysOneHot : Obligations.CondStaysOneHot := by
  intro s t hs h
  obtain ⟨i, hi⟩ := step_acts h
  exact hi.keep (R := fun s t => s.condOneHot → t.condOneHot) (fun _ => id)
    (fun _ _ _ hst htu => htu ∘ hst) (fun _ _ => Act.condOneHot) hs

/-! ## The general registers -/

theorem Act.reg {i : Instr} {s t : State} (h : Act i s t) (r : Reg)
    (hr : ¬ i.mayWrite s.trapLinksR7 r) : t.reg r = s.reg r := by
  cases h with
  | read => exact afterRead_reg ..
  | setReg d v hd => exact setReg_reg_ne s d r v fun e => hr (e ▸ hd)
  | _ => rfl

theorem Acts.reg {i : Instr} {s t : State} (h : Acts i s t) (r : Reg)
    (hr : ¬ i.mayWrite s.trapLinksR7 r) : t.reg r = s.reg r := by
  induction h with
  | refl => rfl
  | tail hacts hact ih => exact (hact.reg r ((Acts.sameParams hacts).1 ▸ hr)).trans ih

/-- Settles O52, over the operations of the instruction; TRAP_LINKS_R7 is the same before each of them. -/
theorem registersWrittenOnlyAsAllowed : Obligations.RegistersWrittenOnlyAsAllowed :=
  fun _ _ _ r h hr => (exec_acts h).reg r hr

/-! ## The log and the input -/

/-- The log of `t` is that of `s` with events after it (10_state R35). -/
def LogGrows (s t : State) : Prop := ∃ more, t.outLog = s.outLog ++ more

theorem LogGrows.refl (s : State) : LogGrows s s := ⟨[], (List.append_nil _).symm⟩

theorem LogGrows.trans (s t u : State) : LogGrows s t → LogGrows t u → LogGrows s u := by
  rintro ⟨more, h⟩ ⟨later, h'⟩
  exact ⟨more ++ later, by rw [h', h, List.append_assoc]⟩

theorem Act.logGrows {i : Instr} {s t : State} (h : Act i s t) : LogGrows s t := by
  cases h with
  | read a => exact ⟨[], by simp⟩
  | emit events => exact ⟨events, rfl⟩
  | _ => exact .refl _

theorem Act.drawn {i : Instr} {s t : State} (h : Act i s t) : Drawn s t := by
  cases h with
  | read a => exact afterRead_drawn s a
  | take c rest hk => exact consume_drawn s hk
  | hold hk => exact hold_drawn s hk
  | _ => exact .refl _

/-- One call leaves the listed answers after the first. -/
theorem rest_listed (i : Input) : i.rest.listed = i.listed.drop 1 := by
  rcases i with ⟨_ | ⟨a, listed⟩, later⟩ <;> rfl

theorem drop_listed (k : Nat) (i : Input) : (i.drop k).listed = i.listed.drop k := by
  induction k generalizing i with
  | zero => rfl
  | succ k ih => rw [drop_succ, ih, rest_listed, List.drop_drop, Nat.add_comm]

/-- A call of a finite `IN` leaves it finite, and the characters left are fewer by the one it finds. -/
theorem keysLeft_rest (i : Input) (h : i.later = .always .idle) :
    i.rest.later = .always .idle ∧
      (if i.answer = .idle then 0 else 1) + keysLeft i.rest.listed = keysLeft i.listed := by
  rcases i with ⟨_ | ⟨_ | c, listed⟩, later⟩
  · obtain rfl : later = .always .idle := h
    exact ⟨rfl, rfl⟩
  · exact ⟨h, Nat.zero_add _⟩
  · exact ⟨h, Nat.add_comm ..⟩

/-- The characters of the first `k` calls of a finite `IN` and those left after them are all there are. -/
theorem keysLeft_drop (k : Nat) (i : Input) (h : i.later = .always .idle) :
    (i.drop k).later = .always .idle ∧ i.keys k + keysLeft (i.drop k).listed = keysLeft i.listed := by
  induction k generalizing i with
  | zero => exact ⟨h, Nat.zero_add _⟩
  | succ k ih =>
    obtain ⟨hlater, hrest⟩ := keysLeft_rest i h
    obtain ⟨hdrop, hkeys⟩ := ih i.rest hlater
    refine ⟨hdrop, ?_⟩
    rw [drop_succ, Input.keys]
    omega

/-- Settles O57: every operation lets the log grow and draws answers in order; the rest follows from the
number of answers drawn. -/
theorem inputAndOutputAreAccounted : Obligations.InputAndOutputAreAccounted := by
  intro n s t h
  have hlog : LogGrows s t := run_keeps LogGrows.refl LogGrows.trans (fun _ _ _ => Act.logGrows) h
  have hdrawn : Drawn s t := run_keeps Drawn.refl (fun _ _ _ => Drawn.trans) (fun _ _ _ => Act.drawn) h
  obtain ⟨k, hinput, hpos⟩ := hdrawn
  refine ⟨hlog, ⟨k, hinput, hpos⟩, ⟨s.input.listed.take k, ?_⟩, ?_, fun hfinite => ?_⟩
  · rw [hinput, drop_listed, List.take_append_drop]
  · omega
  · obtain ⟨hlater, hkeys⟩ := keysLeft_drop k s.input hfinite
    rw [hinput]
    exact ⟨hlater, by omega⟩

/-! ## The end of a run -/

/-- Settles O55: a step of an ended run answers the same state. -/
theorem endedRunIsFrozen : Obligations.EndedRunIsFrozen := by
  intro n s h
  have hrun : s.run ≠ .running := by
    rcases h with h | h <;> simp [h]
  exact run_fixed s (step_ended s hrun) n

/-! ## RUN -/

/-- Only HALT and the instructions that raise a fault change RUN. -/
theorem Act.run {i : Instr} (hf : i.raises = none) (hh : i ≠ .trapHalt) {s t : State} (h : Act i s t) :
    t.run = s.run := by
  cases h with
  | read => exact afterRead_run ..
  | raise f w hraise => exact absurd hraise (by simp [hf])
  | halt hhalt => exact absurd hhalt hh
  | _ => rfl

/-- FAULT is written by an instruction that raises a fault only. -/
theorem Act.fault {i : Instr} (hf : i.raises = none) {s t : State} (h : Act i s t) :
    t.fault = s.fault := by
  cases h with
  | read => exact afterRead_fault ..
  | raise f w hraise => exact absurd hraise (by simp [hf])
  | _ => rfl

/-- What RUN is after an instruction that a running machine executes (10_state R26). -/
theorem exec_run {i : Instr} {s t : State} (hs : s.run = .running) (h : exec i s = .next t) :
    (t.run = .halted ↔ i = .trapHalt) ∧ (t.run = .faulted ↔ ∃ f, i.raises = some f) := by
  rcases hraise : i.raises with _ | f
  · by_cases hh : i = .trapHalt
    · subst hh
      simp [exec_trapHalt_run h]
    · have hrun := (exec_acts h).keep_field State.run fun _ _ => Act.run hraise hh
      simp [hrun, hs, hh]
  · have hh : i ≠ .trapHalt := by rintro rfl; cases hraise
    obtain ⟨u, -, e⟩ := exec_of_raises hraise s
    obtain rfl := Host.Outcome.next.inj (e.symm.trans h)
    simp [hh]

/-- A step's share of a string routine is made of operations of PUTS, so that it leaves RUN alone. -/
theorem stringPart_run (s : State) (r : StringRoutine) (a : Word) : (s.stringPart r a).run = s.run :=
  (stringPart_acts (i := .trapPuts) (.inl rfl) s r a).keep_field State.run
    fun _ _ => Act.run rfl (by decide)

/-- Settles O54, by the three kinds of step. -/
theorem runStateTransitions : Obligations.RunStateTransitions := by
  intro s t h
  rcases step_cases h with ⟨hrun, rfl⟩ | ⟨hrun, r, a, hstring, rfl⟩ | ⟨hrun, hstring, hexec⟩
  · exact ⟨fun _ => rfl, fun hr => absurd hr hrun, fun hr => absurd hr hrun, fun hr => absurd hr hrun⟩
  · have hnone : s.inString ≠ none := by simp [hstring]
    exact ⟨absurd hrun, fun _ _ => (stringPart_run s r a).trans hrun,
      fun _ hn => absurd hn hnone, fun _ hn => absurd hn hnone⟩
  · obtain ⟨hhalted, hfaulted⟩ := exec_run (s := s.fetch.2) (by simpa using hrun) hexec
    exact ⟨absurd hrun, fun _ hs => absurd hstring hs, fun _ _ => hhalted, fun _ _ => hfaulted⟩

end Sys2Proof.Machine
end

section
/-! PROOFS. The invariant of the states of a run (10_state R26, R27, 60_exceptions R139): it holds at every launch
and every step keeps it. -/

namespace Sys2Proof.Machine

/-! ## The word that a fault records raises the fault again -/

/-- A word of format TV decodes by its vector (30_encoding R67). -/
theorem decodeWord_encodeTV (ign : BitVec 4) (v : BitVec 8) :
    decodeWord (encodeTV ign v) = decodeTrap ign v := by
  obtain ⟨hop, hign, hvector⟩ := fields_encodeTV ign v
  simp only [decodeWord, hop, opcodeOfNumber_number, hign, hvector]

theorem decodeWord_encode_rti (ign : BitVec 12) : decodeWord (encode (.rti ign)) = .rti ign := by
  obtain ⟨hop, hign⟩ := fields_encode_rti ign
  simp only [decodeWord, hop, opcodeOfNumber_number, hign]

theorem decodeWord_encode_res (ign : BitVec 12) : decodeWord (encode (.res ign)) = .res ign := by
  obtain ⟨hop, hign⟩ := fields_encode_res ign
  simp only [decodeWord, hop, opcodeOfNumber_number, hign]

/-- A TRAP that raises keeps its ignored bits and its vector as operands, so that its word is that of its fields. -/
theorem encode_decodeTrap_of_raises {ign : BitVec 4} {v : BitVec 8} {f : FaultCause}
    (h : (decodeTrap ign v).raises = some f) : encode (decodeTrap ign v) = encodeTV ign v := by
  revert h
  unfold decodeTrap
  repeat' split
  all_goals simp [Instr.raises, encode]

/-- The words that raise are those of RTI and RES, and some of those of TRAP (60_exceptions R137, R138). -/
theorem decodeWord_of_raises {w : Word} {f : FaultCause} (h : (decodeWord w).raises = some f) :
    (∃ ign, decodeWord w = .rti ign) ∨ (∃ ign, decodeWord w = .res ign) ∨
      ∃ ign v, decodeWord w = decodeTrap ign v := by
  unfold decodeWord at h ⊢
  cases hop : opcodeOfNumber (fieldOpcode w) <;> simp only [hop] at h ⊢
  case rti => exact .inl ⟨_, rfl⟩
  case res => exact .inr (.inl ⟨_, rfl⟩)
  case trap => exact .inr (.inr ⟨_, _, rfl⟩)
  case add | and | jsr => split at h <;> exact nomatch h
  all_goals exact nomatch h

/-- A word that raises when it is fetched does so when the word recorded for it is decoded (60_exceptions R139). -/
theorem decodeWord_encode_of_raises {w : Word} {f : FaultCause} (h : (decodeWord w).raises = some f) :
    (decodeWord (encode (decodeWord w))).raises = some f := by
  rcases decodeWord_of_raises h with ⟨ign, e⟩ | ⟨ign, e⟩ | ⟨ign, v, e⟩ <;> rw [e] at h ⊢
  · rwa [decodeWord_encode_rti]
  · rwa [decodeWord_encode_res]
  · rwa [encode_decodeTrap_of_raises h, decodeWord_encodeTV]

/-! ## The parts of the invariant under the operations of a step -/

theorem Act.mem_wf {i : Instr} {s t : State} (h : Act i s t) (hs : s.mem.wf) : t.mem.wf := by
  cases h with
  | read a => exact afterRead_wf s a hs
  | memWrite a v => exact memWrite_wf s a v hs
  | _ => exact hs

theorem Acts.mem_wf {i : Instr} {s t : State} (h : Acts i s t) : s.mem.wf → t.mem.wf :=
  h.keep (R := fun s t => s.mem.wf → t.mem.wf) (fun _ => id) (fun _ _ _ hst htu => htu ∘ hst)
    fun _ _ => Act.mem_wf

/-- Only IN is ever held after its prompt. -/
theorem Act.inPrompted {i : Instr} (hi : i ≠ .trapIn) {s t : State} (h : Act i s t) :
    t.inPrompted = s.inPrompted := by
  cases h with
  | read => exact afterRead_inPrompted ..
  | setPrompted b hin => exact absurd hin hi
  | _ => rfl

/-- Only PUTS and PUTSP lead into a string routine. -/
theorem Act.inString {i : Instr} (hi : ¬(i = .trapPuts ∨ i = .trapPutsp)) {s t : State}
    (h : Act i s t) : t.inString = s.inString := by
  cases h with
  | read => exact afterRead_inString ..
  | setString place hputs => exact absurd hputs hi
  | _ => rfl

/-- While the machine is running, `FAULT` is empty (10_state R27). -/
theorem fault_of_running {s : State} (h : s.faultOk) (hrun : s.run = .running) : s.fault = none := by
  unfold State.faultOk at h
  split at h
  · assumption
  · obtain ⟨hfaulted, -⟩ := h
    rw [hrun] at hfaulted
    exact nomatch hfaulted

theorem faultOk_of_none {s : State} (hfault : s.fault = none) (hrun : s.run ≠ .faulted) : s.faultOk := by
  unfold State.faultOk
  rwa [hfault]

theorem promptOk_of_not {s : State} (h : s.inPrompted = false) : s.promptOk :=
  fun hheld => absurd hheld (by simp [h])

theorem stringOk_of_none {s : State} (h : s.inString = none) : s.stringOk :=
  fun hin => absurd h hin

/-- A running machine that holds no IN meets the invariant, inside a string routine or not, if its memory is in
canonical form and `FAULT` is empty. -/
theorem inv_of_running {s : State} (hmem : s.mem.wf) (hrun : s.run = .running) (hfault : s.fault = none)
    (hprompted : s.inPrompted = false) : s.Inv where
  memory := hmem
  faults := faultOk_of_none hfault (by simp [hrun])
  prompt := promptOk_of_not hprompted
  strings := fun _ => ⟨hrun, hprompted⟩

/-! ## The invariant over a step -/

/-- The word that a poll leaves in KBSR is RTI or a BR, never an IN (70_reset R166). -/
theorem decodeWord_poll_ne_trapIn (s : State) : decodeWord (s.poll.cell kbsr) ≠ .trapIn := by
  rcases poll_cell_kbsr s with e | e <;> rw [e] <;> decide

/-- An IN is fetched from a cell that holds it, not from KBSR. -/
theorem fetch_trapIn {s : State} (h : decodeWord s.fetch.1 = .trapIn) :
    s.pc ≠ kbsr ∧ s.fetch = (s.cell s.pc, s.setPc (s.pc + 1#16)) := by
  have hpc : s.pc ≠ kbsr := by
    intro hpc
    rw [fetch_fst, hpc, afterRead_kbsr] at h
    exact decodeWord_poll_ne_trapIn s h
  exact ⟨hpc, by rw [State.fetch, memRead_ne s _ hpc]⟩

/-- Where an IN is held, it is what the next step fetches. -/
theorem decode_fetch_of_inPrompted {s : State} (h : s.promptOk) (hheld : s.inPrompted = true) :
    decodeWord s.fetch.1 = .trapIn := by
  obtain ⟨-, hpc, hin⟩ := h hheld
  rwa [State.fetch, memRead_ne s _ hpc]

/-- A part of a string routine keeps the invariant: the machine is running and holds no IN. -/
theorem stringPart_inv {s : State} (h : s.Inv) (hrun : s.run = .running) (hstring : s.inString ≠ none)
    (r : StringRoutine) (a : Word) : (s.stringPart r a).Inv := by
  have acts : Acts .trapPuts s (s.stringPart r a) := stringPart_acts (.inl rfl) s r a
  obtain ⟨-, hprompted⟩ := h.strings hstring
  refine inv_of_running (acts.mem_wf h.memory) ((stringPart_run s r a).trans hrun) ?_ ?_
  · exact (acts.keep_field State.fault fun _ _ => Act.fault rfl).trans (fault_of_running h.faults hrun)
  · exact (acts.keep_field State.inPrompted fun _ _ => Act.inPrompted (by decide)).trans hprompted

/-- A step of IN keeps the invariant: if it is held, the pc is back at it (43_trap R126). -/
theorem step_trapIn_inv {s t : State} (h : s.Inv) (hrun : s.run = .running) (hstring : s.inString = none)
    (hin : decodeWord s.fetch.1 = .trapIn) (hexec : exec .trapIn s.fetch.2 = .next t) : t.Inv := by
  obtain ⟨hpc, hfetch⟩ := fetch_trapIn hin
  rw [hfetch] at hin hexec
  have hmem : t.mem.wf := (exec_acts hexec).mem_wf h.memory
  have hfault : s.fault = none := fault_of_running h.faults hrun
  rcases exec_trapIn_cases (s.setPc (s.pc + 1#16)) with ⟨-, e⟩ | ⟨c, rest, -, e⟩ <;>
    obtain rfl := Host.Outcome.next.inj (e.symm.trans hexec)
  · exact ⟨hmem, faultOk_of_none (by simpa using hfault) (by simp [hrun]),
      fun _ => by simpa [hrun] using ⟨hpc, hin⟩, stringOk_of_none (by simpa using hstring)⟩
  · exact inv_of_running hmem (by simpa using hrun) (by simpa using hfault) rfl

/-- An instruction that raises a fault leaves a state of the invariant: FAULT holds its address and its word
(60_exceptions R139). -/
theorem exec_raises_inv {w : Word} {f : FaultCause} {s t : State} (hraise : (decodeWord w).raises = some f)
    (hmem : s.mem.wf) (hprompted : s.inPrompted = false) (hstring : s.inString = none)
    (hexec : exec (decodeWord w) s = .next t) : t.Inv := by
  have hwf : t.mem.wf := (exec_acts hexec).mem_wf hmem
  obtain ⟨u, hu, e⟩ := exec_of_raises hraise s
  obtain rfl := Host.Outcome.next.inj (e.symm.trans hexec)
  refine ⟨hwf, ⟨rfl, rfl, decodeWord_encode_of_raises hraise⟩, promptOk_of_not ?_, stringOk_of_none ?_⟩ <;>
    rcases hu with rfl | ⟨-, rfl⟩ <;> simpa

/-- HALT leaves a state of the invariant (43_trap R122). -/
theorem exec_trapHalt_inv {s t : State} (hmem : s.mem.wf) (hfault : s.fault = none)
    (hprompted : s.inPrompted = false) (hstring : s.inString = none)
    (hexec : exec .trapHalt s = .next t) : t.Inv := by
  have acts : Acts .trapHalt s t := exec_acts hexec
  refine ⟨acts.mem_wf hmem, faultOk_of_none ?_ ?_, promptOk_of_not ?_, stringOk_of_none ?_⟩
  · exact (acts.keep_field State.fault fun _ _ => Act.fault rfl).trans hfault
  · simp [exec_trapHalt_run hexec]
  · exact (acts.keep_field State.inPrompted fun _ _ => Act.inPrompted (by decide)).trans hprompted
  · exact (acts.keep_field State.inString fun _ _ => Act.inString (by decide)).trans hstring

/-- Any other instruction leaves the machine running, with no fault and no IN held. -/
theorem exec_plain_inv {i : Instr} {s t : State} (hin : i ≠ .trapIn) (hhalt : i ≠ .trapHalt)
    (hraise : i.raises = none) (hmem : s.mem.wf) (hrun : s.run = .running) (hfault : s.fault = none)
    (hprompted : s.inPrompted = false) (hexec : exec i s = .next t) : t.Inv := by
  have acts : Acts i s t := exec_acts hexec
  refine inv_of_running (acts.mem_wf hmem) ?_ ?_ ?_
  · exact (acts.keep_field State.run fun _ _ => Act.run hraise hhalt).trans hrun
  · exact (acts.keep_field State.fault fun _ _ => Act.fault hraise).trans hfault
  · exact (acts.keep_field State.inPrompted fun _ _ => Act.inPrompted hin).trans hprompted

/-- A step that runs an instruction keeps the invariant. -/
theorem step_exec_inv {s t : State} (h : s.Inv) (hrun : s.run = .running) (hstring : s.inString = none)
    (hexec : exec (decodeWord s.fetch.1) s.fetch.2 = .next t) : t.Inv := by
  by_cases hin : decodeWord s.fetch.1 = .trapIn
  · exact step_trapIn_inv h hrun hstring hin (hin ▸ hexec)
  · have hmem : s.fetch.2.mem.wf := afterRead_wf s s.pc h.memory
    have hrun' : s.fetch.2.run = .running := by simpa using hrun
    have hfault : s.fetch.2.fault = none := by simpa using fault_of_running h.faults hrun
    have hstring' : s.fetch.2.inString = none := by simpa using hstring
    have hprompted : s.fetch.2.inPrompted = false := by
      simpa using fun hheld => hin (decode_fetch_of_inPrompted h.prompt hheld)
    rcases hraise : (decodeWord s.fetch.1).raises with _ | f
    · by_cases hhalt : decodeWord s.fetch.1 = .trapHalt
      · exact exec_trapHalt_inv hmem hfault hprompted hstring' (hhalt ▸ hexec)
      · exact exec_plain_inv hin hhalt hraise hmem hrun' hfault hprompted hexec
    · exact exec_raises_inv hraise hmem hprompted hstring' hexec

/-- Settles O42, by the three kinds of step. -/
theorem invariantKeptByStep : Obligations.InvariantKeptByStep := by
  intro s t h hstep
  rcases step_cases hstep with ⟨-, rfl⟩ | ⟨hrun, r, a, hstring, rfl⟩ | ⟨hrun, hstring, hexec⟩
  · exact h
  · exact stringPart_inv h hrun (by simp [hstring]) r a
  · exact step_exec_inv h hrun hstring hexec

/-! ## The invariant at the launch -/

/-- A launch begins running, with FAULT empty and no IN held (70_reset R155). -/
theorem launch_inv (l : Launch) (h : l.memInit.wf) : (State.launch l).Inv :=
  inv_of_running h rfl rfl rfl

/-- Settles O41; `State.reset` is the bare launch, whose memory lists no cell. -/
theorem invariantAtReset : Obligations.InvariantAtReset :=
  ⟨launch_inv, launch_inv Launch.bare ⟨.nil, fun _ hc => nomatch hc⟩, Launch.bare, rfl⟩

end Sys2Proof.Machine
end

section
/-! PROOFS. What the core does not read: a run from a state with other events in the log, or an instruction other
than BR from one with another COND, does the same (10_state R25, R35). -/

namespace Sys2Proof.Machine

/-- `s` with COND changed by `g` and with events put before its log. -/
def State.altered (s : State) (g : BitVec 3 → BitVec 3) (before : List OutEvent) : State :=
  { s with cond := g s.cond, outLog := before ++ s.outLog }

section

variable (s : State) (g : BitVec 3 → BitVec 3) (before : List OutEvent)

/-! ## What is the same in the altered state -/

@[simp] theorem altered_pc : (s.altered g before).pc = s.pc := rfl
@[simp] theorem altered_input : (s.altered g before).input = s.input := rfl
@[simp] theorem altered_trapLinksR7 : (s.altered g before).trapLinksR7 = s.trapLinksR7 := rfl
@[simp] theorem altered_haltNotice : (s.altered g before).haltNotice = s.haltNotice := rfl
@[simp] theorem altered_inPrompt : (s.altered g before).inPrompt = s.inPrompt := rfl
@[simp] theorem altered_inPrompted : (s.altered g before).inPrompted = s.inPrompted := rfl
@[simp] theorem altered_reg (r : Reg) : (s.altered g before).reg r = s.reg r := rfl
@[simp] theorem altered_cell (a : Word) : (s.altered g before).cell a = s.cell a := rfl
@[simp] theorem altered_eaPc {n : Nat} (offset : BitVec n) :
    (s.altered g before).eaPc offset = s.eaPc offset := rfl
@[simp] theorem altered_eaBase (baseR : Reg) (offset6 : BitVec 6) :
    (s.altered g before).eaBase baseR offset6 = s.eaBase baseR offset6 := rfl

/-! ## Every operation does the same in the altered state -/

@[simp] theorem setReg_altered (r : Reg) (v : Word) :
    (s.altered g before).setReg r v = (s.setReg r v).altered g before := rfl
@[simp] theorem setPc_altered (a : Word) :
    (s.altered g before).setPc a = (s.setPc a).altered g before := rfl
@[simp] theorem memWrite_altered (a v : Word) :
    (s.altered g before).memWrite a v = (s.memWrite a v).altered g before := rfl
@[simp] theorem endPrompt_altered :
    (s.altered g before).endPrompt = s.endPrompt.altered g before := rfl
@[simp] theorem stayInString_altered (r : StringRoutine) (a : Word) :
    (s.altered g before).stayInString r a = (s.stayInString r a).altered g before := rfl
@[simp] theorem raise_altered (f : FaultCause) (w : Word) :
    (s.altered g before).raise f w = (s.raise f w).altered g before := rfl

/-- SetFlags writes COND whatever it held. -/
@[simp] theorem setFlags_altered (r : Reg) :
    (s.altered g before).setFlags r = (s.setFlags r).altered id before := rfl

@[simp] theorem out_altered (b : Byte) :
    (s.altered g before).out b = (s.out b).altered g before := by
  simp [State.out, State.altered]

@[simp] theorem outAll_altered (bs : List Byte) :
    (s.altered g before).outAll bs = (s.outAll bs).altered g before := by
  simp [State.outAll, State.altered]

@[simp] theorem flush_altered : (s.altered g before).flush = s.flush.altered g before := by
  simp [State.flush, State.altered]

@[simp] theorem endString_altered :
    (s.altered g before).endString = s.endString.altered g before := by
  rw [State.endString, flush_altered]
  rfl

@[simp] theorem trapEnter_altered :
    (s.altered g before).trapEnter = s.trapEnter.altered g before := by
  unfold State.trapEnter
  cases h : s.trapLinksR7 <;> simp [h]

@[simp] theorem prompt_altered : (s.altered g before).prompt = s.prompt.altered g before := by
  unfold State.prompt
  cases h : s.inPrompted with
  | true => simp [h]
  | false =>
    simp only [altered_inPrompted, altered_inPrompt, outAll_altered, h]
    rfl

@[simp] theorem ask_altered :
    (s.altered g before).ask = (s.ask.1, s.ask.2.altered g before) := by
  unfold State.ask
  rw [altered_input]
  cases s.input.answer <;> rfl

@[simp] theorem poll_altered : (s.altered g before).poll = s.poll.altered g before := by
  unfold State.poll
  rw [ask_altered]
  rcases s.ask with ⟨_ | c, u⟩ <;> rfl

@[simp] theorem await_altered :
    (s.altered g before).await = s.await.map fun p => (p.1, p.2.altered g before) := by
  unfold State.await
  rw [altered_input]
  rcases firstKey s.input.listed s.input.later with _ | ⟨c, rest⟩ <;> rfl

@[simp] theorem afterRead_altered (a : Word) :
    (s.altered g before).afterRead a = (s.afterRead a).altered g before := by
  unfold State.afterRead
  split
  · exact poll_altered s g before
  · rfl

@[simp] theorem memRead_altered (a : Word) :
    (s.altered g before).memRead a = ((s.memRead a).1, (s.memRead a).2.altered g before) := by
  simp [State.memRead]

@[simp] theorem eaIndirect_altered (offset9 : BitVec 9) :
    (s.altered g before).eaIndirect offset9 =
      ((s.eaIndirect offset9).1, (s.eaIndirect offset9).2.altered g before) :=
  memRead_altered ..

@[simp] theorem fetch_altered :
    (s.altered g before).fetch = (s.fetch.1, s.fetch.2.altered g before) := by
  simp [State.fetch]

/-! ## The string routines -/

theorem putsLoop_altered (fuel : Nat) (a : Word) :
    putsLoop fuel a (s.altered g before) =
      ((putsLoop fuel a s).1, (putsLoop fuel a s).2.altered g before) := by
  induction fuel generalizing a s with
  | zero => rfl
  | succ n ih =>
    simp only [putsLoop_succ, afterRead_altered, altered_cell, out_altered, ih]
    split <;> rfl

theorem putspLoop_altered (fuel : Nat) (a : Word) :
    putspLoop fuel a (s.altered g before) =
      ((putspLoop fuel a s).1, (putspLoop fuel a s).2.altered g before) := by
  induction fuel generalizing a s with
  | zero => rfl
  | succ n ih =>
    simp only [putspLoop_succ, afterRead_altered, altered_cell, out_altered, ih]
    split
    · rfl
    · split <;> rfl

theorem loop_altered (r : StringRoutine) (fuel : Nat) (a : Word) :
    r.loop fuel a (s.altered g before) =
      ((r.loop fuel a s).1, (r.loop fuel a s).2.altered g before) := by
  cases r with
  | puts => exact putsLoop_altered s g before fuel a
  | putsp => exact putspLoop_altered s g before fuel a

@[simp] theorem stringPart_altered (r : StringRoutine) (a : Word) :
    (s.altered g before).stringPart r a = (s.stringPart r a).altered g before := by
  unfold State.stringPart
  rw [altered_input, loop_altered]
  rcases r.loop (stringFuel s.input) a s with ⟨_ | b, u⟩
  · exact endString_altered u g before
  · exact stayInString_altered u g before r b

end

/-! ## Every instruction -/

/-- BR reads COND, and no more than it. -/
@[simp] theorem condMet_altered_id (s : State) (before : List OutEvent) (mask : BitVec 3) :
    (s.altered id before).condMet mask = s.condMet mask := rfl

theorem exec_trapGetc_altered {s t : State} (g : BitVec 3 → BitVec 3) (before : List OutEvent)
    (h : exec .trapGetc s = .next t) :
    exec .trapGetc (s.altered g before) = .next (t.altered g before) := by
  simp only [exec, execTrapGetc, trapEnter_altered, await_altered] at h ⊢
  rcases hw : s.trapEnter.await with _ | ⟨c, u⟩ <;> rw [hw] at h <;>
    obtain rfl := Host.Outcome.next.inj h <;> rfl

theorem exec_trapIn_altered {s t : State} (g : BitVec 3 → BitVec 3) (before : List OutEvent)
    (h : exec .trapIn s = .next t) :
    exec .trapIn (s.altered g before) = .next (t.altered g before) := by
  simp only [exec, execTrapIn, trapEnter_altered, prompt_altered, await_altered] at h ⊢
  rcases hw : s.trapEnter.prompt.await with _ | ⟨c, u⟩ <;> rw [hw] at h <;>
    obtain rfl := Host.Outcome.next.inj h
  · rfl
  · simp

theorem exec_trapHalt_altered (s : State) (g : BitVec 3 → BitVec 3) (before : List OutEvent) :
    exec .trapHalt (s.altered g before) =
      .next (State.altered { (s.trapEnter.outAll s.haltNotice).flush with run := .halted } g before) := by
  simp only [exec, execTrapHalt, trapEnter_altered, altered_haltNotice, outAll_altered, flush_altered]
  rfl

/-- Every instruction does the same whatever stands in the log, and every instruction but BR whatever COND
holds; SetFlags leaves nothing of the old COND (10_state R25, R35). -/
theorem exec_altered {i : Instr} {s t : State} {g : BitVec 3 → BitVec 3} (hg : i.opcode = .br → g = id)
    (before : List OutEvent) (h : exec i s = .next t) :
    exec i (s.altered g before) = .next (t.altered (if i.setsFlags = true then id else g) before) := by
  cases i with
  | addReg | addImm | andReg | andImm | lea | not | jmp | jsr | jsrr | st | str | rti | res =>
    obtain rfl := Host.Outcome.next.inj h
    rfl
  | br cond offset9 =>
    obtain rfl := hg rfl
    obtain rfl := Host.Outcome.next.inj h
    cases hmet : s.condMet cond <;> simp [exec, execBr, hmet, Instr.setsFlags]
  | ld | ldr | ldi | sti =>
    obtain rfl := Host.Outcome.next.inj h
    simp [exec, execLd, execLdr, execLdi, execSti, Instr.setsFlags]
  | trapGetc => exact exec_trapGetc_altered g before h
  | trapIn => exact exec_trapIn_altered g before h
  | trapHalt =>
    obtain rfl := Host.Outcome.next.inj h
    exact exec_trapHalt_altered s g before
  | trapOut | trapPuts | trapPutsp =>
    obtain rfl := Host.Outcome.next.inj h
    simp [exec, execTrapOut, execTrapPuts, execTrapPutsp, Instr.setsFlags]
  | trapUndef00 | trapUndef26 | trapUndef28 | trapUndef30 | trapUndef40 | trapUndef80 =>
    obtain rfl := Host.Outcome.next.inj h
    simp [exec, execTrapUndef00, execTrapUndef26, execTrapUndef28, execTrapUndef30, execTrapUndef40,
      execTrapUndef80, State.raiseVector, Instr.setsFlags]

/-- Settles O50: COND changed to `c`, and the log as it was. -/
theorem condReadOnlyByBranch : Obligations.CondReadOnlyByBranch := by
  intro i s t c hi h
  have haltered := exec_altered (g := fun _ => c) (fun hbr => absurd hbr hi) [] h
  rw [show { s with cond := c } = s.altered (fun _ => c) [] from rfl, haltered]
  split <;> rfl

/-! ## Every step and every run -/

theorem step_altered {s t : State} (before : List OutEvent) (h : step s = .next t) :
    step (s.altered id before) = .next (t.altered id before) := by
  rcases step_cases h with ⟨hrun, rfl⟩ | ⟨hrun, r, a, hstring, rfl⟩ | ⟨hrun, hstring, hexec⟩
  · exact step_ended _ hrun
  · rw [step_string (s.altered id before) hrun hstring, stringPart_altered]
  · rw [step_running (s.altered id before) hrun hstring, fetch_altered]
    have haltered := exec_altered (g := id) (fun _ => rfl) before hexec
    rwa [ite_self] at haltered

/-- Settles O56, by induction over the steps of the run, each of which is the same with the events before. -/
theorem outLogIsNeverRead : Obligations.OutLogIsNeverRead := by
  intro n s t before h
  change Host.Core.run Sys2Proof.core n (s.altered id before) = .next (t.altered id before)
  induction n generalizing s with
  | zero =>
    obtain rfl := Host.Outcome.next.inj h
    rfl
  | succ n ih =>
    obtain ⟨u, hstep, hrun⟩ := run_succ_inv s n h
    rw [run_succ _ n (step_altered before hstep)]
    exact ih u hrun

end Sys2Proof.Machine
end

section
/-! PROOFS. MemRead and MemWrite (20_memory R41, R43): the poll of a read of KBSR, the plain store, and that an
instruction other than a store changes memory by polls alone (20_memory R56). -/

namespace Sys2Proof.Machine

/-! ## The poll, by the next answer -/

section

variable {s : State} {c : Byte}

/-- A poll that finds a character (20_memory R41). -/
theorem poll_of_key (h : s.input.answer = .key c) :
    s.poll = ((s.consume s.input.rest).memWrite kbsr kbsrReady).memWrite kbdr (zext16 c) := by
  simp [State.poll, State.ask, h]

/-- A poll that finds none (20_memory R41). -/
theorem poll_of_idle (h : s.input.answer = .idle) :
    s.poll = (s.decline s.input.rest).memWrite kbsr 0#16 := by
  simp [State.poll, State.ask, h]

theorem kbsr_ne_kbdr : kbsr ≠ kbdr := by decide

theorem poll_cell_kbsr_of_key (h : s.input.answer = .key c) : s.poll.cell kbsr = kbsrReady := by
  rw [poll_of_key h, memWrite_cell_ne _ _ _ _ kbsr_ne_kbdr, memWrite_cell_self]

theorem poll_cell_kbdr_of_key (h : s.input.answer = .key c) : s.poll.cell kbdr = zext16 c := by
  rw [poll_of_key h, memWrite_cell_self]

theorem poll_cell_kbsr_of_idle (h : s.input.answer = .idle) : s.poll.cell kbsr = 0#16 := by
  rw [poll_of_idle h, memWrite_cell_self]

/-- Without a character KBDR is left alone (90_conflicts C3). -/
theorem poll_cell_kbdr_of_idle (h : s.input.answer = .idle) : s.poll.cell kbdr = s.cell kbdr := by
  rw [poll_of_idle h, memWrite_cell_ne _ _ _ _ kbsr_ne_kbdr.symm, decline_cell]

theorem poll_sameMemoryOff_of_idle (h : s.input.answer = .idle) : SameMemoryOff kbsr s s.poll := by
  rw [poll_of_idle h]
  exact memWrite_sameMemoryOff (s.decline s.input.rest) kbsr 0#16

theorem poll_inPos_of_key (h : s.input.answer = .key c) : s.poll.inPos = s.inPos + 1 := by
  simp [poll_of_key h]

theorem poll_inPos_of_idle (h : s.input.answer = .idle) : s.poll.inPos = s.inPos := by
  simp [poll_of_idle h]

end

/-! ## MemRead and MemWrite -/

/-- A read of KBSR returns what its poll leaves there (20_memory R41). -/
theorem memRead_kbsr (s : State) : s.memRead kbsr = (s.poll.cell kbsr, s.poll) := by
  rw [State.memRead, afterRead_kbsr]

/-- Settles O16, by the next answer of the input device. -/
theorem memReadPollsAtKbsr : Obligations.MemReadPollsAtKbsr := by
  intro a s
  refine ⟨memRead_ne s a, fun c ha hkey => ?_, fun ha hidle => ?_⟩
  · obtain rfl : a = kbsr := ha
    rw [memRead_kbsr]
    refine ⟨poll_cell_kbsr_of_key hkey, poll_cell_kbsr_of_key hkey, poll_cell_kbdr_of_key hkey,
      poll_sameMemoryOffKeyboard s, ?_⟩
    rw [poll_of_key hkey]
    rfl
  · obtain rfl : a = kbsr := ha
    rw [memRead_kbsr]
    refine ⟨poll_cell_kbsr_of_idle hidle, poll_cell_kbsr_of_idle hidle,
      poll_sameMemoryOff_of_idle hidle, ?_⟩
    rw [poll_of_idle hidle]
    rfl

/-- Settles O17: the write is plain everywhere; a read at KBSR then polls over what was stored. -/
theorem memWriteIsPlainStore : Obligations.MemWriteIsPlainStore := by
  intro a v s
  refine ⟨memWrite_sameMemoryOff s a v, rfl, memWrite_wf s a v, memWrite_cell_self s a v, fun ha => ?_,
    fun c ha hkey => ?_, fun ha hidle => ?_⟩
  · rw [memRead_ne _ a ha, memWrite_cell_self]
  · obtain rfl : a = kbsr := ha
    rw [memRead_kbsr]
    exact poll_cell_kbsr_of_key hkey
  · obtain rfl : a = kbsr := ha
    rw [memRead_kbsr]
    exact poll_cell_kbsr_of_idle hidle

/-! ## A store to the next instruction -/

/-- ST with offset 0 stores at the address in the pc (42_load_store R104). -/
theorem exec_st_zero (sr : Reg) (s : State) :
    exec (.st sr 0#9) s = .next (s.memWrite s.pc (s.reg sr)) := by
  have hea : s.eaPc 0#9 = s.pc := BitVec.add_zero s.pc
  exact congrArg (fun a => Host.Outcome.next (s.memWrite a (s.reg sr))) hea

/-- The word stored at the pc of a running machine is what its next step runs (20_memory R54). -/
theorem step_memWrite_pc (s : State) {w : Word} (hrun : s.run = .running) (hstring : s.inString = none)
    (hpc : s.pc ≠ kbsr) :
    step (s.memWrite s.pc w) = exec (decodeWord w) ((s.memWrite s.pc w).setPc (s.pc + 1#16)) := by
  rw [step_plain (s.memWrite s.pc w) hrun hstring hpc, memWrite_pc, memWrite_cell_self]

/-- Settles O45: after the store the pc is at the word it has written, which is not KBSR. -/
theorem storeIsSeenByNextFetch : Obligations.StoreIsSeenByNextFetch := by
  intro s sr hrun hstring hpc hpc' hst
  have hstep := step_plain s hrun hstring hpc
  rw [hst, exec_st_zero] at hstep
  have hnext : s.pc + 2#16 = s.pc + 1#16 + 1#16 := (BitVec.add_assoc s.pc 1#16 1#16).symm
  refine ⟨_, hstep, rfl, ?_⟩
  rw [step_memWrite_pc (s.setPc (s.pc + 1#16)) hrun hstring hpc', setPc_reg, hnext, setPc_pc]

/-! ## Frames of memory -/

section

variable {s t : State}

theorem SameMemory.off (h : SameMemory s t) (a : Word) : SameMemoryOff a s t := fun b _ _ => h b

theorem SameMemory.offKeyboard (h : SameMemory s t) : SameMemoryOffKeyboard s t :=
  fun b _ _ _ _ => h b

end

/-! ## Any number of polls -/

section

variable (s : State) (k : Nat)

/-- The state after `k` polls. -/
def State.polls : State := State.poll^[k] s

theorem polls_zero : s.polls 0 = s := rfl

theorem polls_succ : s.polls (k + 1) = (s.polls k).poll := Function.iterate_succ_apply' ..

theorem polls_polls (j : Nat) : (s.polls j).polls k = s.polls (j + k) := by
  rw [Nat.add_comm]
  exact (Function.iterate_add_apply State.poll k j s).symm

theorem polls_input : (s.polls k).input = s.input.drop k := by
  induction k with
  | zero => rfl
  | succ k ih => rw [polls_succ, poll_input, ih, ← drop_drop k 1 s.input]; rfl

/-- No poll takes back a character. -/
theorem polls_inPos_le : s.inPos ≤ (s.polls k).inPos := by
  induction k with
  | zero => exact le_rfl
  | succ k ih =>
    obtain ⟨j, -, hpos⟩ := poll_drawn (s.polls k)
    rw [polls_succ]
    omega

theorem polls_sameMemoryOffKeyboard : SameMemoryOffKeyboard s (s.polls k) := by
  induction k with
  | zero => exact SameMemory.offKeyboard fun _ => rfl
  | succ k ih =>
    rw [polls_succ]
    exact fun b h1 h2 h3 h4 =>
      (poll_sameMemoryOffKeyboard (s.polls k) b h1 h2 h3 h4).trans (ih b h1 h2 h3 h4)

/-- Polls that consume no character write KBSR alone. -/
theorem polls_sameMemoryOff_of_inPos (h : (s.polls k).inPos = s.inPos) :
    SameMemoryOff kbsr s (s.polls k) := by
  induction k with
  | zero => exact SameMemory.off (fun _ => rfl) kbsr
  | succ k ih =>
    have hle := polls_inPos_le s k
    rw [polls_succ] at h ⊢
    cases hanswer : (s.polls k).input.answer with
    | idle =>
      rw [poll_inPos_of_idle hanswer] at h
      exact fun b hh hl => (poll_sameMemoryOff_of_idle hanswer b hh hl).trans (ih h b hh hl)
    | key c =>
      rw [poll_inPos_of_key hanswer] at h
      omega

/-- Polls leave memory alone, if there are none, or KBSR as the last of them does. -/
theorem polls_cell_kbsr :
    s.polls k = s ∨ (s.polls k).cell kbsr = 0x8000#16 ∨ (s.polls k).cell kbsr = 0x0000#16 := by
  cases k with
  | zero => exact .inl rfl
  | succ k => rw [polls_succ]; exact .inr (poll_cell_kbsr _)

/-- Polls that consume a character leave the last one consumed in KBDR. -/
theorem polls_cell_kbdr (h : (s.polls k).inPos ≠ s.inPos) :
    ∃ (j : Nat) (c : Byte), (s.input.drop j).answer = .key c ∧ (s.polls k).cell kbdr = zext16 c := by
  induction k with
  | zero => exact absurd rfl h
  | succ k ih =>
    rw [polls_succ] at h ⊢
    cases hanswer : (s.polls k).input.answer with
    | idle =>
      rw [poll_inPos_of_idle hanswer] at h
      rw [poll_cell_kbdr_of_idle hanswer]
      exact ih h
    | key c => exact ⟨k, c, by rw [← polls_input, hanswer], poll_cell_kbdr_of_key hanswer⟩

/-- A nonempty list of answers that polls have left as it was has seen no poll. -/
theorem polls_eq_of_listed (h : (s.polls k).input.listed = s.input.listed)
    (hne : s.input.listed ≠ []) : s.polls k = s := by
  have hlen := congrArg List.length h
  rw [polls_input, drop_listed, List.length_drop] at hlen
  have hpos := List.length_pos_iff.mpr hne
  obtain rfl : k = 0 := by omega
  exact polls_zero s

end

/-! ## Memory and the input device change by polls alone -/

/-- All that a poll reads and writes: memory and the input device. -/
def SamePolled (s t : State) : Prop := t.mem = s.mem ∧ SameInput s t

theorem SamePolled.poll {s t : State} (h : SamePolled s t) : SamePolled s.poll t.poll := by
  obtain ⟨hmem, hinput, hpos⟩ := h
  cases hanswer : s.input.answer with
  | idle =>
    rw [poll_of_idle hanswer, poll_of_idle (hinput ▸ hanswer)]
    simp [SamePolled, SameInput, hmem, hinput, hpos]
  | key c =>
    rw [poll_of_key hanswer, poll_of_key (hinput ▸ hanswer)]
    simp [SamePolled, SameInput, hmem, hinput, hpos]

theorem SamePolled.polls {s t : State} (h : SamePolled s t) (k : Nat) :
    SamePolled (s.polls k) (t.polls k) := by
  induction k with
  | zero => exact h
  | succ k ih => rw [polls_succ, polls_succ]; exact ih.poll

/-- Memory and the input device are as some number of polls leaves them. -/
def OnlyPolls (s t : State) : Prop := ∃ k, SamePolled (s.polls k) t

theorem OnlyPolls.of_same {s t : State} (h : SamePolled s t) : OnlyPolls s t := ⟨0, h⟩

theorem OnlyPolls.refl (s : State) : OnlyPolls s s := .of_same ⟨rfl, rfl, rfl⟩

theorem OnlyPolls.trans (s t u : State) : OnlyPolls s t → OnlyPolls t u → OnlyPolls s u := by
  rintro ⟨j, hst⟩ ⟨k, hmem, hinput, hpos⟩
  obtain ⟨hmem', hinput', hpos'⟩ := hst.polls k
  rw [polls_polls] at hmem' hinput' hpos'
  exact ⟨j + k, hmem.trans hmem', hinput.trans hinput', hpos.trans hpos'⟩

theorem afterRead_onlyPolls (s : State) (a : Word) : OnlyPolls s (s.afterRead a) := by
  rcases afterRead_cases s a with ⟨-, e⟩ | ⟨-, e⟩ <;> rw [e]
  · exact ⟨1, rfl, rfl, rfl⟩
  · exact .refl s

theorem stringPart_onlyPolls (s : State) (r : StringRoutine) (a : Word) :
    OnlyPolls s (s.stringPart r a) :=
  stringPart_induction (R := OnlyPolls) .refl .trans afterRead_onlyPolls
    (out := fun _ _ => .of_same ⟨rfl, rfl, rfl⟩) (stop := fun _ => .of_same ⟨rfl, rfl, rfl⟩)
    (stay := fun _ _ _ => .of_same ⟨rfl, rfl, rfl⟩) s r a

theorem trapEnter_onlyPolls (s : State) : OnlyPolls s s.trapEnter :=
  .of_same ⟨trapEnter_mem s, trapEnter_input s, trapEnter_inPos s⟩

/-! ## Every instruction that is no store -/

/-- An instruction that reads and is no store changes memory and the input device by its polls alone. -/
theorem exec_onlyPolls {i : Instr} {s t : State} (hreads : i.readsMemory = true)
    (hstore : i.isStore = false) (h : exec i s = .next t) : OnlyPolls s t := by
  cases i with
  | ld | ldr =>
    obtain rfl := Host.Outcome.next.inj h
    exact afterRead_onlyPolls s _
  | ldi =>
    obtain rfl := Host.Outcome.next.inj h
    exact OnlyPolls.trans _ _ _ (afterRead_onlyPolls s _) (afterRead_onlyPolls (s.afterRead _) _)
  | trapPuts | trapPutsp =>
    obtain rfl := Host.Outcome.next.inj h
    exact OnlyPolls.trans _ _ _ (trapEnter_onlyPolls s) (stringPart_onlyPolls _ _ _)
  | sti => exact nomatch hstore
  | _ => exact nomatch hreads

/-- An instruction that neither reads nor stores leaves memory alone; a GETC or an IN takes its character from
the input device itself, not from the keyboard registers (43_trap R117, R120). -/
theorem exec_mem {i : Instr} {s t : State} (hreads : i.readsMemory = false)
    (hstore : i.isStore = false) (h : exec i s = .next t) : t.mem = s.mem := by
  cases i with
  | addReg | addImm | andReg | andImm | not | lea | jmp | jsr | jsrr | rti | res =>
    obtain rfl := Host.Outcome.next.inj h
    rfl
  | br cond offset9 =>
    obtain rfl := Host.Outcome.next.inj h
    split <;> rfl
  | trapGetc =>
    rcases exec_trapGetc_cases s with ⟨-, e⟩ | ⟨c, rest, -, e⟩ <;>
      obtain rfl := Host.Outcome.next.inj (e.symm.trans h)
    · rfl
    · exact trapEnter_mem s
  | trapIn =>
    rcases exec_trapIn_cases s with ⟨-, e⟩ | ⟨c, rest, -, e⟩ <;>
      obtain rfl := Host.Outcome.next.inj (e.symm.trans h) <;>
      exact (prompt_mem s.trapEnter).trans (trapEnter_mem s)
  | trapOut | trapHalt | trapUndef00 | trapUndef26 | trapUndef28 | trapUndef30 | trapUndef40
  | trapUndef80 =>
    obtain rfl := Host.Outcome.next.inj h
    exact trapEnter_mem s
  | ld | ldi | ldr | sti | trapPuts | trapPutsp => exact nomatch hreads
  | st | str => exact nomatch hstore

/-- Settles O53: a store apart, an instruction that reads changes memory as some number of polls does, and any
other leaves it alone. -/
theorem memoryWrittenOnlyByStoresAndPolls : Obligations.MemoryWrittenOnlyByStoresAndPolls := by
  intro i s t h hstore
  cases hreads : i.readsMemory with
  | false =>
    have same : SameMemory s t := fun b => by rw [exec_mem hreads hstore h]
    exact ⟨same.offKeyboard, fun _ => same, fun _ _ => same, fun _ => same.off kbsr, .inl same,
      fun _ hr => nomatch hr⟩
  | true =>
    obtain ⟨k, hmem, hinput, hpos⟩ := exec_onlyPolls hreads hstore h
    have same_of (e : s.polls k = s) : SameMemory s t := fun b => by rw [hmem, e]
    simp only [SameMemoryOffKeyboard, SameMemoryOff, State.cell, hmem, hinput, hpos]
    exact ⟨polls_sameMemoryOffKeyboard s k, nofun,
      fun hlisted hne => same_of (polls_eq_of_listed s k hlisted hne),
      polls_sameMemoryOff_of_inPos s k, (polls_cell_kbsr s k).imp_left same_of,
      fun hne _ => polls_cell_kbdr s k hne⟩

end Sys2Proof.Machine
end

section
/-! PROOFS. The round trips of the encoding (30_encoding R61, R62, R65, R66, R73), and that the ignored bits have no
effect (30_encoding R68). -/

namespace Sys2Proof.Machine

/-! ## Decoding an encoded instruction -/

/-- A vector in the range of an undefined row selects that row (30_encoding R67, R69, 43_trap R123). -/
theorem decodeWord_encode_undefinedVector {i : Instr} (hraise : i.raises = some .undefinedTrapVector)
    (h : i.wellFormed = true) : decodeWord (encode i) = i := by
  cases i with
  | trapUndef00 ign v | trapUndef26 ign v | trapUndef28 ign v | trapUndef30 ign v | trapUndef40 ign v
  | trapUndef80 ign v =>
    refine (decodeWord_encodeTV ign v).trans ?_
    simp only [Instr.wellFormed, BitVec.ule, Bool.and_eq_true, decide_eq_true_eq] at h
    simp only [decodeTrap, BitVec.ule, decide_eq_true_eq]
    grind
  | _ => exact nomatch hraise

/-- Decoding the word of an instruction gives the instruction back: each format's fields are what was put there. -/
theorem decodeWord_encode {i : Instr} (h : i.wellFormed = true) : decodeWord (encode i) = i := by
  cases i with
  | addReg | andReg => simp [encode, decodeWord, fields_encodeRRR]
  | addImm | andImm => simp [encode, decodeWord, fields_encodeRRI]
  | br | ld | ldi | lea | st | sti => simp [encode, decodeWord, fields_encodeRO]
  | ldr | str => simp [encode, decodeWord, fields_encodeRBO]
  | not => simp [decodeWord, fields_encode_not]
  | jmp => simp [decodeWord, fields_encode_jmp]
  | jsr => simp [decodeWord, fields_encode_jsr]
  | jsrr => simp [decodeWord, fields_encode_jsrr]
  | rti ign => exact decodeWord_encode_rti ign
  | res ign => exact decodeWord_encode_res ign
  | trapGetc | trapOut | trapPuts | trapIn | trapPutsp | trapHalt => exact decodeWord_encodeTV _ _
  | trapUndef00 | trapUndef26 | trapUndef28 | trapUndef30 | trapUndef40 | trapUndef80 =>
    exact decodeWord_encode_undefinedVector rfl h

/-- The bytes of an instruction decode as its word does, and what follows them is left. -/
theorem decode_encodeBytes_append (i : Instr) (rest : List Byte) :
    decode (encodeBytes i ++ rest) = .ok (decodeWord (encode i), rest) := by
  change Except.ok (decodeWord (highHalf (encode i) ++ lowHalf (encode i)), rest) = _
  rw [highHalf_append_lowHalf]

/-- Settles O1: each format's fields are read back as they were put in. -/
theorem decodeEncodeRoundTrip : Obligations.DecodeEncodeRoundTrip := fun i h =>
  ⟨decodeWord_encode h, fun rest => by rw [decode_encodeBytes_append, decodeWord_encode h]⟩

theorem decodeWord_of_encode {w : Word} {i : Instr} (h : i.wellFormed = true) (hw : encode i = w) :
    decodeWord w = i :=
  hw ▸ decodeWord_encode h

/-- Settles O4, by the round trip: each word is the canonical word of the instruction it stands for. -/
theorem sampleWordsDecode : Obligations.SampleWordsDecode :=
  ⟨decodeWord_of_encode rfl rfl, decodeWord_of_encode rfl rfl, decodeWord_of_encode rfl rfl,
    decodeWord_of_encode rfl rfl, decodeWord_of_encode rfl rfl, decodeWord_of_encode rfl rfl,
    decodeWord_of_encode rfl rfl, decodeWord_of_encode rfl rfl⟩

/-! ## Words that agree but in ignored bits -/

/-- The words `v` and `w` differ at most in the bits of `ign`. -/
def AgreeOff (ign v w : Word) : Prop := (v ^^^ w) &&& ~~~ign = 0#16

section
variable {ign v w : Word}

theorem agreeOff_iff : AgreeOff ign v w ↔ ∀ k < 16, ign.getLsbD k = false → v.getLsbD k = w.getLsbD k := by
  simp only [AgreeOff, BitVec.eq_of_getElem_eq_iff]
  refine forall₂_congr fun k hk => ?_
  grind

/-- A field that holds no ignored bit is the same in both words. -/
theorem AgreeOff.extract (h : AgreeOff ign v w) (start len : Nat)
    (hign : ign.extractLsb' start len = 0#len) : v.extractLsb' start len = w.extractLsb' start len := by
  ext k hk
  have hbit : ign.getLsbD (start + k) = false := by
    simpa [hk] using congrArg (BitVec.getLsbD · k) hign
  have := agreeOff_iff.1 h (start + k)
  grind

theorem AgreeOff.of_eq (h : v = w) : AgreeOff ign v w := by
  simp [AgreeOff, h]

/-- With no ignored bit, the words are the same. -/
theorem AgreeOff.eq (h : AgreeOff 0#16 v w) : v = w := by
  simpa using h.extract 0 16 rfl

end

/-! ## The bits of the ignored fields (30_encoding R68), each named by its mask -/

theorem getLsbD_0018 : ∀ k < 16, (0x0018#16).getLsbD k = decide (3 ≤ k ∧ k < 5) := by decide
theorem getLsbD_003F : ∀ k < 16, (0x003F#16).getLsbD k = decide (k < 6) := by decide
theorem getLsbD_0E3F : ∀ k < 16, (0x0E3F#16).getLsbD k = decide (k < 6 ∨ 9 ≤ k ∧ k < 12) := by decide
theorem getLsbD_063F : ∀ k < 16, (0x063F#16).getLsbD k = decide (k < 6 ∨ 9 ≤ k ∧ k < 11) := by decide
theorem getLsbD_0F00 : ∀ k < 16, (0x0F00#16).getLsbD k = decide (8 ≤ k ∧ k < 12) := by decide

/-! ## The vectors of TRAP -/

/-- The vectors that have a routine (30_encoding R67). -/
def definedVectors : List (BitVec 8) := [0x20#8, 0x21#8, 0x22#8, 0x23#8, 0x24#8, 0x25#8]

theorem mem_definedVectors {v : BitVec 8} : v ∈ definedVectors ↔
    v = 0x20#8 ∨ v = 0x21#8 ∨ v = 0x22#8 ∨ v = 0x23#8 ∨ v = 0x24#8 ∨ v = 0x25#8 := by
  simp [definedVectors]

/-- A vector with a routine selects it, whatever the ignored bits, and the canonical word has zeros there. -/
theorem decodeTrap_of_defined {v : BitVec 8} (h : v ∈ definedVectors) (ign : BitVec 4) :
    (decodeTrap ign v).wellFormed = true ∧ (decodeTrap ign v).isTrap = true ∧
      encode (decodeTrap ign v) = encodeTV 0#4 v ∧ ∀ ign', decodeTrap ign' v = decodeTrap ign v := by
  rcases mem_definedVectors.1 h with rfl | rfl | rfl | rfl | rfl | rfl <;>
    exact ⟨rfl, rfl, rfl, fun _ => rfl⟩

/-- Any other vector selects the undefined row whose range it lies in (30_encoding R69, 43_trap R123). -/
theorem decodeTrap_of_undefined {v : BitVec 8} (h : v ∉ definedVectors) (ign : BitVec 4) :
    (decodeTrap ign v).wellFormed = true ∧ (decodeTrap ign v).isTrap = true ∧
      (decodeTrap ign v).raises = some .undefinedTrapVector := by
  simp only [mem_definedVectors, not_or] at h
  obtain ⟨h20, h21, h22, h23, h24, h25⟩ := h
  rw [decodeTrap, if_neg h20, if_neg h21, if_neg h22, if_neg h23, if_neg h24, if_neg h25]
  simp only [BitVec.ule, decide_eq_true_eq]
  repeat' split
  all_goals
    refine ⟨?_, rfl, rfl⟩
    simp only [Instr.wellFormed, BitVec.ule, Bool.and_eq_true, decide_eq_true_eq]
    bv_omega

theorem decodeTrap_wellFormed (ign : BitVec 4) (v : BitVec 8) : (decodeTrap ign v).wellFormed = true := by
  by_cases h : v ∈ definedVectors
  · exact (decodeTrap_of_defined h ign).1
  · exact (decodeTrap_of_undefined h ign).1

theorem decodeTrap_isTrap (ign : BitVec 4) (v : BitVec 8) : (decodeTrap ign v).isTrap = true := by
  by_cases h : v ∈ definedVectors
  · obtain ⟨-, htrap, -⟩ := decodeTrap_of_defined h ign
    exact htrap
  · obtain ⟨-, htrap, -⟩ := decodeTrap_of_undefined h ign
    exact htrap

theorem ignoredBits_of_isTrap {i : Instr} (h : i.isTrap = true) : i.ignoredBits = 0x0F00#16 := by
  cases i with
  | trapGetc | trapOut | trapPuts | trapIn | trapPutsp | trapHalt | trapUndef00 | trapUndef26
  | trapUndef28 | trapUndef30 | trapUndef40 | trapUndef80 => rfl
  | _ => exact nomatch h

/-- Encoding keeps the vector of a decoded TRAP, and maybe the ignored bits. -/
theorem encode_decodeTrap (ign : BitVec 4) (v : BitVec 8) :
    ∃ ign', encode (decodeTrap ign v) = encodeTV ign' v := by
  by_cases h : v ∈ definedVectors
  · obtain ⟨-, -, hencode, -⟩ := decodeTrap_of_defined h ign
    exact ⟨0#4, hencode⟩
  · obtain ⟨-, -, hraise⟩ := decodeTrap_of_undefined h ign
    exact ⟨ign, encode_decodeTrap_of_raises hraise⟩

/-! ## Every word decodes to a well-formed instruction -/

theorem decodeWord_wellFormed (w : Word) : (decodeWord w).wellFormed = true := by
  unfold decodeWord
  cases opcodeOfNumber (fieldOpcode w) with
  | trap => exact decodeTrap_wellFormed _ _
  | add | and | jsr => dsimp only; split <;> rfl
  | _ => rfl

/-! ## The format of a word, filled with the word's own fields -/

/-- A mode bit is set where its field is 1. -/
theorem extract_one_iff (w : Word) (k : Nat) : w.extractLsb' k 1 = 1#1 ↔ w.getLsbD k = true := by
  simp [BitVec.eq_of_getElem_eq_iff]

section
variable {w : Word} {o : Opcode} (hop : opcodeOfNumber (fieldOpcode w) = o)
include hop

theorem encodeRO_fields : encodeRO o (field11to9 w) (fieldOffset9 w) = w := by
  refine BitVec.eq_of_getLsbD_eq fun k hk => ?_
  rw [getLsbD_encodeRO, number_of_opcode hop]
  simp only [fieldOpcode, field11to9, fieldOffset9, BitVec.getLsbD_extractLsb']
  grind

theorem encodeRBO_fields : encodeRBO o (field11to9 w) (field8to6 w) (fieldOffset6 w) = w := by
  refine BitVec.eq_of_getLsbD_eq fun k hk => ?_
  rw [getLsbD_encodeRBO, number_of_opcode hop]
  simp only [fieldOpcode, field11to9, field8to6, fieldOffset6, BitVec.getLsbD_extractLsb']
  grind

theorem encodeRRI_fields (hmode : fieldMode5 w = 1#1) :
    encodeRRI o (field11to9 w) (field8to6 w) (fieldImm5 w) = w := by
  refine BitVec.eq_of_getLsbD_eq fun k hk => ?_
  have hbit : w.getLsbD 5 = true := (extract_one_iff w 5).1 hmode
  rw [getLsbD_encodeRRI, number_of_opcode hop]
  simp only [fieldOpcode, field11to9, field8to6, fieldImm5, BitVec.getLsbD_extractLsb']
  grind

theorem encodeRRR_agreeOff (hmode : fieldMode5 w ≠ 1#1) :
    AgreeOff 0x0018#16 (encodeRRR o (field11to9 w) (field8to6 w) (field2to0 w)) w := by
  refine agreeOff_iff.2 fun k hk hign => ?_
  rw [getLsbD_0018 k hk] at hign
  have hbit : ¬w.getLsbD 5 = true := mt (extract_one_iff w 5).2 hmode
  rw [getLsbD_encodeRRR, number_of_opcode hop]
  simp only [fieldOpcode, field11to9, field8to6, field2to0, BitVec.getLsbD_extractLsb']
  grind

end

section
variable {w : Word}

theorem encode_not_agreeOff (hop : opcodeOfNumber (fieldOpcode w) = .not) :
    AgreeOff 0x003F#16 (encode (.not (field11to9 w) (field8to6 w))) w := by
  refine agreeOff_iff.2 fun k hk hign => ?_
  rw [getLsbD_003F k hk] at hign
  rw [getLsbD_encode_not, number_of_opcode hop]
  simp only [fieldOpcode, field11to9, field8to6, BitVec.getLsbD_extractLsb']
  grind

theorem encode_jmp_agreeOff (hop : opcodeOfNumber (fieldOpcode w) = .jmp) :
    AgreeOff 0x0E3F#16 (encode (.jmp (field8to6 w))) w := by
  refine agreeOff_iff.2 fun k hk hign => ?_
  rw [getLsbD_0E3F k hk] at hign
  rw [getLsbD_encode_jmp, number_of_opcode hop]
  simp only [fieldOpcode, field8to6, BitVec.getLsbD_extractLsb']
  grind

theorem encode_jsr_fields (hop : opcodeOfNumber (fieldOpcode w) = .jsr) (hmode : fieldMode11 w = 1#1) :
    encode (.jsr (fieldOffset11 w)) = w := by
  refine BitVec.eq_of_getLsbD_eq fun k hk => ?_
  have hbit : w.getLsbD 11 = true := (extract_one_iff w 11).1 hmode
  rw [getLsbD_encode_jsr, number_of_opcode hop]
  simp only [fieldOpcode, fieldOffset11, BitVec.getLsbD_extractLsb']
  grind

theorem encode_jsrr_agreeOff (hop : opcodeOfNumber (fieldOpcode w) = .jsr) (hmode : fieldMode11 w ≠ 1#1) :
    AgreeOff 0x063F#16 (encode (.jsrr (field8to6 w))) w := by
  refine agreeOff_iff.2 fun k hk hign => ?_
  rw [getLsbD_063F k hk] at hign
  have hbit : ¬w.getLsbD 11 = true := mt (extract_one_iff w 11).2 hmode
  rw [getLsbD_encode_jsrr, number_of_opcode hop]
  simp only [fieldOpcode, field8to6, BitVec.getLsbD_extractLsb']
  grind

theorem encode_rti_fields (hop : opcodeOfNumber (fieldOpcode w) = .rti) :
    encode (.rti (fieldNfIgnored w)) = w := by
  refine BitVec.eq_of_getLsbD_eq fun k hk => ?_
  rw [getLsbD_encode_rti, number_of_opcode hop]
  simp only [fieldOpcode, fieldNfIgnored, BitVec.getLsbD_extractLsb']
  grind

theorem encode_res_fields (hop : opcodeOfNumber (fieldOpcode w) = .res) :
    encode (.res (fieldNfIgnored w)) = w := by
  refine BitVec.eq_of_getLsbD_eq fun k hk => ?_
  rw [getLsbD_encode_res, number_of_opcode hop]
  simp only [fieldOpcode, fieldNfIgnored, BitVec.getLsbD_extractLsb']
  grind

theorem encodeTV_fields (hop : opcodeOfNumber (fieldOpcode w) = .trap) :
    encodeTV (fieldTrapIgnored w) (fieldVector w) = w := by
  refine BitVec.eq_of_getLsbD_eq fun k hk => ?_
  rw [getLsbD_encodeTV, number_of_opcode hop]
  simp only [fieldOpcode, fieldTrapIgnored, fieldVector, BitVec.getLsbD_extractLsb']
  grind

/-- The ignored bits of a TRAP may change, and no others do. -/
theorem encodeTV_agreeOff (ign ign' : BitVec 4) (v : BitVec 8) :
    AgreeOff 0x0F00#16 (encodeTV ign v) (encodeTV ign' v) := by
  refine agreeOff_iff.2 fun k hk hign => ?_
  rw [getLsbD_0F00 k hk] at hign
  rw [getLsbD_encodeTV, getLsbD_encodeTV]
  grind

end

/-! ## Encoding a decoded word -/

/-- Encoding what a word decodes to gives the word back, but for ignored bits. -/
theorem encode_decodeWord_agreeOff (w : Word) :
    AgreeOff (decodeWord w).ignoredBits (encode (decodeWord w)) w := by
  unfold decodeWord
  cases hop : opcodeOfNumber (fieldOpcode w) with
  | br | ld | st | ldi | sti | lea => exact .of_eq (encodeRO_fields hop)
  | ldr | str => exact .of_eq (encodeRBO_fields hop)
  | rti => exact .of_eq (encode_rti_fields hop)
  | res => exact .of_eq (encode_res_fields hop)
  | not => exact encode_not_agreeOff hop
  | jmp => exact encode_jmp_agreeOff hop
  | add | and =>
    dsimp only
    split
    · next hmode => exact .of_eq (encodeRRI_fields hop hmode)
    · next hmode => exact encodeRRR_agreeOff hop hmode
  | jsr =>
    dsimp only
    split
    · next hmode => exact .of_eq (encode_jsr_fields hop hmode)
    · next hmode => exact encode_jsrr_agreeOff hop hmode
  | trap =>
    dsimp only
    obtain ⟨ign, e⟩ := encode_decodeTrap (fieldTrapIgnored w) (fieldVector w)
    rw [ignoredBits_of_isTrap (decodeTrap_isTrap _ _), e]
    simpa only [encodeTV_fields hop] using encodeTV_agreeOff ign (fieldTrapIgnored w) (fieldVector w)

/-- Settles O2: opcode by opcode, the fields that the decoder reads are all of the word but its ignored bits. -/
theorem decodeIsTotalAndKeepsFields : Obligations.DecodeIsTotalAndKeepsFields := fun w =>
  ⟨decodeWord_wellFormed w, encode_decodeWord_agreeOff w⟩

/-! ## Ignored bits have no effect -/

/-- `i` and `i'` are one instruction, or they raise the same fault in the same way. -/
structure SameButIgnored (i i' : Instr) : Prop where
  raises : i'.raises = i.raises
  isTrap : i'.isTrap = i.isTrap
  eq_of_none : i.raises = none → i' = i

theorem SameButIgnored.refl (i : Instr) : SameButIgnored i i := ⟨rfl, rfl, fun _ => rfl⟩

theorem decodeTrap_sameButIgnored (ign ign' : BitVec 4) (v : BitVec 8) :
    SameButIgnored (decodeTrap ign v) (decodeTrap ign' v) := by
  by_cases h : v ∈ definedVectors
  · obtain ⟨-, -, -, heq⟩ := decodeTrap_of_defined h ign
    rw [heq ign']
    exact .refl _
  · obtain ⟨-, htrap, hraise⟩ := decodeTrap_of_undefined h ign
    obtain ⟨-, htrap', hraise'⟩ := decodeTrap_of_undefined h ign'
    exact ⟨hraise'.trans hraise.symm, htrap'.trans htrap.symm, fun hnone => nomatch hraise.symm.trans hnone⟩

/-- No bit of the opcode is ignored. -/
theorem ignoredBits_opcode (i : Instr) : i.ignoredBits.extractLsb' 12 4 = 0#4 := by
  cases i <;> simp only [Instr.ignoredBits] <;> decide

/-- Words that differ in ignored bits alone decode alike: every field that is an operand is the same. -/
theorem AgreeOff.sameButIgnored {w w' : Word} (h : AgreeOff (decodeWord w).ignoredBits w w') :
    SameButIgnored (decodeWord w) (decodeWord w') := by
  have hop' : fieldOpcode w = fieldOpcode w' := h.extract 12 4 (ignoredBits_opcode _)
  unfold decodeWord at h ⊢
  rw [← hop']
  cases hop : opcodeOfNumber (fieldOpcode w) <;> simp only [hop] at h ⊢
  case br | ld | st | ldi | sti | lea | ldr | str =>
    obtain rfl : w = w' := h.eq
    exact .refl _
  case rti | res => exact ⟨rfl, rfl, nofun⟩
  case not =>
    have h : AgreeOff 0x003F#16 w w' := h
    have hdr : field11to9 w = field11to9 w' := h.extract 9 3 (by decide)
    have hsr : field8to6 w = field8to6 w' := h.extract 6 3 (by decide)
    rw [hdr, hsr]
    exact .refl _
  case jmp =>
    have h : AgreeOff 0x0E3F#16 w w' := h
    have hbase : field8to6 w = field8to6 w' := h.extract 6 3 (by decide)
    rw [hbase]
    exact .refl _
  case add | and =>
    by_cases hmode : fieldMode5 w = 1#1 <;> simp only [hmode, if_true, if_false] at h ⊢
    · obtain rfl : w = w' := h.eq
      simp only [hmode, if_true]
      exact .refl _
    · have h : AgreeOff 0x0018#16 w w' := h
      have hmode' : fieldMode5 w = fieldMode5 w' := h.extract 5 1 (by decide)
      have hdr : field11to9 w = field11to9 w' := h.extract 9 3 (by decide)
      have hsr1 : field8to6 w = field8to6 w' := h.extract 6 3 (by decide)
      have hsr2 : field2to0 w = field2to0 w' := h.extract 0 3 (by decide)
      simp only [← hmode', hmode, if_false, hdr, hsr1, hsr2]
      exact .refl _
  case jsr =>
    by_cases hmode : fieldMode11 w = 1#1 <;> simp only [hmode, if_true, if_false] at h ⊢
    · obtain rfl : w = w' := h.eq
      simp only [hmode, if_true]
      exact .refl _
    · have h : AgreeOff 0x063F#16 w w' := h
      have hmode' : fieldMode11 w = fieldMode11 w' := h.extract 11 1 (by decide)
      have hbase : field8to6 w = field8to6 w' := h.extract 6 3 (by decide)
      simp only [← hmode', hmode, if_false, hbase]
      exact .refl _
  case trap =>
    rw [ignoredBits_of_isTrap (decodeTrap_isTrap _ _)] at h
    have hvector : fieldVector w = fieldVector w' := h.extract 0 8 (by decide)
    rw [hvector]
    exact decodeTrap_sameButIgnored _ _ _

/-- An instruction that raises keeps the whole word, which its fault record holds (60_exceptions R136). -/
theorem encode_decodeWord_of_raises {w : Word} {f : FaultCause} (h : (decodeWord w).raises = some f) :
    encode (decodeWord w) = w := by
  unfold decodeWord at h ⊢
  cases hop : opcodeOfNumber (fieldOpcode w) with
  | rti => exact encode_rti_fields hop
  | res => exact encode_res_fields hop
  | trap =>
    rw [hop] at h
    exact (encode_decodeTrap_of_raises h).trans (encodeTV_fields hop)
  | add | and | jsr =>
    simp only [hop] at h
    split at h <;> exact nomatch h
  | _ =>
    rw [hop] at h
    exact nomatch h

/-- What an instruction does before it raises its fault: the entry of a TRAP (43_trap R116, R123). -/
theorem exec_raises {i : Instr} {f : FaultCause} (h : i.raises = some f) (s : State) :
    exec i s = .next ((if i.isTrap then s.trapEnter else s).raise f (encode i)) := by
  cases i with
  | rti | res | trapUndef00 | trapUndef26 | trapUndef28 | trapUndef30 | trapUndef40 | trapUndef80 =>
    obtain rfl := Option.some.inj h
    rfl
  | _ => exact nomatch h

theorem and_eq_zero_of_bits {v m : Word} (h : ∀ k < 16, m.getLsbD k = true → v.getLsbD k = false) :
    v &&& m = 0#16 := by
  refine BitVec.eq_of_getLsbD_eq fun k hk => ?_
  have := h k hk
  grind

/-- In a canonical word the ignored bits are 0, and NOT's are 1 (30_encoding R73). -/
theorem encode_and_ignoredBits {i : Instr} (h : i.raises = none) :
    encode i &&& i.ignoredBits = if i.opcode = .not then 0x003F#16 else 0x0000#16 := by
  cases i with
  | addReg | andReg =>
    refine and_eq_zero_of_bits fun k hk hign => ?_
    rw [Instr.ignoredBits, getLsbD_0018 k hk] at hign
    rw [encode, getLsbD_encodeRRR]
    grind
  | not =>
    refine BitVec.eq_of_getLsbD_eq fun k hk => ?_
    simp only [Instr.ignoredBits, Instr.opcode, if_true, BitVec.getLsbD_and, getLsbD_003F k hk,
      getLsbD_encode_not]
    grind
  | jmp =>
    refine and_eq_zero_of_bits fun k hk hign => ?_
    rw [Instr.ignoredBits, getLsbD_0E3F k hk] at hign
    rw [getLsbD_encode_jmp]
    grind
  | jsrr =>
    refine and_eq_zero_of_bits fun k hk hign => ?_
    rw [Instr.ignoredBits, getLsbD_063F k hk] at hign
    rw [getLsbD_encode_jsrr]
    grind
  | trapGetc | trapOut | trapPuts | trapIn | trapPutsp | trapHalt => rfl
  | addImm | andImm | br | jsr | ld | ldi | ldr | lea | st | sti | str => exact BitVec.and_zero
  | trapUndef00 | trapUndef26 | trapUndef28 | trapUndef30 | trapUndef40 | trapUndef80 | rti | res =>
    exact nomatch h

/-- Settles O3: the words decode alike, and an instruction that raises a fault records its whole word. -/
theorem ignoredBitsHaveNoEffect : Obligations.IgnoredBitsHaveNoEffect := by
  refine ⟨fun w w' s h => ?_, fun i _ => encode_and_ignoredBits⟩
  have same : SameButIgnored (decodeWord w) (decodeWord w') := AgreeOff.sameButIgnored h
  refine ⟨fun hnone => by rw [same.eq_of_none hnone], fun f hf => ?_⟩
  have hf' : (decodeWord w').raises = some f := same.raises.trans hf
  refine ⟨hf', _, exec_raises hf s, ?_⟩
  rw [exec_raises hf', same.isTrap, encode_decodeWord_of_raises hf']
  cases (decodeWord w).isTrap <;> simp [State.raise]

end Sys2Proof.Machine
end

section
/-! PROOFS. The operate instructions ADD, AND and NOT, and SetFlags (40_alu). -/

namespace Sys2Proof.Machine

/-! ## The sign rule -/

section
variable {v : Word}

theorem signFlag_of_zero (h : v = 0#16) : signFlag v = flagZ := if_pos h

theorem signFlag_of_negative (h : v ≠ 0#16) (hsign : v.msb = true) : signFlag v = flagN := by
  rw [signFlag, if_neg h, if_pos hsign]

theorem signFlag_of_positive (h : v ≠ 0#16) (hsign : v.msb = false) : signFlag v = flagP := by
  rw [signFlag, if_neg h, hsign, if_neg Bool.false_ne_true]

end

/-- Settles O6, by the three cases of the sign rule; bit 15 is the sign bit of a word. -/
theorem setFlagsSignRule : Obligations.SetFlagsSignRule := fun _ _ =>
  ⟨signFlag_of_zero,
    fun h hbit => signFlag_of_negative h ((BitVec.msb_eq_getLsbD_last _).trans hbit),
    fun h hbit => signFlag_of_positive h ((BitVec.msb_eq_getLsbD_last _).trans hbit), rfl⟩

/-! ## What a register write and SetFlags leave unchanged -/

theorem setReg_sameRegsOff (s : State) (r : Reg) (v : Word) : SameRegsOff r s (s.setReg r v) :=
  fun q h => setReg_reg_ne s r q v h

theorem setReg_sameOutside (s : State) (r : Reg) (v : Word) : SameOutside s (s.setReg r v) :=
  ⟨fun _ => rfl, ⟨rfl, rfl⟩, rfl, ⟨rfl, rfl, rfl, rfl⟩, ⟨rfl, rfl, rfl⟩⟩

/-- SetFlags writes COND alone, which is no part of this frame. -/
theorem SameOutside.setFlags {s t : State} (h : SameOutside s t) (r : Reg) :
    SameOutside s (t.setFlags r) := h

/-- A result written to `dr` and then given to SetFlags: the flag is that of the new `dr` (40_alu R87), and
nothing but `dr` and COND changes. -/
theorem setReg_setFlags_frame (s : State) (dr : Reg) (v : Word) :
    ((s.setReg dr v).setFlags dr).cond = signFlag (((s.setReg dr v).setFlags dr).reg dr) ∧
    SameRegsOff dr s ((s.setReg dr v).setFlags dr) ∧
    ((s.setReg dr v).setFlags dr).pc = s.pc ∧
    SameOutside s ((s.setReg dr v).setFlags dr) :=
  ⟨rfl, setReg_sameRegsOff s dr v, rfl, (setReg_sameOutside s dr v).setFlags dr⟩

theorem setReg_setFlags_reg (s : State) (dr : Reg) (v : Word) :
    ((s.setReg dr v).setFlags dr).reg dr = v := setReg_reg_self s dr v

/-! ## Decoding by mask and match -/

section
variable {w m v : Word}

/-- Under a mask that covers bits [15:12], a word has the opcode of the match (30_encoding R66). -/
theorem opcode_of_mask (h : w &&& m = v) (hm : m.extractLsb' 12 4 = BitVec.allOnes 4) {o : Opcode}
    (ho : fieldOpcode v = o.number) : opcodeOfNumber (fieldOpcode w) = o := by
  have hop : fieldOpcode w = fieldOpcode v := extract_of_mask h 12 4 hm
  rw [hop, ho, opcodeOfNumber_number]

/-- Under a mask that covers bit 5, a word has the mode of the match (30_encoding R67). -/
theorem mode5_of_mask (h : w &&& m = v) (hm : m.extractLsb' 5 1 = BitVec.allOnes 1) :
    fieldMode5 w = fieldMode5 v := extract_of_mask h 5 1 hm

end

section
variable {w : Word}

theorem decodeWord_add_register (hop : opcodeOfNumber (fieldOpcode w) = .add)
    (hmode : fieldMode5 w = 0#1) :
    decodeWord w = .addReg (field11to9 w) (field8to6 w) (field2to0 w) := by
  simp [decodeWord, hop, hmode]

theorem decodeWord_add_immediate (hop : opcodeOfNumber (fieldOpcode w) = .add)
    (hmode : fieldMode5 w = 1#1) :
    decodeWord w = .addImm (field11to9 w) (field8to6 w) (fieldImm5 w) := by
  simp [decodeWord, hop, hmode]

theorem decodeWord_and_register (hop : opcodeOfNumber (fieldOpcode w) = .and)
    (hmode : fieldMode5 w = 0#1) :
    decodeWord w = .andReg (field11to9 w) (field8to6 w) (field2to0 w) := by
  simp [decodeWord, hop, hmode]

theorem decodeWord_and_immediate (hop : opcodeOfNumber (fieldOpcode w) = .and)
    (hmode : fieldMode5 w = 1#1) :
    decodeWord w = .andImm (field11to9 w) (field8to6 w) (fieldImm5 w) := by
  simp [decodeWord, hop, hmode]

theorem decodeWord_not (hop : opcodeOfNumber (fieldOpcode w) = .not) :
    decodeWord w = .not (field11to9 w) (field8to6 w) := by
  simp only [decodeWord, hop]

end

/-! ## What each instruction does -/

section
variable (dr sr sr1 sr2 : Reg) (imm5 : BitVec 5) (s : State)

theorem exec_addReg : exec (.addReg dr sr1 sr2) s =
    .next ((s.setReg dr (s.reg sr1 + s.reg sr2)).setFlags dr) := rfl

theorem exec_addImm : exec (.addImm dr sr1 imm5) s =
    .next ((s.setReg dr (s.reg sr1 + sext16 imm5)).setFlags dr) := rfl

theorem exec_andReg : exec (.andReg dr sr1 sr2) s =
    .next ((s.setReg dr (s.reg sr1 &&& s.reg sr2)).setFlags dr) := rfl

theorem exec_andImm : exec (.andImm dr sr1 imm5) s =
    .next ((s.setReg dr (s.reg sr1 &&& sext16 imm5)).setFlags dr) := rfl

theorem exec_not : exec (.not dr sr) s = .next (s.setReg dr (~~~(s.reg sr))) := rfl

end

/-- Settles O7: the mask holds the opcode and the mode 0; the result is the sum written to DR with its flag. -/
theorem addRegisterResult : Obligations.AddRegisterResult := by
  refine ⟨fun w h => ?_, fun dr sr1 sr2 s =>
    ⟨_, exec_addReg dr sr1 sr2 s, ?_, setReg_setFlags_frame s dr _⟩⟩
  · exact decodeWord_add_register (opcode_of_mask h (by decide) rfl) (mode5_of_mask h (by decide))
  · rw [setReg_setFlags_reg, BitVec.toNat_add]

/-- Settles O8: as O7, with the mode 1 and the sign-extended immediate. -/
theorem addImmediateResult : Obligations.AddImmediateResult := by
  refine ⟨fun w h => ?_, fun dr sr1 imm5 s =>
    ⟨_, exec_addImm dr sr1 imm5 s, ?_, setReg_setFlags_frame s dr _⟩⟩
  · exact decodeWord_add_immediate (opcode_of_mask h (by decide) rfl) (mode5_of_mask h (by decide))
  · rw [setReg_setFlags_reg, BitVec.toNat_add]

/-- Settles O9: the mask holds the opcode and the mode 0; the conjunction is written to DR with its flag. -/
theorem andRegisterResult : Obligations.AndRegisterResult := by
  refine ⟨fun w h => ?_, fun dr sr1 sr2 s => ⟨_, exec_andReg dr sr1 sr2 s,
    setReg_setFlags_reg s dr _, setReg_setFlags_frame s dr _⟩⟩
  exact decodeWord_and_register (opcode_of_mask h (by decide) rfl) (mode5_of_mask h (by decide))

/-- Settles O10: as O9, with the mode 1 and the sign-extended immediate. -/
theorem andImmediateResult : Obligations.AndImmediateResult := by
  refine ⟨fun w h => ?_, fun dr sr1 imm5 s => ⟨_, exec_andImm dr sr1 imm5 s,
    setReg_setFlags_reg s dr _, setReg_setFlags_frame s dr _⟩⟩
  exact decodeWord_and_immediate (opcode_of_mask h (by decide) rfl) (mode5_of_mask h (by decide))

/-- Settles O11: the complement of a word is its difference from 0xFFFF, and no SetFlags follows. -/
theorem notResult : Obligations.NotResult := by
  refine ⟨fun w h => decodeWord_not (opcode_of_mask h (by decide) rfl), fun dr sr s =>
    ⟨_, exec_not dr sr s, ?_, rfl, setReg_sameRegsOff s dr _, rfl, setReg_sameOutside s dr _⟩⟩
  rw [setReg_reg_self, BitVec.toNat_not]

end Sys2Proof.Machine
end

section
/-! PROOFS. Control transfer: BR, JMP, JSR and JSRR (41_control). Each of them sets the pc and nothing else. -/

namespace Sys2Proof.Machine

/-! ## What setting the pc leaves unchanged -/

theorem setPc_frame (s : State) (a : Word) :
    SameRegs s (s.setPc a) ∧ (s.setPc a).cond = s.cond ∧ SameOutside s (s.setPc a) :=
  ⟨fun _ => rfl, rfl, fun _ => rfl, ⟨rfl, rfl⟩, rfl, ⟨rfl, rfl, rfl, rfl⟩, ⟨rfl, rfl, rfl⟩⟩

/-! ## Decoding by mask and match -/

/-- Under a mask that covers bit 11, a word has the mode of the match (30_encoding R67). -/
theorem mode11_of_mask {w m v : Word} (h : w &&& m = v) (hm : m.extractLsb' 11 1 = BitVec.allOnes 1) :
    fieldMode11 w = fieldMode11 v := extract_of_mask h 11 1 hm

section
variable {w : Word}

theorem decodeWord_br (hop : opcodeOfNumber (fieldOpcode w) = .br) :
    decodeWord w = .br (field11to9 w) (fieldOffset9 w) := by
  simp only [decodeWord, hop]

theorem decodeWord_jmp (hop : opcodeOfNumber (fieldOpcode w) = .jmp) :
    decodeWord w = .jmp (field8to6 w) := by
  simp only [decodeWord, hop]

theorem decodeWord_jsr (hop : opcodeOfNumber (fieldOpcode w) = .jsr) (hmode : fieldMode11 w = 1#1) :
    decodeWord w = .jsr (fieldOffset11 w) := by
  simp [decodeWord, hop, hmode]

theorem decodeWord_jsrr (hop : opcodeOfNumber (fieldOpcode w) = .jsr) (hmode : fieldMode11 w = 0#1) :
    decodeWord w = .jsrr (field8to6 w) := by
  simp [decodeWord, hop, hmode]

end

/-! ## What each instruction does -/

section
variable (s : State)

theorem condMet_iff (mask : CondMask) : s.condMet mask = true ↔ s.cond &&& mask ≠ 0b000#3 := bne_iff_ne

theorem exec_br_taken {cond : CondMask} (h : s.cond &&& cond ≠ 0b000#3) (offset9 : BitVec 9) :
    exec (.br cond offset9) s = .next (s.setPc (s.pc + sext16 offset9)) :=
  congrArg Host.Outcome.next (if_pos ((condMet_iff s cond).mpr h))

/-- A branch that is not taken keeps the incremented pc. -/
theorem exec_br_not_taken {cond : CondMask} (h : s.cond &&& cond = 0b000#3) (offset9 : BitVec 9) :
    exec (.br cond offset9) s = .next (s.setPc s.pc) :=
  congrArg Host.Outcome.next (if_neg fun hmet => (condMet_iff s cond).mp hmet h)

theorem exec_jmp (baseR : Reg) : exec (.jmp baseR) s = .next (s.setPc (s.reg baseR)) := rfl

theorem exec_jsr (offset11 : BitVec 11) :
    exec (.jsr offset11) s = .next (s.setPc (s.pc + sext16 offset11)) := rfl

theorem exec_jsrr (baseR : Reg) : exec (.jsrr baseR) s = .next (s.setPc (s.reg baseR)) := rfl

end

/-- Settles O12, by whether COND and the mask have a flag in common. -/
theorem branchResult : Obligations.BranchResult := by
  refine ⟨fun w h => decodeWord_br (opcode_of_mask h (by decide) rfl), fun cond offset9 s => ?_⟩
  by_cases hmet : s.cond &&& cond = 0b000#3
  · exact ⟨_, exec_br_not_taken s hmet offset9, fun h => absurd hmet h, fun _ => rfl, setPc_frame s _⟩
  · exact ⟨_, exec_br_taken s hmet offset9, fun _ => rfl, fun h => absurd h hmet, setPc_frame s _⟩

/-- Settles O13: the mask holds the opcode alone, and the pc takes the base register as it is. -/
theorem jumpResult : Obligations.JumpResult :=
  ⟨fun _ h => decodeWord_jmp (opcode_of_mask h (by decide) rfl),
    fun baseR s => ⟨_, exec_jmp s baseR, rfl, setPc_frame s _⟩⟩

/-- Settles O14: the mask holds the opcode and the mode 1; no return address is saved (41_control R92). -/
theorem jsrResult : Obligations.JsrResult :=
  ⟨fun _ h => decodeWord_jsr (opcode_of_mask h (by decide) rfl) (mode11_of_mask h (by decide)),
    fun offset11 s => ⟨_, exec_jsr s offset11, rfl, setPc_frame s _⟩⟩

/-- Settles O15: the mask holds the opcode and the mode 0; JSRR and JMP set the pc to the same target. -/
theorem jsrrResult : Obligations.JsrrResult := by
  refine ⟨fun w h => decodeWord_jsrr (opcode_of_mask h (by decide) rfl) (mode11_of_mask h (by decide)),
    fun baseR s => ⟨?_, _, exec_jsrr s baseR, rfl, setPc_frame s _⟩⟩
  rw [exec_jsrr, exec_jmp]

end Sys2Proof.Machine
end

section
/-! PROOFS. Loads, LEA and stores (42_load_store). Every load is one register write after a MemRead, every store one
MemWrite; the indirect forms come after a MemRead of the pointer. -/

namespace Sys2Proof.Machine

/-! ## A MemRead that answers `(p, s1)` -/

section
variable {s s1 : State} {a p : Word}

/-- A MemRead, polling or not, writes no register and has no effect on the log, RUN, FAULT or the parameters
(20_memory R41). -/
theorem memRead_frame (h : s.memRead a = (p, s1)) :
    SameRegs s s1 ∧ s1.cond = s.cond ∧ s1.pc = s.pc ∧ s1.outLog = s.outLog ∧ SameRun s s1 ∧
    SameParams s s1 := by
  obtain rfl : s.afterRead a = s1 := congrArg Prod.snd h
  exact ⟨afterRead_reg s a, afterRead_cond s a, afterRead_pc s a, afterRead_outLog s a,
    ⟨afterRead_run s a, afterRead_fault s a, afterRead_inPrompted s a, afterRead_inString s a⟩,
    ⟨afterRead_trapLinksR7 s a, afterRead_haltNotice s a, afterRead_inPrompt s a⟩⟩

/-- Beside KBSR there is no poll: the answer is the cell, in the state as it was. -/
theorem memRead_inv_of_ne_kbsr (h : s.memRead a = (p, s1)) (ha : a ≠ kbsr) : p = s.cell a ∧ s1 = s :=
  Prod.mk.inj (h.symm.trans (memRead_ne s a ha))

end

/-! ## A load: MemRead, then the register write -/

/-- `x[dr] <- MemRead(a, 16)`: what LD, LDR and the outer read of LDI do (42_load_store R100, R101, R102). -/
def State.load (s : State) (dr : Reg) (a : Word) : State := (s.memRead a).2.setReg dr (s.memRead a).1

section
variable (s : State) (dr : Reg) (a : Word)

theorem load_reg_self : (s.load dr a).reg dr = (s.memRead a).1 := setReg_reg_self ..

theorem load_sameRegsOff : SameRegsOff dr s (s.load dr a) := fun r hr =>
  (setReg_sameRegsOff _ dr _ r hr).trans (afterRead_reg s a r)

theorem load_cond : (s.load dr a).cond = s.cond := afterRead_cond s a

theorem load_pc : (s.load dr a).pc = s.pc := afterRead_pc s a

theorem load_sameOutside : SameOutside (s.memRead a).2 (s.load dr a) := setReg_sameOutside ..

theorem load_of_ne_kbsr {a : Word} (ha : a ≠ kbsr) : s.load dr a = s.setReg dr (s.cell a) := by
  rw [State.load, memRead_ne s a ha]

/-- A load from an address beside KBSR leaves everything but its register as it was. -/
theorem load_plain {a : Word} (ha : a ≠ kbsr) :
    (s.load dr a).reg dr = s.cell a ∧ SameOutside s (s.load dr a) := by
  rw [load_of_ne_kbsr s dr ha]
  exact ⟨setReg_reg_self .., setReg_sameOutside ..⟩

/-- Result and frame of a load that sets no flags. -/
theorem load_frame :
    (s.load dr a).reg dr = (s.memRead a).1 ∧ SameRegsOff dr s (s.load dr a) ∧
    (s.load dr a).cond = s.cond ∧ (s.load dr a).pc = s.pc ∧
    SameOutside (s.memRead a).2 (s.load dr a) ∧
    (a ≠ kbsr → (s.load dr a).reg dr = s.cell a ∧ SameOutside s (s.load dr a)) :=
  ⟨load_reg_self s dr a, load_sameRegsOff s dr a, load_cond s dr a, load_pc s dr a,
    load_sameOutside s dr a, load_plain s dr⟩

end

/-! ## A store: MemWrite -/

/-- Outside memory a MemWrite changes nothing (20_memory R43). -/
theorem memWrite_frame (s : State) (a v : Word) :
    SameRegs s (s.memWrite a v) ∧ (s.memWrite a v).cond = s.cond ∧ (s.memWrite a v).pc = s.pc ∧
    SameInput s (s.memWrite a v) ∧ (s.memWrite a v).outLog = s.outLog ∧
    SameRun s (s.memWrite a v) ∧ SameParams s (s.memWrite a v) :=
  ⟨fun _ => rfl, rfl, rfl, ⟨rfl, rfl⟩, rfl, ⟨rfl, rfl, rfl, rfl⟩, ⟨rfl, rfl, rfl⟩⟩

/-! ## Decoding by opcode -/

section
variable {w : Word}

theorem decodeWord_ld (hop : opcodeOfNumber (fieldOpcode w) = .ld) :
    decodeWord w = .ld (field11to9 w) (fieldOffset9 w) := by
  simp only [decodeWord, hop]

theorem decodeWord_ldi (hop : opcodeOfNumber (fieldOpcode w) = .ldi) :
    decodeWord w = .ldi (field11to9 w) (fieldOffset9 w) := by
  simp only [decodeWord, hop]

theorem decodeWord_ldr (hop : opcodeOfNumber (fieldOpcode w) = .ldr) :
    decodeWord w = .ldr (field11to9 w) (field8to6 w) (fieldOffset6 w) := by
  simp only [decodeWord, hop]

theorem decodeWord_lea (hop : opcodeOfNumber (fieldOpcode w) = .lea) :
    decodeWord w = .lea (field11to9 w) (fieldOffset9 w) := by
  simp only [decodeWord, hop]

theorem decodeWord_st (hop : opcodeOfNumber (fieldOpcode w) = .st) :
    decodeWord w = .st (field11to9 w) (fieldOffset9 w) := by
  simp only [decodeWord, hop]

theorem decodeWord_sti (hop : opcodeOfNumber (fieldOpcode w) = .sti) :
    decodeWord w = .sti (field11to9 w) (fieldOffset9 w) := by
  simp only [decodeWord, hop]

theorem decodeWord_str (hop : opcodeOfNumber (fieldOpcode w) = .str) :
    decodeWord w = .str (field11to9 w) (field8to6 w) (fieldOffset6 w) := by
  simp only [decodeWord, hop]

end

/-! ## What each instruction does -/

section
variable (dr sr baseR : Reg) (offset9 : BitVec 9) (offset6 : BitVec 6) (s : State)

theorem exec_ld : exec (.ld dr offset9) s = .next (s.load dr (s.pc + sext16 offset9)) := rfl

theorem exec_ldr : exec (.ldr dr baseR offset6) s =
    .next (s.load dr (s.reg baseR + sext16 offset6)) := rfl

theorem exec_lea : exec (.lea dr offset9) s =
    .next ((s.setReg dr (s.pc + sext16 offset9)).setFlags dr) := rfl

theorem exec_st : exec (.st sr offset9) s = .next (s.memWrite (s.eaPc offset9) (s.reg sr)) := rfl

theorem exec_str : exec (.str sr baseR offset6) s =
    .next (s.memWrite (s.eaBase baseR offset6) (s.reg sr)) := rfl

variable {offset9 s} {p : Word} {s1 : State}

/-- The outer read of LDI starts in the state that the pointer read leaves (42_load_store R101). -/
theorem exec_ldi (h : s.memRead (s.pc + sext16 offset9) = (p, s1)) :
    exec (.ldi dr offset9) s = .next ((s1.load dr p).setFlags dr) := by
  have hpointer : s.eaIndirect offset9 = (p, s1) := h
  rw [exec, execLdi, hpointer, State.load]

/-- The store of STI is done in the state that the pointer read leaves (42_load_store R105). -/
theorem exec_sti (h : s.memRead (s.pc + sext16 offset9) = (p, s1)) :
    exec (.sti sr offset9) s = .next (s1.memWrite p (s1.reg sr)) := by
  have hpointer : s.eaIndirect offset9 = (p, s1) := h
  rw [exec, execSti, hpointer]

end

/-- Settles O18: the mask holds the opcode alone, and LD is a load from the PC-relative address. -/
theorem loadResult : Obligations.LoadResult :=
  ⟨fun _ h => decodeWord_ld (opcode_of_mask h (by decide) rfl),
    fun dr offset9 s => ⟨_, exec_ld dr offset9 s, load_frame s dr _⟩⟩

/-- Settles O19: LDI is a load from the pointer `p` in the state `s1` of the pointer read, which has the registers
of `s` and, beside KBSR, is `s` itself. -/
theorem loadIndirectResult : Obligations.LoadIndirectResult := by
  refine ⟨fun w h => decodeWord_ldi (opcode_of_mask h (by decide) rfl), fun dr offset9 s p s1 h => ?_⟩
  obtain ⟨hregs, -, hpc, -⟩ := memRead_frame h
  refine ⟨_, exec_ldi dr h, load_reg_self s1 dr p, rfl,
    fun r hr => (load_sameRegsOff s1 dr p r hr).trans (hregs r), (load_pc s1 dr p).trans hpc,
    (load_sameOutside s1 dr p).setFlags dr, fun ha hp => ?_⟩
  obtain ⟨rfl, rfl⟩ := memRead_inv_of_ne_kbsr h ha
  exact load_plain _ dr hp

/-- Settles O20: as O18, from the base register as it was before the load. -/
theorem loadBaseResult : Obligations.LoadBaseResult :=
  ⟨fun _ h => decodeWord_ldr (opcode_of_mask h (by decide) rfl),
    fun dr baseR offset6 s => ⟨_, exec_ldr dr baseR offset6 s, load_frame s dr _⟩⟩

/-- Settles O21: the address is written to DR like the result of an operate instruction, with its flag. -/
theorem leaResult : Obligations.LeaResult :=
  ⟨fun _ h => decodeWord_lea (opcode_of_mask h (by decide) rfl),
    fun dr offset9 s => ⟨_, exec_lea dr offset9 s, setReg_setFlags_reg s dr _,
      setReg_setFlags_frame s dr _⟩⟩

/-- Settles O22: the mask holds the opcode alone, and ST is one MemWrite at the PC-relative address. -/
theorem storeResult : Obligations.StoreResult :=
  ⟨fun _ h => decodeWord_st (opcode_of_mask h (by decide) rfl),
    fun sr offset9 s => ⟨_, exec_st sr offset9 s, memWrite_cell_self s _ _,
      memWrite_sameMemoryOff s _ _, rfl, memWrite_frame s _ _⟩⟩

/-- Settles O23: STI is one MemWrite through the pointer `p` in the state `s1` of the pointer read, which differs
from `s` by its poll alone and, beside KBSR, not at all. -/
theorem storeIndirectResult : Obligations.StoreIndirectResult := by
  refine ⟨fun w h => decodeWord_sti (opcode_of_mask h (by decide) rfl), fun sr offset9 s p s1 h => ?_⟩
  obtain ⟨hregs, hcond, hpc, hlog, hrun, hparams⟩ := memRead_frame h
  have hoff := memWrite_sameMemoryOff s1 p (s1.reg sr)
  obtain ⟨-, -, -, hinput, -⟩ := memWrite_frame s1 p (s1.reg sr)
  refine ⟨_, exec_sti sr h, (memWrite_cell_self s1 p _).trans (hregs sr), hoff, hregs, hcond, hpc,
    hinput, hlog, hrun, hparams, fun ha => ?_⟩
  obtain ⟨hp, rfl⟩ := memRead_inv_of_ne_kbsr h ha
  exact ⟨hp, hoff, hinput⟩

/-- Settles O24: as O22, at the base register plus the offset. -/
theorem storeBaseResult : Obligations.StoreBaseResult :=
  ⟨fun _ h => decodeWord_str (opcode_of_mask h (by decide) rfl),
    fun sr baseR offset6 s => ⟨_, exec_str sr baseR offset6 s, memWrite_cell_self s _ _,
      memWrite_sameMemoryOff s _ _, rfl, memWrite_frame s _ _⟩⟩

end Sys2Proof.Machine
end

section
/-! PROOFS. TRAP without its input and string routines: the decoding of its words, what the link leaves unchanged, OUT,
HALT and the undefined vectors; and RTI and RES (43_trap_system R115, R116, R118, R122 to R125). -/

namespace Sys2Proof.Machine

/-! ## Decoding by mask and match -/

section
variable {w v : Word}

theorem decodeWord_trap (hop : opcodeOfNumber (fieldOpcode w) = .trap) :
    decodeWord w = decodeTrap (fieldTrapIgnored w) (fieldVector w) := by
  simp only [decodeWord, hop]

/-- Under the mask of the opcode and the vector, a TRAP word has the vector of the match, whatever its ignored bits
(30_encoding R67, R68). -/
theorem decodeWord_of_vector_mask (h : w &&& 0xF0FF#16 = v) (hv : fieldOpcode v = Opcode.trap.number) :
    decodeWord w = decodeTrap (fieldTrapIgnored w) (fieldVector v) := by
  have hop : opcodeOfNumber (fieldOpcode w) = .trap := opcode_of_mask h (by decide) hv
  have hvector : fieldVector w = fieldVector v := extract_of_mask h 0 8 (by decide)
  rw [decodeWord_trap hop, hvector]

theorem decodeWord_rti (hop : opcodeOfNumber (fieldOpcode w) = .rti) :
    decodeWord w = .rti (fieldNfIgnored w) := by
  simp only [decodeWord, hop]

theorem decodeWord_res (hop : opcodeOfNumber (fieldOpcode w) = .res) :
    decodeWord w = .res (fieldNfIgnored w) := by
  simp only [decodeWord, hop]

end

/-- A vector outside 0x20..0x25 has no routine (43_trap R123). -/
theorem not_mem_definedVectors {v : BitVec 8} (h : v.toNat < 0x20 ∨ 0x25 < v.toNat) :
    v ∉ definedVectors := by
  rw [mem_definedVectors]
  rintro (rfl | rfl | rfl | rfl | rfl | rfl) <;> revert h <;> decide

/-! ## What the entry of a TRAP and a fault leave unchanged -/

/-- The entry of a TRAP writes R7, if anything (43_trap R116). -/
theorem trapEnter_frame (s : State) :
    TrapLinked s s.trapEnter ∧ s.trapEnter.cond = s.cond ∧ s.trapEnter.pc = s.pc ∧
    SameMemory s s.trapEnter ∧ SameInput s s.trapEnter ∧ SameRun s s.trapEnter ∧
    SameParams s s.trapEnter :=
  ⟨trapEnter_linked s, trapEnter_cond s, trapEnter_pc s, fun b => by rw [trapEnter_mem],
    ⟨trapEnter_input s, trapEnter_inPos s⟩,
    ⟨trapEnter_run s, trapEnter_fault s, trapEnter_inPrompted s, trapEnter_inString s⟩,
    ⟨trapEnter_trapLinksR7 s, trapEnter_haltNotice s, trapEnter_inPrompt s⟩⟩

/-- A fault sets RUN and FAULT and nothing else (60_exceptions R139). -/
theorem raise_frame (s : State) (f : FaultCause) (w : Word) :
    SameRegs s (s.raise f w) ∧ (s.raise f w).cond = s.cond ∧ (s.raise f w).pc = s.pc ∧
    SameMemory s (s.raise f w) ∧ SameInput s (s.raise f w) ∧ (s.raise f w).outLog = s.outLog ∧
    (s.raise f w).inPrompted = s.inPrompted ∧ (s.raise f w).inString = s.inString ∧
    SameParams s (s.raise f w) :=
  ⟨fun _ => rfl, rfl, rfl, fun _ => rfl, ⟨rfl, rfl⟩, rfl, rfl, rfl, ⟨rfl, rfl, rfl⟩⟩

/-! ## What each instruction does -/

section
variable (s : State)

theorem exec_trapOut :
    exec .trapOut s = .next (s.trapEnter.out ((s.reg 0#3).extractLsb' 0 8)) := by
  rw [← trapEnter_reg_zero s]
  rfl

theorem exec_trapHalt :
    exec .trapHalt s =
      .next { (s.trapEnter.outAll s.haltNotice).flush with run := .halted } := rfl

theorem exec_rti (ign : BitVec 12) :
    exec (.rti ign) s = .next (s.raise .illegalOpcode (0x8#4 ++ ign)) := rfl

theorem exec_res (ign : BitVec 12) :
    exec (.res ign) s = .next (s.raise .illegalOpcode (0xD#4 ++ ign)) := rfl

/-- The six rows of undefined vectors have one meaning (43_trap R123). -/
theorem exec_undefinedVector {i : Instr} {ign : BitVec 4} {v : BitVec 8}
    (h : i = .trapUndef00 ign v ∨ i = .trapUndef26 ign v ∨ i = .trapUndef28 ign v ∨
      i = .trapUndef30 ign v ∨ i = .trapUndef40 ign v ∨ i = .trapUndef80 ign v) :
    exec i s = .next (s.trapEnter.raise .undefinedTrapVector (0xF#4 ++ ign ++ v)) := by
  rcases h with rfl | rfl | rfl | rfl | rfl | rfl <;> rfl

end

/-- Settles O27: the mask holds the opcode and the vector, and OUT is one output after the entry of the TRAP. -/
theorem outEmitsLowByte : Obligations.OutEmitsLowByte := by
  refine ⟨fun w h => decodeWord_of_vector_mask h rfl, fun s => ⟨_, exec_trapOut s, ?_, trapEnter_frame s⟩⟩
  rw [out_outLog, trapEnter_outLog]

/-- Settles O36: HALT emits the notice and the flush after the entry of the TRAP, and sets RUN. -/
theorem haltEndsTheRun : Obligations.HaltEndsTheRun := by
  refine ⟨fun w h => decodeWord_of_vector_mask h rfl, fun s => ⟨_, exec_trapHalt s, rfl, ?_, ?_⟩⟩
  · rw [flush_outLog, outAll_outLog, trapEnter_outLog]
  · obtain ⟨hlinked, hcond, hpc, hmem, hinput, ⟨-, hfault, hprompted, hstring⟩, hparams⟩ :=
      trapEnter_frame s
    exact ⟨hlinked, hcond, hpc, hmem, hinput, hfault, hprompted, hstring, hparams⟩

/-- Settles O37: a word without a routine raises and so keeps all its bits; each of the six rows raises after the
entry of the TRAP. -/
theorem undefinedVectorFaults : Obligations.UndefinedVectorFaults := by
  refine ⟨fun w h hv => ?_, fun ign v s i hi => ?_⟩
  · have hraise : (decodeWord w).raises = some .undefinedTrapVector := by
      rw [decodeWord_trap (opcode_of_mask h (by decide) rfl)]
      obtain ⟨-, -, hraise⟩ :=
        decodeTrap_of_undefined (not_mem_definedVectors hv) (fieldTrapIgnored w)
      exact hraise
    exact ⟨hraise, encode_decodeWord_of_raises hraise⟩
  · obtain ⟨hlinked, hcond, hpc, hmem, hinput, ⟨-, -, hprompted, hstring⟩, hparams⟩ :=
      trapEnter_frame s
    refine ⟨_, exec_undefinedVector s hi, rfl, ?_, rfl, hlinked, hcond, hpc, hmem, hinput,
      trapEnter_outLog s, hprompted, hstring, hparams⟩
    rw [State.raise, trapEnter_pc]

/-- Settles O38: the mask holds the opcode alone, and RTI does nothing but raise. -/
theorem rtiFaults : Obligations.RtiFaults :=
  ⟨fun _ h => decodeWord_rti (opcode_of_mask h (by decide) rfl),
    fun ign s => ⟨_, exec_rti s ign, rfl, rfl, rfl, raise_frame s _ _⟩⟩

/-- Settles O39: the mask holds the opcode alone, and RES does nothing but raise. -/
theorem resFaults : Obligations.ResFaults :=
  ⟨fun _ h => decodeWord_res (opcode_of_mask h (by decide) rfl),
    fun ign s => ⟨_, exec_res s ign, rfl, rfl, rfl, raise_frame s _ _⟩⟩

end Sys2Proof.Machine
end

section
/-! PROOFS. GETC and IN (43_trap_system R117, R120, R126): the wait for a character, what it reads, and what a held
instruction leaves unchanged. -/

namespace Sys2Proof.Machine

/-! ## The wait, by the answers to come -/

/-- The first character to come, after listed answers that are false, is the one that a wait finds, and what is to
come after it is left. -/
theorem firstKey_of_keyAfter {i : Input} {n : Nat} {c : Byte} (h : i.keyAfter n c) :
    firstKey i.listed i.later = some (c, i.drop (n + 1)) := by
  obtain ⟨hlen, hidle, hkey⟩ := h
  induction n generalizing i with
  | zero =>
    rcases i with ⟨_ | ⟨a, listed⟩, later⟩
    · have hfirst : later.first = .key c := hkey
      simp only [firstKey, hfirst]
      rfl
    · obtain rfl : a = .key c := hkey
      rfl
  | succ n ih =>
    rcases i with ⟨_ | ⟨a, listed⟩, later⟩
    · exact absurd hlen (Nat.not_succ_le_zero n)
    · obtain rfl : a = .idle := hidle 0 n.succ_pos
      exact ih (i := ⟨listed, later⟩) (Nat.le_of_succ_le_succ hlen)
        (fun k hk => hidle (k + 1) (Nat.succ_lt_succ hk)) hkey

/-- The listed answers used up. -/
theorem drop_length (listed : List InputAnswer) (later : LaterAnswers) :
    (Input.mk listed later).drop listed.length = ⟨[], later⟩ := by
  induction listed with
  | nil => rfl
  | cons a listed ih => exact ih

/-- The listed answers are the first ones to come. -/
theorem exists_drop_of_mem_listed {i : Input} {a : InputAnswer} (h : a ∈ i.listed) :
    ∃ k < i.listed.length, (i.drop k).answer = a := by
  rcases i with ⟨listed, later⟩
  induction listed with
  | nil => exact nomatch h
  | cons b listed ih =>
    rcases List.mem_cons.1 h with rfl | h
    · exact ⟨0, Nat.succ_pos _, rfl⟩
    · obtain ⟨k, hk, e⟩ := ih h
      exact ⟨k + 1, Nat.succ_lt_succ hk, e⟩

/-- The same answer for ever. -/
theorem answer_drop_always (a : InputAnswer) (k : Nat) :
    ((Input.mk [] (.always a)).drop k).answer = a := by
  induction k with
  | zero => rfl
  | succ k ih => exact ih

/-- A character to come after more false answers than are listed: the later answers are free values, and a step that
finds no character uses up the listed answers and one more. -/
theorem missed_of_key_later {i : Input} {n : Nat} {c : Byte} (hlen : i.listed.length < n)
    (hidle : ∀ k < n, (i.drop k).answer = .idle) (hkey : (i.drop n).answer = .key c) :
    firstKey i.listed i.later = none ∧ i.missed = i.drop (i.listed.length + 1) := by
  obtain ⟨m, rfl⟩ := Nat.exists_eq_add_of_le (Nat.le_of_lt hlen)
  have hlisted : ∀ a ∈ i.listed, a = .idle := fun a ha => by
    obtain ⟨k, hk, rfl⟩ := exists_drop_of_mem_listed ha
    exact hidle k (by omega)
  have hfirst := hidle i.listed.length hlen
  rcases i with ⟨listed, later⟩
  rw [drop_length] at hfirst
  refine ⟨firstKey_none.2 ⟨hlisted, hfirst⟩, ?_⟩
  rw [← drop_drop, drop_length] at hkey ⊢
  rcases later with a | j
  · obtain rfl : a = .idle := hfirst
    exact nomatch (answer_drop_always .idle m).symm.trans hkey
  · rfl

/-- Where all later answers are the same, a step that finds no character leaves the input as it is. -/
theorem missed_of_always {i : Input} {a : InputAnswer} (h : i.later = .always a) : i.missed = i := by
  rw [Input.missed, h]

/-- No answer to come finds a character. -/
theorem firstKey_none_of_always {i : Input} (hlisted : ∀ a ∈ i.listed, a = .idle)
    (hlater : i.later = .always .idle) : firstKey i.listed i.later = none :=
  firstKey_none.2 ⟨hlisted, by rw [hlater]; rfl⟩

/-! ## The character in R0 -/

/-- The registers after a GETC or an IN that has its character: R0 holds it, and R7 the link where TRAPs link. -/
theorem TrapLinked.setReg_zero {s u : State} (h : TrapLinked s u) (v : Word) :
    (u.setReg 0#3 v).reg 0#3 = v ∧
    (∀ r : Reg, r ≠ 0#3 → r ≠ 7#3 → (u.setReg 0#3 v).reg r = s.reg r) ∧
    (u.setReg 0#3 v).reg 7#3 = if s.trapLinksR7 then s.pc else s.reg 7#3 := by
  obtain ⟨hoff, h7⟩ := h
  refine ⟨setReg_reg_self .., fun r h0 hr7 => ?_, ?_⟩
  · rw [setReg_reg_ne _ _ _ _ h0, hoff r hr7]
  · rw [setReg_reg_ne _ _ _ _ (by decide), h7]

/-! ## GETC -/

section
variable {s : State} {c : Byte} {rest : Input}

theorem exec_trapGetc_of_key (h : firstKey s.input.listed s.input.later = some (c, rest)) :
    exec .trapGetc s = .next ((s.trapEnter.consume rest).setReg 0#3 (zext16 c)) := by
  rcases exec_trapGetc_cases s with ⟨hk, -⟩ | ⟨d, rest', hk, e⟩
  · exact nomatch h.symm.trans hk
  · obtain ⟨rfl, rfl⟩ := Prod.mk.inj (Option.some.inj (h.symm.trans hk))
    exact e

theorem exec_trapGetc_of_none (h : firstKey s.input.listed s.input.later = none) :
    exec .trapGetc s = .next s.hold := by
  rcases exec_trapGetc_cases s with ⟨-, e⟩ | ⟨d, rest', hk, -⟩
  · exact e
  · exact nomatch h.symm.trans hk

/-- The pc of a held instruction is back at the instruction. -/
theorem setPc_hold : (s.setPc (s.pc + 1#16)).hold = { s with input := s.input.missed } := by
  simp [State.hold, State.setPc]

/-- A step at a GETC that finds no character changes nothing but what is to come of the input (43_trap R126). -/
theorem step_getc_of_none (hrun : s.run = .running) (hstring : s.inString = none) (hpc : s.pc ≠ kbsr)
    (hgetc : decodeWord (s.cell s.pc) = .trapGetc)
    (h : firstKey s.input.listed s.input.later = none) :
    step s = .next { s with input := s.input.missed } := by
  rw [step_plain s hrun hstring hpc, hgetc, exec_trapGetc_of_none (s := s.setPc (s.pc + 1#16)) h, setPc_hold]

end

/-- Settles O25: a wait finds the first character to come and leaves what is after it. -/
theorem getcReadsNextCharacter : Obligations.GetcReadsNextCharacter := by
  refine ⟨fun w h => decodeWord_of_vector_mask h rfl, fun s n c h => ?_⟩
  obtain ⟨hlinked, hcond, hpc, hmem, ⟨-, hpos⟩, hrun, hparams⟩ := trapEnter_frame s
  obtain ⟨h0, hother, h7⟩ :=
    TrapLinked.setReg_zero (u := s.trapEnter.consume (s.input.drop (n + 1))) hlinked (zext16 c)
  refine ⟨_, exec_trapGetc_of_key (firstKey_of_keyAfter h), h0, hother, h7, rfl, ?_, trapEnter_outLog s,
    hcond, hpc, hmem, hrun, hparams⟩
  exact congrArg (· + 1) hpos

/-- Steps at a GETC lead to the state in which its character comes after no more false answers than are listed: each
uses up false answers, and changes nothing else. -/
theorem run_getc_until_key (n : Nat) {s : State} {c : Byte} (hrun : s.run = .running)
    (hstring : s.inString = none) (hpc : s.pc ≠ kbsr) (hgetc : decodeWord (s.cell s.pc) = .trapGetc)
    (hidle : ∀ k < n, (s.input.drop k).answer = .idle) (hkey : (s.input.drop n).answer = .key c) :
    ∃ m n' u, Host.Core.run Sys2Proof.core m s = .next u ∧ u = { s with input := u.input } ∧
      u.input.keyAfter n' c ∧ u.input.drop (n' + 1) = s.input.drop (n + 1) := by
  induction n using Nat.strong_induction_on generalizing s with
  | _ n ih =>
    by_cases hlen : n ≤ s.input.listed.length
    · exact ⟨0, n, s, rfl, rfl, ⟨hlen, hidle, hkey⟩, rfl⟩
    · obtain ⟨hnone, hmissed⟩ := missed_of_key_later (Nat.lt_of_not_le hlen) hidle hkey
      have hstep := step_getc_of_none hrun hstring hpc hgetc hnone
      rw [hmissed] at hstep
      obtain ⟨j, rfl⟩ := Nat.exists_eq_add_of_le (Nat.lt_of_not_le hlen)
      rw [← drop_drop] at hkey
      obtain ⟨m, n', u, hu, hsame, hafter, hdrop⟩ :=
        ih j (by omega) (s := { s with input := s.input.drop (s.input.listed.length + 1) }) hrun hstring hpc
          hgetc (fun k hk => by rw [drop_drop]; exact hidle _ (by omega)) hkey
      refine ⟨m + 1, n', u, (run_succ s m hstep).trans hu, hsame, hafter, ?_⟩
      rw [hdrop, drop_drop, Nat.add_assoc _ j 1]

/-- Settles O26: a step that finds no character leaves all but the input, and the input too where no character is
ever to come. -/
theorem getcHoldChangesNothing : Obligations.GetcHoldChangesNothing := by
  refine ⟨fun s hrun hstring hpc hgetc hlisted hlater => run_fixed s ?_, fun s hlisted hfirst => ?_,
    fun s n c => run_getc_until_key n⟩
  · have hstep := step_getc_of_none hrun hstring hpc hgetc (firstKey_none_of_always hlisted hlater)
    rwa [missed_of_always hlater] at hstep
  · have hnone := firstKey_none.2 ⟨hlisted, hfirst⟩
    exact ⟨_, exec_trapGetc_of_none hnone, rfl, hold_drawn s hnone⟩

/-! ## IN: its first part -/

/-- Linking again writes what R7 holds already. -/
theorem trapEnter_of_linked {s : State} (h : s.trapLinksR7 = true → s.reg 7#3 = s.pc) : s.trapEnter = s := by
  rcases trapEnter_cases s with ⟨hlinks, e⟩ | ⟨-, e⟩
  · have hregs : s.regs.set 7 s.pc = s.regs := by
      rw [← h hlinks]
      exact Vector.set_getElem_self ..
    rw [e, State.setReg]
    exact congrArg (fun regs => { s with regs := regs }) hregs
  · exact e

/-- The first part of IN: the entry of the TRAP, and the prompt unless it has been emitted (43_trap R120, R126). -/
def State.enterIn (s : State) : State := s.trapEnter.prompt

section
variable (s : State)

/-- The first part of IN changes R7, the log and the mark of a held IN, and nothing else. -/
theorem enterIn_frame :
    TrapLinked s s.enterIn ∧ s.enterIn.cond = s.cond ∧ s.enterIn.pc = s.pc ∧ SameMemory s s.enterIn ∧
    SameInput s s.enterIn ∧ s.enterIn.run = s.run ∧ s.enterIn.fault = s.fault ∧
    s.enterIn.inString = s.inString ∧ SameParams s s.enterIn := by
  obtain ⟨⟨hoff, h7⟩, -⟩ := trapEnter_frame s
  refine ⟨⟨fun r hr => ?_, ?_⟩, ?_, ?_, fun b => ?_, ⟨?_, ?_⟩, ?_, ?_, ?_, ⟨?_, ?_, ?_⟩⟩
  · rw [State.enterIn, prompt_reg, hoff r hr]
  · rw [State.enterIn, prompt_reg, h7]
  all_goals simp [State.enterIn]

@[simp] theorem enterIn_input : s.enterIn.input = s.input := by simp [State.enterIn]
@[simp] theorem enterIn_inPrompted : s.enterIn.inPrompted = true := prompt_inPrompted _

/-- The prompt is emitted where it has not been. -/
theorem enterIn_outLog :
    (s.inPrompted = false → s.enterIn.outLog = s.outLog ++ s.inPrompt.map .byte) ∧
    (s.inPrompted = true → s.enterIn.outLog = s.outLog) := by
  constructor <;> intro h <;> simp [State.enterIn, prompt_outLog, h]

/-- A held IN has done its first part: doing it again changes nothing. -/
theorem enterIn_enterIn : s.enterIn.enterIn = s.enterIn := by
  obtain ⟨⟨-, h7⟩, -, hpc, -, -, -, -, -, ⟨hlinks, -⟩⟩ := enterIn_frame s
  have hlinked : s.enterIn.trapEnter = s.enterIn := trapEnter_of_linked fun h => by
    rw [h7, hpc, if_pos (hlinks ▸ h)]
  rw [State.enterIn, hlinked, State.prompt, enterIn_inPrompted, if_pos rfl]

theorem trapEnter_decline (rest : Input) : (s.decline rest).trapEnter = s.trapEnter.decline rest := by
  rcases trapEnter_cases s with ⟨h, e⟩ | ⟨h, e⟩ <;> rw [e]
  · exact if_pos h
  · exact if_neg fun hlinks => Bool.false_ne_true (h.symm.trans hlinks)

theorem prompt_decline (rest : Input) : (s.decline rest).prompt = s.prompt.decline rest := by
  rcases prompt_cases s with ⟨h, e⟩ | ⟨h, e⟩ <;> rw [e]
  · exact if_pos h
  · exact if_neg fun hprompted => Bool.false_ne_true (h.symm.trans hprompted)

/-- The first part of IN does not look at the input. -/
theorem enterIn_decline (rest : Input) : (s.decline rest).enterIn = s.enterIn.decline rest := by
  rw [State.enterIn, trapEnter_decline, prompt_decline, State.enterIn]

end

/-! ## IN: the wait -/

section
variable {s : State} {c : Byte} {rest : Input}

theorem exec_trapIn_of_key (h : firstKey s.input.listed s.input.later = some (c, rest)) :
    exec .trapIn s =
      .next (((s.enterIn.consume rest).setReg 0#3 (zext16 c)).out c).endPrompt := by
  rcases exec_trapIn_cases s with ⟨hk, -⟩ | ⟨d, rest', hk, e⟩
  · exact nomatch h.symm.trans hk
  · obtain ⟨rfl, rfl⟩ := Prod.mk.inj (Option.some.inj (h.symm.trans hk))
    exact e

theorem exec_trapIn_of_none (h : firstKey s.input.listed s.input.later = none) :
    exec .trapIn s = .next s.enterIn.hold := by
  rcases exec_trapIn_cases s with ⟨-, e⟩ | ⟨d, rest', hk, -⟩
  · exact e
  · exact nomatch h.symm.trans hk

/-- Where its first part has been done, IN goes on from there. -/
theorem exec_trapIn_enterIn (s : State) : exec .trapIn s.enterIn = exec .trapIn s := by
  rcases hk : firstKey s.input.listed s.input.later with _ | ⟨c, rest⟩
  · rw [exec_trapIn_of_none hk, exec_trapIn_of_none (by rwa [enterIn_input]), enterIn_enterIn]
  · rw [exec_trapIn_of_key hk, exec_trapIn_of_key (by rwa [enterIn_input]), enterIn_enterIn]

end

/-- Settles O30: the first part of IN, the wait that finds the first character to come, and the echo. -/
theorem inPromptsReadsAndEchoes : Obligations.InPromptsReadsAndEchoes := by
  refine ⟨fun w h => decodeWord_of_vector_mask h rfl, fun s n c h => ?_⟩
  obtain ⟨hlinked, hcond, hpc, hmem, ⟨-, hpos⟩, hrun, hfault, hstring, hparams⟩ := enterIn_frame s
  obtain ⟨hfresh, hheld⟩ := enterIn_outLog s
  obtain ⟨h0, hother, h7⟩ :=
    TrapLinked.setReg_zero (u := s.enterIn.consume (s.input.drop (n + 1))) hlinked (zext16 c)
  refine ⟨_, exec_trapIn_of_key (firstKey_of_keyAfter h), fun hp => ?_, fun hp => ?_, h0, hother, h7, rfl,
    congrArg (· + 1) hpos, hcond, hpc, hmem, hrun, hfault, rfl, hstring, hparams⟩
  · simp [hfresh hp]
  · simp [hheld hp]

/-! ## IN: the hold -/

/-- A held IN leaves all but R7, the log, the mark of the hold, the pc, and what is to come of the input. -/
theorem enterIn_hold_frame (s : State) (h : firstKey s.input.listed s.input.later = none) :
    Drawn s s.enterIn.hold ∧ s.enterIn.hold.inPos = s.inPos ∧ SameMemory s s.enterIn.hold ∧
    s.enterIn.hold.cond = s.cond ∧ SameRegsOff 7#3 s s.enterIn.hold ∧ s.enterIn.hold.run = s.run ∧
    s.enterIn.hold.fault = s.fault ∧ s.enterIn.hold.inString = s.inString ∧
    SameParams s s.enterIn.hold := by
  obtain ⟨⟨hoff, -⟩, hcond, -, hmem, ⟨hinput, hpos⟩, hrun, hfault, hstring, hparams⟩ := enterIn_frame s
  have hdrawn : Drawn s.enterIn s.enterIn.hold := hold_drawn _ (by rwa [enterIn_input])
  exact ⟨(Drawn.of_same hinput hpos).trans hdrawn, hpos, hmem, hcond, hoff, hrun, hfault, hstring, hparams⟩

/-- A step at an IN of a running machine. -/
theorem step_in {s : State} (hrun : s.run = .running) (hstring : s.inString = none) (hpc : s.pc ≠ kbsr)
    (hin : decodeWord (s.cell s.pc) = .trapIn) :
    step s = exec .trapIn (s.setPc (s.pc + 1#16)) := by
  rw [step_plain s hrun hstring hpc, hin]

/-- Past the hold, with other answers to come. -/
theorem hold_decline_setPc {u : State} {a : Word} (rest : Input) (h : u.pc = a) :
    (u.hold.decline rest).setPc a = u.decline rest := by
  subst h
  rfl

/-- The state of an IN that is held and to which no character is ever to come. -/
def State.heldIn (s : State) : State := (s.setPc (s.pc + 1#16)).enterIn.hold

section
variable (s : State)

theorem heldIn_pc : s.heldIn.pc = s.pc := by
  obtain ⟨-, -, hpc, -⟩ := enterIn_frame (s.setPc (s.pc + 1#16))
  rw [State.heldIn, hold_pc, hpc, setPc_pc, BitVec.add_sub_cancel]

/-- The held IN after its fetch, with other answers to come, has done its first part. -/
theorem heldIn_fetched (rest : Input) :
    (s.heldIn.decline rest).setPc (s.heldIn.pc + 1#16) =
      ((s.decline rest).setPc (s.pc + 1#16)).enterIn := by
  obtain ⟨-, -, hpc, -⟩ := enterIn_frame (s.setPc (s.pc + 1#16))
  rw [heldIn_pc, State.heldIn, hold_decline_setPc (a := s.pc + 1#16) rest hpc]
  exact (enterIn_decline (s.setPc (s.pc + 1#16)) rest).symm

variable {s} (hrun : s.run = .running) (hstring : s.inString = none) (hpc : s.pc ≠ kbsr)
  (hin : decodeWord (s.cell s.pc) = .trapIn)
include hrun hstring hpc hin

/-- Whatever answers are to come, a held IN does with them what it would have done without the hold
(43_trap R126). -/
theorem step_heldIn (rest : Input) : step (s.heldIn.decline rest) = step (s.decline rest) := by
  obtain ⟨-, -, -, hmem, -, hrun', -, hstring', -⟩ := enterIn_frame (s.setPc (s.pc + 1#16))
  have hcell : s.heldIn.cell s.pc = s.cell s.pc := cell_of_sameMemory hmem s.pc
  have hheld : step (s.heldIn.decline rest) =
      exec .trapIn ((s.heldIn.decline rest).setPc (s.heldIn.pc + 1#16)) :=
    step_in (s := s.heldIn.decline rest) (hrun'.trans hrun) (hstring'.trans hstring)
      (by rwa [decline_pc, heldIn_pc]) (by rwa [decline_pc, decline_cell, heldIn_pc, hcell])
  rw [hheld, heldIn_fetched, exec_trapIn_enterIn]
  exact (step_in (s := s.decline rest) hrun hstring hpc hin).symm

/-- A step at an IN that finds no character holds it. -/
theorem step_in_of_none (h : firstKey s.input.listed s.input.later = none) :
    step s = .next s.heldIn := by
  rw [step_in hrun hstring hpc hin, exec_trapIn_of_none (s := s.setPc (s.pc + 1#16)) h, State.heldIn]

/-- While no character is ever to come, a held IN stays as it is. -/
theorem step_heldIn_of_none (hinput : s.heldIn.input = s.input)
    (h : firstKey s.input.listed s.input.later = none) : step s.heldIn = .next s.heldIn := by
  have hstep := step_heldIn hrun hstring hpc hin s.input
  have hsame : s.heldIn.decline s.input = s.heldIn := by rw [← hinput]; rfl
  rw [hsame] at hstep
  exact hstep.trans (step_in_of_none hrun hstring hpc hin h)

end

/-- Settles O31: the held IN has done its first part, and with any answers to come goes on from there. -/
theorem inHoldsThenResumes : Obligations.InHoldsThenResumes := by
  refine ⟨fun s hrun hstring hpc hin hprompted hlisted hlater => ?_, fun s hlisted hfirst => ?_⟩
  · have hnone := firstKey_none_of_always hlisted hlater
    obtain ⟨-, hpos, hmem, hcond, hoff, hrun', hfault, hstring', hparams⟩ :=
      enterIn_hold_frame (s.setPc (s.pc + 1#16)) hnone
    obtain ⟨hlog, -⟩ := enterIn_outLog (s.setPc (s.pc + 1#16))
    have hinput : s.heldIn.input = s.input := by
      rw [State.heldIn, hold_input, enterIn_input, setPc_input, missed_of_always hlater]
    refine ⟨s.heldIn, step_in_of_none hrun hstring hpc hin hnone, hlog hprompted, heldIn_pc s,
      hrun'.trans hrun, hmem, ⟨hinput, hpos⟩, hcond, hoff, hfault, hstring'.trans hstring, hparams,
      run_fixed _ (step_heldIn_of_none hrun hstring hpc hin hinput hnone), fun c rest l => ?_⟩
    rw [hinput]
    exact step_heldIn hrun hstring hpc hin ⟨s.input.listed ++ .key c :: rest, l⟩
  · have hnone := firstKey_none.2 ⟨hlisted, hfirst⟩
    obtain ⟨hlog, hlog'⟩ := enterIn_outLog s
    obtain ⟨-, -, hpc, -⟩ := enterIn_frame s
    exact ⟨_, exec_trapIn_of_none hnone, hlog, hlog', enterIn_inPrompted s, congrArg (· - 1#16) hpc,
      enterIn_hold_frame s hnone⟩

end Sys2Proof.Machine
end

section
/-! PROOFS. PUTS and PUTSP, one step of them (43_trap_system R119, R121): what a step's share of the loop keeps, where
the loop ends, and what it emits for a string that does not run through KBSR. -/

namespace Sys2Proof.Machine

/-! ## What the loops keep -/

/-- What every part of a string loop from `s` to `u` keeps: it emits bytes, and its reads may poll. -/
structure LoopFrame (s u : State) : Prop where
  regs : SameRegs s u
  cond : u.cond = s.cond
  pc : u.pc = s.pc
  memory : SameMemoryOffKeyboard s u
  wf : s.mem.wf → u.mem.wf
  drawn : Drawn s u
  log : ∃ bs : List Byte, u.outLog = s.outLog ++ bs.map .byte
  run : SameRun s u
  params : SameParams s u

theorem LoopFrame.refl (s : State) : LoopFrame s s where
  regs _ := rfl
  cond := rfl
  pc := rfl
  memory _ _ _ _ _ := rfl
  wf := id
  drawn := .refl s
  log := ⟨[], (List.append_nil _).symm⟩
  run := ⟨rfl, rfl, rfl, rfl⟩
  params := .refl s

theorem LoopFrame.trans (s t u : State) (h : LoopFrame s t) (h' : LoopFrame t u) : LoopFrame s u where
  regs r := (h'.regs r).trans (h.regs r)
  cond := h'.cond.trans h.cond
  pc := h'.pc.trans h.pc
  memory b h1 h2 h3 h4 := (h'.memory b h1 h2 h3 h4).trans (h.memory b h1 h2 h3 h4)
  wf := h'.wf ∘ h.wf
  drawn := h.drawn.trans h'.drawn
  log := by
    obtain ⟨bs, e⟩ := h.log
    obtain ⟨bs', e'⟩ := h'.log
    exact ⟨bs ++ bs', by rw [e', e, List.map_append, List.append_assoc]⟩
  run := by
    obtain ⟨hrun, hfault, hprompted, hstring⟩ := h.run
    obtain ⟨hrun', hfault', hprompted', hstring'⟩ := h'.run
    exact ⟨hrun'.trans hrun, hfault'.trans hfault, hprompted'.trans hprompted, hstring'.trans hstring⟩
  params := SameParams.trans s t u h.params h'.params

theorem afterRead_loopFrame (s : State) (a : Word) : LoopFrame s (s.afterRead a) where
  regs := afterRead_reg s a
  cond := afterRead_cond s a
  pc := afterRead_pc s a
  memory := afterRead_sameMemoryOffKeyboard s a
  wf := afterRead_wf s a
  drawn := afterRead_drawn s a
  log := ⟨[], by simp⟩
  run := ⟨afterRead_run s a, afterRead_fault s a, afterRead_inPrompted s a, afterRead_inString s a⟩
  params := ⟨afterRead_trapLinksR7 s a, afterRead_haltNotice s a, afterRead_inPrompt s a⟩

theorem out_loopFrame (s : State) (b : Byte) : LoopFrame s (s.out b) :=
  { LoopFrame.refl s with log := ⟨[b], rfl⟩ }

section
variable {a b : Word} {s u : State}

theorem PutsRun.frame (h : PutsRun a s u) : LoopFrame s u :=
  PutsRun_induction LoopFrame.trans afterRead_loopFrame out_loopFrame a s u h

theorem PutspRun.frame (h : PutspRun a s u) : LoopFrame s u :=
  PutspRun_induction LoopFrame.trans afterRead_loopFrame out_loopFrame a s u h

theorem PutsPart.frame (h : PutsPart a s b u) : LoopFrame s u :=
  PutsPart_induction LoopFrame.refl LoopFrame.trans afterRead_loopFrame out_loopFrame a s b u h

/-- A routine is its loop after the entry of the TRAP (43_trap R116). -/
theorem LoopFrame.stringFrame (h : LoopFrame s.trapEnter u) : StringFrame s u := by
  obtain ⟨⟨hoff, h7⟩, hcond, hpc, hmem, ⟨hinput, hpos⟩, ⟨hrun, hfault, hprompted, hstring⟩, hparams⟩ :=
    trapEnter_frame s
  obtain ⟨hrun', hfault', hprompted', hstring'⟩ := h.run
  refine ⟨⟨fun r hr => (h.regs r).trans (hoff r hr), (h.regs _).trans h7⟩, h.cond.trans hcond,
    h.pc.trans hpc, fun b h1 h2 h3 h4 => (h.memory b h1 h2 h3 h4).trans (hmem b), ?_,
    (Drawn.of_same hinput hpos).trans h.drawn, ?_,
    ⟨hrun'.trans hrun, hfault'.trans hfault, hprompted'.trans hprompted, hstring'.trans hstring⟩,
    SameParams.trans _ _ _ hparams h.params⟩
  · simpa using h.wf
  · simpa using h.log

end

/-! ## A step's share of a routine -/

section
variable {s u : State} {r : StringRoutine} {a b : Word}

theorem stringPart_of_end (h : r.loop (stringFuel s.input) a s = (none, u)) :
    s.stringPart r a = u.endString := by
  rw [State.stringPart, h]

theorem stringPart_of_part (h : r.loop (stringFuel s.input) a s = (some b, u)) :
    s.stringPart r a = u.stayInString r b := by
  rw [State.stringPart, h]

end

section
variable (s : State) (a : Word)

/-- A step's share of PUTS: the rest of the spec's loop, or a part of it (43_trap R119, 60_exceptions R147(b)). -/
theorem stringPart_puts_cases :
    (∃ u, PutsRun a s u ∧ s.stringPart .puts a = u.endString ∧ LoopFrame s u) ∨
    ∃ b u, PutsPart a s b u ∧ s.stringPart .puts a = u.stayInString .puts b ∧ LoopFrame s u := by
  rcases stringPart_cases s .puts a with ⟨u, hloop, e⟩ | ⟨b, u, hloop, e⟩
  · have h : PutsRun a s u := (putsLoop_run _ a s u).1 hloop
    exact .inl ⟨u, h, e, h.frame⟩
  · have h : PutsPart a s b u := (putsLoop_run _ a s u).2 b hloop
    exact .inr ⟨b, u, h, e, h.frame⟩

theorem exec_trapPuts : exec .trapPuts s = .next (s.trapEnter.stringPart .puts (s.reg 0#3)) := by
  rw [← trapEnter_reg_zero s]
  rfl

theorem exec_trapPutsp : exec .trapPutsp s = .next (s.trapEnter.stringPart .putsp (s.reg 0#3)) := by
  rw [← trapEnter_reg_zero s]
  rfl

end

/-! ## The way of a loop to KBSR -/

/-- How many reads a loop at `a` makes before it reads KBSR. -/
def readsToKbsr (a : Word) : Nat := (kbsr - a).toNat

theorem readsToKbsr_lt (a : Word) : readsToKbsr a < 65536 := (kbsr - a).isLt

theorem readsToKbsr_next {a : Word} (h : a ≠ kbsr) : readsToKbsr a = readsToKbsr (a + 1#16) + 1 := by
  unfold readsToKbsr kbsr at *
  bv_omega

theorem add_readsToKbsr (a : Word) : a + BitVec.ofNat 16 (readsToKbsr a) = kbsr := by
  rw [readsToKbsr, BitVec.ofNat_toNat, BitVec.setWidth_eq, BitVec.add_comm, BitVec.sub_add_cancel]

theorem stringFuel_eq (i : Input) : stringFuel i = 65536 * i.listed.length + 131072 := by
  unfold stringFuel
  omega

/-! ## PUTS ends with a finite `IN` -/

/-- A character of a finite `IN` is a listed answer. -/
theorem rest_of_key {i : Input} {c : Byte} (hlater : i.later = .always .idle) (h : i.answer = .key c) :
    i.rest.later = .always .idle ∧ i.rest.listed.length + 1 = i.listed.length := by
  rcases i with ⟨_ | ⟨a, listed⟩, later⟩
  · obtain rfl : later = .always .idle := hlater
    exact nomatch h
  · exact ⟨hlater, rfl⟩

/-- With a finite `IN` the loop of PUTS ends: on every way round the memory it polls, and a poll uses up a listed
character or leaves the zero word that ends the string (60_exceptions R147(b)). -/
theorem putsLoop_ends (fuel : Nat) (a : Word) (s : State) (hlater : s.input.later = .always .idle)
    (hfuel : readsToKbsr a + 65536 * s.input.listed.length < fuel) :
    ∃ u, putsLoop fuel a s = (none, u) := by
  induction fuel generalizing a s with
  | zero => exact absurd hfuel (Nat.not_lt_zero _)
  | succ n ih =>
    rw [putsLoop_succ]
    by_cases hz : (s.afterRead a).cell a = 0#16
    · exact ⟨_, if_pos hz⟩
    · rw [if_neg hz]
      rcases afterRead_cases s a with ⟨rfl, e⟩ | ⟨ha, e⟩ <;> rw [e] at hz ⊢
      · cases hanswer : s.input.answer with
        | idle => exact absurd (poll_cell_kbsr_of_idle hanswer) hz
        | key c =>
          obtain ⟨hlater', hlen⟩ := rest_of_key hlater hanswer
          refine ih _ _ (by simpa using hlater') ?_
          have := readsToKbsr_lt (kbsr + 1#16)
          rw [out_input, poll_input]
          omega
      · have := readsToKbsr_next ha
        exact ih _ _ hlater (by rw [out_input]; omega)

theorem stringPart_puts_of_finite (a : Word) (s : State) (hlater : s.input.later = .always .idle) :
    ∃ u, PutsRun a s u ∧ s.stringPart .puts a = u.endString := by
  have hlt := readsToKbsr_lt a
  obtain ⟨u, hloop⟩ := putsLoop_ends (stringFuel s.input) a s hlater (by rw [stringFuel_eq]; omega)
  exact ⟨u, (putsLoop_run _ a s u).1 hloop, stringPart_of_end hloop⟩

/-- Settles O28: a step's share of PUTS follows the spec's loop from the entry of the TRAP, and is all of it where
the loop ends within its reads. -/
theorem putsFollowsItsLoop : Obligations.PutsFollowsItsLoop := by
  refine ⟨fun w h => decodeWord_of_vector_mask h rfl, fun s => ?_, fun s hlater => ?_⟩
  · rw [exec_trapPuts]
    rcases stringPart_puts_cases s.trapEnter (s.reg 0#3) with ⟨u, hrun, e, hframe⟩ | ⟨b, u, hpart, e, hframe⟩
    · exact .inl ⟨u, hrun, congrArg _ e, hframe.stringFrame⟩
    · exact .inr ⟨b, u, hpart, congrArg _ e, hframe.stringFrame⟩
  · rw [exec_trapPuts]
    obtain ⟨u, hrun, e⟩ := stringPart_puts_of_finite (s.reg 0#3) s.trapEnter (by rwa [trapEnter_input])
    exact ⟨u, hrun, congrArg _ e, hrun.frame.stringFrame⟩

/-! ## PUTSP ends whatever `IN` is -/

/-- The loop of PUTSP ends within `fuel` reads. -/
def PutspEnds (fuel : Nat) (a : Word) (s : State) : Prop := ∃ u, putspLoop fuel a s = (none, u)

section
variable {n : Nat} {a : Word} {s : State}

/-- The loop ends at the word it reads, or where it ends from the next one. -/
theorem PutspEnds.of_next
    (h : (s.afterRead a).cell a ≠ 0#16 → highHalf ((s.afterRead a).cell a) ≠ 0#8 →
      PutspEnds n (a + 1#16) (((s.afterRead a).out (lowHalf ((s.afterRead a).cell a))).out
        (highHalf ((s.afterRead a).cell a)))) : PutspEnds (n + 1) a s := by
  rw [PutspEnds, putspLoop_succ]
  by_cases hz : (s.afterRead a).cell a = 0#16
  · exact ⟨_, if_pos hz⟩
  · rw [if_neg hz]
    by_cases hy : highHalf ((s.afterRead a).cell a) = 0#8
    · exact ⟨_, if_pos hy⟩
    · rw [if_neg hy]
      exact h hz hy

/-- At KBDR, whose high byte a poll has made zero, the string ends. -/
theorem putspEnds_at_kbdr (h : highHalf (s.cell kbdr) = 0#8) : PutspEnds (n + 1) kbdr s := by
  have hread := afterRead_ne s kbdr kbsr_ne_kbdr.symm
  exact .of_next fun _ hy => absurd (by rwa [hread]) hy

/-- Between the keyboard registers there is one more word. -/
theorem putspEnds_before_kbdr (h : highHalf (s.cell kbdr) = 0#8) :
    PutspEnds (n + 2) (kbsr + 1#16) s := by
  have hread := afterRead_ne s (kbsr + 1#16) (by decide)
  refine .of_next fun _ _ => ?_
  rw [hread]
  exact putspEnds_at_kbdr h

theorem highHalf_zext16 (c : Byte) : highHalf (zext16 c) = 0#8 := by
  ext i hi
  simp [highHalf, zext16]

/-- At KBSR the poll finds no character, and the word is zero, or it leaves one in KBDR, and the string ends there at
the latest (20_memory R41). -/
theorem putspEnds_at_kbsr (s : State) : PutspEnds (n + 3) kbsr s := by
  refine .of_next fun hz _ => ?_
  rw [afterRead_kbsr] at hz ⊢
  cases hanswer : s.input.answer with
  | idle => exact absurd (poll_cell_kbsr_of_idle hanswer) hz
  | key c =>
    refine putspEnds_before_kbdr ?_
    rw [out_cell, out_cell, poll_cell_kbdr_of_key hanswer, highHalf_zext16]

end

/-- The loop of PUTSP reads three words from KBSR on, at most. -/
theorem putspLoop_ends (fuel : Nat) (a : Word) (s : State) (hfuel : readsToKbsr a + 2 < fuel) :
    PutspEnds fuel a s := by
  induction fuel generalizing a s with
  | zero => exact absurd hfuel (Nat.not_lt_zero _)
  | succ n ih =>
    by_cases ha : a = kbsr
    · obtain ⟨m, rfl⟩ : ∃ m, n = m + 2 := ⟨n - 2, by omega⟩
      exact ha ▸ putspEnds_at_kbsr s
    · have := readsToKbsr_next ha
      exact .of_next fun _ _ => ih _ _ (by omega)

/-- A step's share of PUTSP is all that is left of the spec's loop (43_trap R121). -/
theorem stringPart_putsp (s : State) (a : Word) :
    ∃ u, PutspRun a s u ∧ s.stringPart .putsp a = u.endString := by
  have hlt := readsToKbsr_lt a
  obtain ⟨u, hloop⟩ := putspLoop_ends (stringFuel s.input) a s (by rw [stringFuel_eq]; omega)
  exact ⟨u, putspLoop_run _ a s u hloop, stringPart_of_end hloop⟩

/-- Settles O32: from any state the loop ends at KBDR at the latest. -/
theorem putspFollowsItsLoop : Obligations.PutspFollowsItsLoop := by
  refine ⟨fun w h => decodeWord_of_vector_mask h rfl, fun s => ?_⟩
  obtain ⟨u, hrun, e⟩ := stringPart_putsp s.trapEnter (s.reg 0#3)
  exact ⟨u, hrun, (exec_trapPutsp s).trans (congrArg _ e), hrun.frame.stringFrame⟩

/-- Settles O34: a step inside a routine is its share of the routine, from where it stands. -/
theorem stringRoutineGoesOn : Obligations.StringRoutineGoesOn := by
  refine fun s a hrun => ⟨fun hstring => ?_, fun hstring => ?_⟩
  · rw [step_string s hrun hstring]
    rcases stringPart_puts_cases s a with ⟨u, hputs, e, h⟩ | ⟨b, u, hpart, e, h⟩
    · exact .inl ⟨u, hputs, congrArg _ e, h.regs, h.cond, h.pc, h.memory, h.drawn, h.run, h.params⟩
    · exact .inr ⟨b, u, hpart, congrArg _ e, h.regs, h.cond, h.pc, h.memory, h.drawn, h.run, h.params⟩
  · rw [step_string s hrun hstring]
    obtain ⟨u, hputsp, e⟩ := stringPart_putsp s a
    have h := hputsp.frame
    exact ⟨u, hputsp, congrArg _ e, h.regs, h.cond, h.pc, h.memory, h.drawn, h.run, h.params⟩

/-! ## A string that does not run through KBSR -/

/-- The words `ws` stand in memory from address `a` on, modulo 65536. -/
def Spells (s : State) (a : Word) (ws : List Word) : Prop :=
  ∀ (i : Nat) (h : i < ws.length), s.cell (a + BitVec.ofNat 16 i) = ws[i]

/-- KBSR is none of the `n + 1` addresses from `a` on. -/
def ClearOfKbsr (a : Word) (n : Nat) : Prop := ∀ i ≤ n, a + BitVec.ofNat 16 i ≠ kbsr

theorem add_ofNat_succ (a : Word) (i : Nat) :
    a + BitVec.ofNat 16 (i + 1) = a + 1#16 + BitVec.ofNat 16 i := by
  rw [BitVec.ofNat_add, BitVec.add_assoc, BitVec.add_comm (BitVec.ofNat 16 i)]

section
variable {s : State} {a w : Word} {ws : List Word} {n : Nat}

theorem Spells.head (h : Spells s a (w :: ws)) : s.cell a = w := by
  simpa using h 0 (Nat.succ_pos _)

theorem Spells.tail (h : Spells s a (w :: ws)) : Spells s (a + 1#16) ws := fun i hi => by
  rw [← add_ofNat_succ]
  exact h (i + 1) (Nat.succ_lt_succ hi)

theorem ClearOfKbsr.head (h : ClearOfKbsr a n) : a ≠ kbsr := by
  simpa using h 0 (Nat.zero_le n)

theorem ClearOfKbsr.tail (h : ClearOfKbsr a (n + 1)) : ClearOfKbsr (a + 1#16) n := fun i hi => by
  rw [← add_ofNat_succ]
  exact h (i + 1) (Nat.succ_le_succ hi)

/-- A string clear of KBSR is shorter than memory, so that one step reads it. -/
theorem ClearOfKbsr.lt_stringFuel (h : ClearOfKbsr a n) (i : Input) : n < stringFuel i := by
  have hlt := readsToKbsr_lt a
  have hn : ¬ readsToKbsr a ≤ n := fun hle => h _ hle (add_readsToKbsr a)
  rw [stringFuel_eq]
  omega

end

theorem outAll_nil (s : State) : s.outAll [] = s := by
  simp [State.outAll]

theorem outAll_cons (s : State) (b : Byte) (bs : List Byte) :
    s.outAll (b :: bs) = (s.out b).outAll bs := by
  simp [State.outAll, State.out]

/-- PUTS emits the low byte of each nonzero word, up to a zero word (43_trap R119). -/
theorem putsLoop_spells {fuel : Nat} {a : Word} {s : State} {ws : List Word} (hws : Spells s a ws)
    (hne : ∀ w ∈ ws, w ≠ 0#16) (hend : s.cell (a + BitVec.ofNat 16 ws.length) = 0#16)
    (hclear : ClearOfKbsr a ws.length) (hfuel : ws.length < fuel) :
    putsLoop fuel a s = (none, s.outAll (ws.map lowHalf)) := by
  induction ws generalizing fuel a s with
  | nil =>
    obtain ⟨n, rfl⟩ := Nat.exists_eq_add_one_of_ne_zero (Nat.ne_zero_of_lt hfuel)
    have hz : s.cell a = 0#16 := by simpa using hend
    rw [putsLoop_succ, afterRead_ne s a hclear.head, if_pos hz, List.map_nil, outAll_nil]
  | cons w ws ih =>
    obtain ⟨n, rfl⟩ := Nat.exists_eq_add_one_of_ne_zero (Nat.ne_zero_of_lt hfuel)
    rw [List.length_cons, add_ofNat_succ] at hend
    rw [putsLoop_succ, afterRead_ne s a hclear.head, hws.head, if_neg (hne w List.mem_cons_self),
      List.map_cons, outAll_cons]
    exact ih (s := s.out (lowHalf w)) hws.tail (fun v hv => hne v (List.mem_cons_of_mem w hv)) hend
      hclear.tail (Nat.lt_of_succ_lt_succ hfuel)

/-- The bytes of a packed string: the low and then the high byte of each full word, and the low byte of the last
word unless it is zero (43_trap R121). -/
def packedBytes (ws : List Word) (last : Word) : List Byte :=
  ws.flatMap (fun w => [lowHalf w, highHalf w]) ++ if last = 0#16 then [] else [lowHalf last]

/-- PUTSP emits the bytes of a packed string, up to a word with a zero high byte (43_trap R121). -/
theorem putspLoop_spells {fuel : Nat} {a last : Word} {s : State} {ws : List Word} (hws : Spells s a ws)
    (hne : ∀ w ∈ ws, highHalf w ≠ 0#8) (hend : s.cell (a + BitVec.ofNat 16 ws.length) = last)
    (hlast : highHalf last = 0#8) (hclear : ClearOfKbsr a ws.length) (hfuel : ws.length < fuel) :
    putspLoop fuel a s = (none, s.outAll (packedBytes ws last)) := by
  induction ws generalizing fuel a s with
  | nil =>
    obtain ⟨n, rfl⟩ := Nat.exists_eq_add_one_of_ne_zero (Nat.ne_zero_of_lt hfuel)
    obtain rfl : s.cell a = last := by simpa using hend
    rw [putspLoop_succ, afterRead_ne s a hclear.head, if_pos hlast]
    by_cases hz : s.cell a = 0#16
    · simp [packedBytes, hz, outAll_nil]
    · simp [packedBytes, hz, outAll_cons, outAll_nil]
  | cons w ws ih =>
    obtain ⟨n, rfl⟩ := Nat.exists_eq_add_one_of_ne_zero (Nat.ne_zero_of_lt hfuel)
    have hhigh : highHalf w ≠ 0#8 := hne w List.mem_cons_self
    have hw : w ≠ 0#16 := fun hw => hhigh (hw ▸ rfl)
    rw [List.length_cons, add_ofNat_succ] at hend
    rw [putspLoop_succ, afterRead_ne s a hclear.head, hws.head, if_neg hw, if_neg hhigh,
      ih (s := (s.out (lowHalf w)).out (highHalf w)) hws.tail
      (fun v hv => hne v (List.mem_cons_of_mem w hv)) hend hclear.tail (Nat.lt_of_succ_lt_succ hfuel),
      packedBytes, packedBytes, List.flatMap_cons, List.append_assoc, List.cons_append, List.cons_append,
      List.nil_append, outAll_cons, outAll_cons]

/-- A TRAP that emits bytes and a flush changes nothing but R7 and the log. -/
theorem emitted_frame (s : State) (bs : List Byte) :
    TrapLinked s (s.trapEnter.outAll bs).endString ∧ (s.trapEnter.outAll bs).endString.cond = s.cond ∧
    (s.trapEnter.outAll bs).endString.pc = s.pc ∧ SameMemory s (s.trapEnter.outAll bs).endString ∧
    SameInput s (s.trapEnter.outAll bs).endString ∧ (s.trapEnter.outAll bs).endString.run = s.run ∧
    (s.trapEnter.outAll bs).endString.fault = s.fault ∧
    (s.trapEnter.outAll bs).endString.inPrompted = s.inPrompted ∧
    (s.trapEnter.outAll bs).endString.inString = none ∧
    SameParams s (s.trapEnter.outAll bs).endString := by
  obtain ⟨hlinked, hcond, hpc, hmem, hinput, ⟨hrun, hfault, hprompted, -⟩, hparams⟩ := trapEnter_frame s
  exact ⟨hlinked, hcond, hpc, hmem, hinput, hrun, hfault, hprompted, rfl, hparams⟩

theorem emitted_outLog (s : State) (bs : List Byte) :
    (s.trapEnter.outAll bs).endString.outLog = s.outLog ++ bs.map .byte ++ [.flush] := by
  rw [endString_outLog, outAll_outLog, trapEnter_outLog]

/-- Settles O29: the loop emits the string, with no poll on its way. -/
theorem putsEmitsString : Obligations.PutsEmitsString := by
  intro s ws hws hne hend hclear
  have hclear : ClearOfKbsr (s.reg 0#3) ws.length := hclear
  have hloop : putsLoop (stringFuel s.trapEnter.input) (s.reg 0#3) s.trapEnter =
      (none, s.trapEnter.outAll (ws.map lowHalf)) :=
    putsLoop_spells (fun i hi => (trapEnter_cell s _).trans (hws i hi)) hne
      ((trapEnter_cell s _).trans hend) hclear (hclear.lt_stringFuel _)
  refine ⟨_, (exec_trapPuts s).trans (congrArg _ (stringPart_of_end hloop)), ?_, emitted_frame s _⟩
  rw [emitted_outLog, List.map_map]
  rfl

/-- Settles O33: the loop emits the packed string, with no poll on its way. -/
theorem putspEmitsPackedString : Obligations.PutspEmitsPackedString := by
  intro s ws last hws hne hend hlast hclear
  have hclear : ClearOfKbsr (s.reg 0#3) ws.length := hclear
  have hloop : putspLoop (stringFuel s.trapEnter.input) (s.reg 0#3) s.trapEnter =
      (none, s.trapEnter.outAll (packedBytes ws last)) :=
    putspLoop_spells (fun i hi => (trapEnter_cell s _).trans (hws i hi)) hne
      ((trapEnter_cell s _).trans hend) hlast hclear (hclear.lt_stringFuel _)
  refine ⟨_, (exec_trapPutsp s).trans (congrArg _ (stringPart_of_end hloop)), ?_, emitted_frame s _⟩
  rw [emitted_outLog, packedBytes, List.map_append, List.map_flatMap, ← List.append_assoc]
  split <;> rfl

end Sys2Proof.Machine
end

section
/-! PROOFS. PUTS as a whole (43_trap_system R119, 60_exceptions R147(b)): its parts, step after step, reach the end of
the spec's loop if there is one, and go on for ever if no word read is zero. -/

namespace Sys2Proof.Machine

/-! ## What the string loops do not look at -/

/-- `s` with other registers, another TRAP_LINKS_R7 and another place in a string routine: no read and no output
looks at these. -/
def State.aside (s : State) (g : Vector Word 8 → Vector Word 8) (l : Bool → Bool)
    (p : Option (StringRoutine × Word) → Option (StringRoutine × Word)) : State :=
  { s with regs := g s.regs, trapLinksR7 := l s.trapLinksR7, inString := p s.inString }

section
variable (s : State) (g : Vector Word 8 → Vector Word 8) (l : Bool → Bool)
  (p : Option (StringRoutine × Word) → Option (StringRoutine × Word))

@[simp] theorem aside_input : (s.aside g l p).input = s.input := rfl
@[simp] theorem aside_cell (a : Word) : (s.aside g l p).cell a = s.cell a := rfl
@[simp] theorem out_aside (b : Byte) : (s.aside g l p).out b = (s.out b).aside g l p := rfl

@[simp] theorem poll_aside : (s.aside g l p).poll = s.poll.aside g l p := by
  cases h : s.input.answer with
  | idle => rw [poll_of_idle h, poll_of_idle (s := s.aside g l p) h]; rfl
  | key c => rw [poll_of_key h, poll_of_key (s := s.aside g l p) h]; rfl

@[simp] theorem afterRead_aside (a : Word) : (s.aside g l p).afterRead a = (s.afterRead a).aside g l p := by
  unfold State.afterRead
  split
  · exact poll_aside s g l p
  · rfl

theorem putsLoop_aside (fuel : Nat) (a : Word) :
    putsLoop fuel a (s.aside g l p) = ((putsLoop fuel a s).1, (putsLoop fuel a s).2.aside g l p) := by
  induction fuel generalizing a s with
  | zero => rfl
  | succ n ih =>
    simp only [putsLoop_succ, afterRead_aside, aside_cell, out_aside, ih]
    split <;> rfl

theorem putspLoop_aside (fuel : Nat) (a : Word) :
    putspLoop fuel a (s.aside g l p) = ((putspLoop fuel a s).1, (putspLoop fuel a s).2.aside g l p) := by
  induction fuel generalizing a s with
  | zero => rfl
  | succ n ih =>
    simp only [putspLoop_succ, afterRead_aside, aside_cell, out_aside, ih]
    split
    · rfl
    · split <;> rfl

end

/-! ## The loop of PUTS in parts -/

section
variable {m n : Nat} {a b : Word} {s t u : State}

/-- With more reads than it needs, the loop ends in the same state. -/
theorem putsLoop_add_of_end (h : putsLoop m a s = (none, u)) (n : Nat) :
    putsLoop (m + n) a s = (none, u) := by
  induction m generalizing a s with
  | zero => exact nomatch congrArg Prod.fst h
  | succ m ih =>
    rw [Nat.succ_add, putsLoop_succ]
    rw [putsLoop_succ] at h
    split at h
    · next hz => rw [if_pos hz, h]
    · next hz => rw [if_neg hz, ih h]

/-- After a part of the loop the rest of its reads are made from where the part has ended. -/
theorem putsLoop_add_of_part (h : putsLoop m a s = (some b, t)) (n : Nat) :
    putsLoop (m + n) a s = putsLoop n b t := by
  induction m generalizing a s with
  | zero =>
    obtain ⟨hb, rfl⟩ := Prod.mk.inj h
    obtain rfl := Option.some.inj hb
    rw [Nat.zero_add]
  | succ m ih =>
    rw [Nat.succ_add, putsLoop_succ]
    rw [putsLoop_succ] at h
    split at h
    · exact nomatch congrArg Prod.fst h
    · next hz => rw [if_neg hz, ih h]

theorem putsLoop_end_unique (h : putsLoop m a s = (none, t)) (h' : putsLoop n a s = (none, u)) : t = u := by
  have e := putsLoop_add_of_end h n
  rw [Nat.add_comm, putsLoop_add_of_end h' m] at e
  exact (congrArg Prod.snd e).symm

/-- The spec's loop, where it ends, makes some number of reads. -/
theorem putsLoop_of_run (h : PutsRun a s u) : ∃ n, putsLoop n a s = (none, u) := by
  induction h with
  | stop a s hz => exact ⟨1, (putsLoop_succ 0 a s).trans (if_pos hz)⟩
  | char a s t hne _ ih =>
    obtain ⟨n, e⟩ := ih
    exact ⟨n + 1, (putsLoop_succ n a s).trans ((if_neg hne).trans e)⟩

end

/-- The loop does not look at the place in a string routine. -/
theorem putsLoop_stayInString (n : Nat) (a : Word) (s : State) (r : StringRoutine) (b : Word) :
    putsLoop n a (s.stayInString r b) =
      ((putsLoop n a s).1, (putsLoop n a s).2.stayInString r b) :=
  putsLoop_aside s id id (fun _ => some (r, b)) n a

/-- A part of a routine of a running machine is followed by a step that makes the next part. -/
theorem step_of_part {s t : State} {r : StringRoutine} {a b : Word} (hrun : s.run = .running)
    (h : s.stringPart r a = t.stayInString r b) :
    step (s.stringPart r a) = .next ((t.stayInString r b).stringPart r b) := by
  have hrun' : (t.stayInString r b).run = .running := h ▸ (stringPart_run s r a).trans hrun
  rw [h, step_string _ hrun' rfl]

/-- The parts of a PUTS whose loop ends lead to its end, by induction on the reads that are left. -/
theorem run_puts_to_end (n : Nat) {a : Word} {s u : State} (hrun : s.run = .running)
    (h : putsLoop n a s = (none, u)) :
    ∃ k, Host.Core.run Sys2Proof.core k (s.stringPart .puts a) = .next u.endString := by
  induction n using Nat.strong_induction_on generalizing a s u with
  | _ n ih =>
    rcases stringPart_cases s .puts a with ⟨v, hloop, e⟩ | ⟨b, v, hloop, e⟩
    · obtain rfl := putsLoop_end_unique hloop h
      exact ⟨0, congrArg _ e⟩
    · have hpos : 0 < stringFuel s.input := by rw [stringFuel_eq]; omega
      have hlt : stringFuel s.input < n := by
        by_contra hle
        have hend := putsLoop_add_of_end h (stringFuel s.input - n)
        rw [Nat.add_sub_cancel' (Nat.le_of_not_lt hle)] at hend
        exact nomatch hloop.symm.trans hend
      obtain ⟨left, rfl⟩ := Nat.exists_eq_add_of_le (Nat.le_of_lt hlt)
      rw [putsLoop_add_of_part hloop] at h
      obtain ⟨k, hk⟩ := ih left (by omega) (a := b) (s := v.stayInString .puts b)
        (u := u.stayInString .puts b) (e ▸ (stringPart_run s .puts a).trans hrun)
        (by rw [putsLoop_stayInString, h])
      exact ⟨k + 1, (run_succ _ k (step_of_part hrun e)).trans hk⟩

/-! ## A loop of PUTS that never ends -/

/-- No word of memory but KBSR's is zero, and every call of the input device finds a character that is not zero. -/
structure Endless (s : State) : Prop where
  words : ∀ a : Word, a ≠ kbsr → s.cell a ≠ 0x0000#16
  keys : ∀ k : Nat, ∃ c : Byte, c ≠ 0x00#8 ∧ (s.input.drop k).answer = .key c

theorem zext16_ne_zero {c : Byte} (h : c ≠ 0#8) : zext16 c ≠ 0#16 := fun e =>
  h (by simpa [zext16] using congrArg (BitVec.setWidth 8) e)

/-- A poll of such a machine leaves no zero word: KBSR is ready, and KBDR holds the character. -/
theorem Endless.poll {s : State} (h : Endless s) : s.poll.cell kbsr ≠ 0#16 ∧ Endless s.poll := by
  obtain ⟨c, hc, hanswer⟩ := h.keys 0
  refine ⟨?_, fun a ha => ?_, fun k => ?_⟩
  · rw [poll_cell_kbsr_of_key hanswer]
    decide
  · by_cases hd : a = kbdr
    · rw [hd, poll_cell_kbdr_of_key hanswer]
      exact zext16_ne_zero hc
    · rw [poll_cell_ne s a ha hd]
      exact h.words a ha
  · rw [poll_input]
    exact h.keys (k + 1)

theorem Endless.afterRead {s : State} (h : Endless s) (a : Word) :
    (s.afterRead a).cell a ≠ 0#16 ∧ Endless (s.afterRead a) := by
  rcases afterRead_cases s a with ⟨rfl, e⟩ | ⟨ha, e⟩ <;> rw [e]
  · exact h.poll
  · exact ⟨h.words a ha, h⟩

/-- No number of reads finds the end of the string, and each read is followed by a byte of output. -/
theorem putsLoop_of_endless (n : Nat) (a : Word) {s : State} (h : Endless s) :
    ∃ b t, putsLoop n a s = (some b, t) ∧ Endless t ∧
      ∃ bs : List Byte, t.outLog = s.outLog ++ bs.map .byte ∧ bs.length = n := by
  induction n generalizing a s with
  | zero => exact ⟨a, s, rfl, h, [], (List.append_nil _).symm, rfl⟩
  | succ n ih =>
    obtain ⟨hne, hread⟩ := h.afterRead a
    have hout : Endless ((s.afterRead a).out (lowHalf ((s.afterRead a).cell a))) :=
      ⟨hread.words, hread.keys⟩
    obtain ⟨b, t, hloop, ht, bs, hlog, hlen⟩ := ih (a + 1#16) hout
    refine ⟨b, t, ?_, ht, lowHalf ((s.afterRead a).cell a) :: bs, ?_, congrArg (· + 1) hlen⟩
    · rw [putsLoop_succ, if_neg hne, hloop]
    · rw [hlog, out_outLog, afterRead_outLog, List.append_assoc]
      rfl

/-- A step's share of such a PUTS stays inside it, and has emitted bytes. -/
theorem stringPart_of_endless (a : Word) {s : State} (h : Endless s) :
    ∃ b t, s.stringPart .puts a = t.stayInString .puts b ∧ LoopFrame s t ∧ Endless t ∧
      ∃ bs : List Byte, t.outLog = s.outLog ++ bs.map .byte ∧ 0 < bs.length := by
  obtain ⟨b, t, hloop, ht, bs, hlog, hlen⟩ := putsLoop_of_endless (stringFuel s.input) a h
  have hframe : LoopFrame s t := ((putsLoop_run _ a s t).2 b hloop).frame
  refine ⟨b, t, stringPart_of_part hloop, hframe, ht, bs, hlog, ?_⟩
  rw [hlen, stringFuel_eq]
  omega

/-- Such a PUTS never ends: after any number of steps the machine is inside it, and more bytes than steps have been
emitted. -/
theorem run_puts_endless (n : Nat) (a : Word) {s : State} (hrun : s.run = .running) (h : Endless s) :
    ∃ (t : State) (bs : List Byte),
      Host.Core.run Sys2Proof.core n (s.stringPart .puts a) = .next t ∧
      t.run = .running ∧ t.fault = s.fault ∧ t.pc = s.pc ∧ (∃ b, t.inString = some (.puts, b)) ∧
      t.outLog = s.outLog ++ bs.map .byte ∧ n < bs.length := by
  induction n generalizing a s with
  | zero =>
    obtain ⟨b, t, e, hframe, -, bs, hlog, hlen⟩ := stringPart_of_endless a h
    obtain ⟨hrun', hfault, -⟩ := hframe.run
    exact ⟨_, bs, congrArg _ e, hrun'.trans hrun, hfault, hframe.pc, ⟨b, rfl⟩, hlog, hlen⟩
  | succ n ih =>
    obtain ⟨b, t, e, hframe, ht, bs, hlog, hlen⟩ := stringPart_of_endless a h
    obtain ⟨hrun', hfault, -⟩ := hframe.run
    obtain ⟨v, more, hv, hvrun, hvfault, hvpc, hvstring, hvlog, hvlen⟩ :=
      ih b (s := t.stayInString .puts b) (hrun'.trans hrun) ⟨ht.words, ht.keys⟩
    refine ⟨v, bs ++ more, (run_succ _ n (step_of_part hrun e)).trans hv, hvrun, hvfault.trans hfault,
      hvpc.trans hframe.pc, hvstring, ?_, ?_⟩
    · rw [hvlog, stayInString_outLog, hlog, List.map_append, List.append_assoc]
    · rw [List.length_append]
      omega

/-! ## The step at the TRAP -/

/-- The step of a running machine at a PUTS makes its first part. -/
theorem step_puts {s : State} (hrun : s.run = .running) (hstring : s.inString = none) (hpc : s.pc ≠ kbsr)
    (hputs : decodeWord (s.cell s.pc) = .trapPuts) :
    step s = .next ((s.setPc (s.pc + 1#16)).trapEnter.stringPart .puts (s.reg 0#3)) := by
  rw [step_plain s hrun hstring hpc, hputs, exec_trapPuts, setPc_reg]

/-- Settles O35: the parts make the reads of the loop one after another, whether it ends or not. -/
theorem putsEndsOrHangs : Obligations.PutsEndsOrHangs := by
  refine ⟨fun s u hrun hstring hpc hputs hloop => ?_, fun s hrun hstring hpc hputs hwords hkeys n => ?_⟩
  · obtain ⟨m, hend⟩ := putsLoop_of_run hloop
    obtain ⟨k, hk⟩ := run_puts_to_end m (by simpa using hrun) hend
    exact ⟨k, (run_succ s k (step_puts hrun hstring hpc hputs)).trans hk⟩
  · have hendless : Endless (s.setPc (s.pc + 1#16)).trapEnter := by
      constructor <;> simpa
    obtain ⟨t, bs, ht, hrun', hfault, hpc', hin, hlog, hlen⟩ :=
      run_puts_endless n (s.reg 0#3) (by simpa using hrun) hendless
    exact ⟨t, bs, (run_succ s n (step_puts hrun hstring hpc hputs)).trans ht, hrun', by simpa using hfault,
      by simpa using hpc', hin, by simpa using hlog, hlen⟩

end Sys2Proof.Machine
end

section
/-! PROOFS. What TRAP_LINKS_R7 decides (43_trap_system R116, 70_reset_and_hazards R165): two runs of an instruction that
differ in it alone differ in R7, and only after a TRAP. -/

namespace Sys2Proof.Machine

/-! ## Every operation does the same in a state put aside -/

section
variable (s : State) (g : Vector Word 8 → Vector Word 8) (l : Bool → Bool)

theorem loop_aside (r : StringRoutine) (fuel : Nat) (a : Word) :
    r.loop fuel a (s.aside g l id) = ((r.loop fuel a s).1, (r.loop fuel a s).2.aside g l id) := by
  cases r with
  | puts => exact putsLoop_aside s g l id fuel a
  | putsp => exact putspLoop_aside s g l id fuel a

theorem stringPart_aside (r : StringRoutine) (a : Word) :
    (s.aside g l id).stringPart r a = (s.stringPart r a).aside g l id := by
  rw [State.stringPart, State.stringPart, aside_input, loop_aside]
  rcases r.loop (stringFuel s.input) a s with ⟨_ | b, u⟩ <;> rfl

theorem prompt_aside : (s.aside g l id).prompt = s.prompt.aside g l id := by
  rcases prompt_cases s with ⟨h, e⟩ | ⟨h, e⟩ <;> rw [e]
  · exact if_pos h
  · exact if_neg fun hp => Bool.false_ne_true (h.symm.trans hp)

theorem memRead_aside (a : Word) :
    (s.aside g l id).memRead a = ((s.memRead a).1, (s.memRead a).2.aside g l id) := by
  rw [State.memRead, afterRead_aside]
  rfl

end

/-! ## An instruction that is no TRAP -/

/-- An instruction that is no TRAP does not look at TRAP_LINKS_R7 (43_trap R115). -/
theorem exec_relinked {i : Instr} (hi : i.isTrap = false) (l : Bool → Bool) {s t : State}
    (h : exec i s = .next t) : exec i (s.aside id l id) = .next (t.aside id l id) := by
  cases i with
  | addReg | addImm | andReg | andImm | not | lea | jmp | jsr | jsrr | st | str | rti | res =>
    obtain rfl := Host.Outcome.next.inj h
    rfl
  | br cond offset9 =>
    obtain rfl := Host.Outcome.next.inj h
    change Host.Outcome.next (if s.condMet cond then _ else _) = _
    split <;> rfl
  | ld dr offset9 =>
    obtain rfl := Host.Outcome.next.inj h
    exact congrArg (fun r => Host.Outcome.next (r.2.setReg dr r.1)) (memRead_aside s id l (s.eaPc offset9))
  | ldr dr baseR offset6 =>
    obtain rfl := Host.Outcome.next.inj h
    exact congrArg (fun r => Host.Outcome.next (r.2.setReg dr r.1))
      (memRead_aside s id l (s.eaBase baseR offset6))
  | ldi dr offset9 =>
    have hpointer := memRead_aside s id l (s.pc + sext16 offset9)
    obtain rfl := Host.Outcome.next.inj ((exec_ldi dr (s := s) rfl).symm.trans h)
    rw [exec_ldi dr (s := s.aside id l id) hpointer, State.load, memRead_aside]
    rfl
  | sti sr offset9 =>
    have hpointer := memRead_aside s id l (s.pc + sext16 offset9)
    obtain rfl := Host.Outcome.next.inj ((exec_sti sr (s := s) rfl).symm.trans h)
    exact exec_sti sr (s := s.aside id l id) hpointer
  | trapGetc | trapOut | trapPuts | trapIn | trapPutsp | trapHalt | trapUndef00 | trapUndef26 | trapUndef28
  | trapUndef30 | trapUndef40 | trapUndef80 => exact nomatch hi

/-! ## A TRAP -/

/-- `s` as it is where TRAPs link, with `v` in R7. -/
def State.linked (s : State) (v : Word) : State := s.aside (·.set 7 v) (fun _ => true) id

section
variable (s : State) (v : Word)

/-- R0 and R7 are written in either order. -/
theorem setReg_zero_linked (w : Word) : (s.linked v).setReg 0#3 w = (s.setReg 0#3 w).linked v :=
  congrArg (fun regs => { s with regs := regs, trapLinksR7 := true })
    (Vector.set_comm v w (by decide : (7 : Nat) ≠ 0))

/-- The two ways of a TRAP begin in states that differ in R7 and the parameter. -/
theorem trapEnter_links {s : State} (h : s.trapLinksR7 = false) :
    s.trapEnter = s ∧ State.trapEnter { s with trapLinksR7 := true } = s.linked s.pc := by
  rw [State.trapEnter, h]
  exact ⟨rfl, rfl⟩

theorem enterIn_links {s : State} (h : s.trapLinksR7 = false) :
    State.enterIn { s with trapLinksR7 := true } = s.enterIn.linked s.pc := by
  obtain ⟨e, elinks⟩ := trapEnter_links h
  rw [State.enterIn, State.enterIn, e, elinks]
  exact prompt_aside s _ _

end

section
variable {s t : State} (hs : s.trapLinksR7 = false)
include hs

/-- A GETC that links differs in R7, unless it is held: then it has done nothing (43_trap R126). -/
theorem exec_trapGetc_links (h : exec .trapGetc s = .next t) :
    exec .trapGetc { s with trapLinksR7 := true } = .next (t.linked s.pc) ∨
    (firstKey s.input.listed s.input.later = none ∧
      exec .trapGetc { s with trapLinksR7 := true } = .next { t with trapLinksR7 := true }) := by
  rcases hk : firstKey s.input.listed s.input.later with _ | ⟨c, rest⟩
  · obtain rfl := Host.Outcome.next.inj ((exec_trapGetc_of_none hk).symm.trans h)
    exact .inr ⟨rfl, exec_trapGetc_of_none (s := { s with trapLinksR7 := true }) hk⟩
  · obtain rfl := Host.Outcome.next.inj ((exec_trapGetc_of_key hk).symm.trans h)
    obtain ⟨e, elinks⟩ := trapEnter_links hs
    refine .inl ((exec_trapGetc_of_key (s := { s with trapLinksR7 := true }) hk).trans ?_)
    rw [e, elinks, ← setReg_zero_linked]
    rfl

theorem exec_trapIn_links (h : exec .trapIn s = .next t) :
    exec .trapIn { s with trapLinksR7 := true } = .next (t.linked s.pc) := by
  rcases hk : firstKey s.input.listed s.input.later with _ | ⟨c, rest⟩
  · obtain rfl := Host.Outcome.next.inj ((exec_trapIn_of_none hk).symm.trans h)
    rw [exec_trapIn_of_none (s := { s with trapLinksR7 := true }) hk, enterIn_links hs]
    rfl
  · obtain rfl := Host.Outcome.next.inj ((exec_trapIn_of_key hk).symm.trans h)
    rw [exec_trapIn_of_key (s := { s with trapLinksR7 := true }) hk, enterIn_links hs]
    exact congrArg (fun u => Host.Outcome.next (u.out c).endPrompt)
      (setReg_zero_linked (s.enterIn.consume rest) s.pc (zext16 c))

/-- A TRAP without a routine links before it raises (43_trap R123). -/
theorem exec_raises_links {i : Instr} {f : FaultCause} (hi : i.isTrap = true) (hraise : i.raises = some f)
    (h : exec i s = .next t) : exec i { s with trapLinksR7 := true } = .next (t.linked s.pc) := by
  obtain ⟨e, elinks⟩ := trapEnter_links hs
  obtain rfl := Host.Outcome.next.inj ((exec_raises hraise s).symm.trans h)
  rw [exec_raises hraise, hi, if_pos rfl, if_pos rfl, elinks, e]
  rfl

/-- A TRAP that links differs from one that does not in R7, unless it is a GETC that is held. -/
theorem exec_trap_links {i : Instr} (hi : i.isTrap = true) (h : exec i s = .next t) :
    exec i { s with trapLinksR7 := true } = .next (t.linked s.pc) ∨
    (i = .trapGetc ∧ firstKey s.input.listed s.input.later = none ∧
      exec i { s with trapLinksR7 := true } = .next { t with trapLinksR7 := true }) := by
  obtain ⟨e, elinks⟩ := trapEnter_links hs
  cases i with
  | trapGetc => exact (exec_trapGetc_links hs h).imp_right fun hheld => ⟨rfl, hheld⟩
  | trapIn => exact .inl (exec_trapIn_links hs h)
  | trapOut =>
    obtain rfl := Host.Outcome.next.inj ((exec_trapOut s).symm.trans h)
    rw [exec_trapOut, elinks, e]
    exact .inl rfl
  | trapPuts =>
    obtain rfl := Host.Outcome.next.inj ((exec_trapPuts s).symm.trans h)
    rw [exec_trapPuts, elinks, e]
    exact .inl (congrArg _ (stringPart_aside s _ _ _ _))
  | trapPutsp =>
    obtain rfl := Host.Outcome.next.inj ((exec_trapPutsp s).symm.trans h)
    rw [exec_trapPutsp, elinks, e]
    exact .inl (congrArg _ (stringPart_aside s _ _ _ _))
  | trapHalt =>
    obtain rfl := Host.Outcome.next.inj ((exec_trapHalt s).symm.trans h)
    rw [exec_trapHalt, elinks, e]
    exact .inl rfl
  | trapUndef00 | trapUndef26 | trapUndef28 | trapUndef30 | trapUndef40 | trapUndef80 =>
    exact .inl (exec_raises_links hs hi rfl h)
  | _ => exact nomatch hi

end

/-- Settles O59: the link is a write of R7 at the entry of the TRAP, which its routine does not look at. -/
theorem trapLinkAffectsOnlyR7 : Obligations.TrapLinkAffectsOnlyR7 := by
  intro i s t u ht hu
  cases hi : i.isTrap with
  | false =>
    have hrelinked := exec_relinked hi (fun _ => true) ht
    obtain rfl := Host.Outcome.next.inj (hu.symm.trans hrelinked)
    exact ⟨fun _ _ => rfl, rfl, fun _ => rfl, nofun⟩
  | true =>
    rcases exec_trap_links (s := { s with trapLinksR7 := false }) rfl hi ht with e | ⟨rfl, hnone, e⟩ <;>
      obtain rfl := Host.Outcome.next.inj (hu.symm.trans e)
    · exact ⟨setReg_sameRegsOff t 7#3 s.pc, rfl, nofun, fun _ => .inl (setReg_reg_self t 7#3 s.pc)⟩
    · obtain ⟨hlisted, hfirst⟩ := firstKey_none.1 hnone
      exact ⟨fun _ _ => rfl, rfl, nofun, fun _ => .inr ⟨rfl, hlisted, hfirst, rfl⟩⟩

end Sys2Proof.Machine
end

section
/-! PROOFS. Nothing stops the model without a next state (60_exceptions R140, R141, R147). -/

namespace Sys2Proof.Machine

/-- Only the wait of GETC and IN asks whether there is an answer, and both of its outcomes are next states. A
fault is raised in a next state (60_exceptions R139), and a string routine answers a step's share of it. -/
theorem exec_completes (i : Instr) (s : State) : ∃ t, exec i s = .next t := by
  cases i with
  | addReg | addImm | andReg | andImm | not | br | jmp | jsr | jsrr | ld | ldi | ldr | lea | st | sti | str =>
    exact ⟨_, rfl⟩
  | trapGetc =>
    rcases exec_trapGetc_cases s with ⟨-, hheld⟩ | ⟨c, rest, -, htaken⟩
    · exact ⟨_, hheld⟩
    · exact ⟨_, htaken⟩
  | trapIn =>
    rcases exec_trapIn_cases s with ⟨-, hheld⟩ | ⟨c, rest, -, htaken⟩
    · exact ⟨_, hheld⟩
    · exact ⟨_, htaken⟩
  | trapOut => exact ⟨_, exec_trapOut s⟩
  | trapPuts => exact ⟨_, exec_trapPuts s⟩
  | trapPutsp => exact ⟨_, exec_trapPutsp s⟩
  | trapHalt => exact ⟨_, exec_trapHalt s⟩
  | trapUndef00 | trapUndef26 | trapUndef28 | trapUndef30 | trapUndef40 | trapUndef80 | rti | res =>
    exact ⟨_, exec_raises rfl s⟩

/-- A step is frozen, a share of a string routine, or an instruction (10_state R38, 60_exceptions R147(b),
70_reset R160). -/
theorem step_completes (s : State) : ∃ t, step s = .next t := by
  by_cases hrun : s.run = .running
  · rcases hstring : s.inString with _ | ⟨r, a⟩
    · exact step_running s hrun hstring ▸ exec_completes _ _
    · exact ⟨_, step_string s hrun hstring⟩
  · exact ⟨s, step_ended s hrun⟩

/-- Settles O48, by the kinds of instruction and the kinds of step. -/
theorem everyInstructionCompletes : Obligations.EveryInstructionCompletes :=
  ⟨exec_completes, step_completes⟩

end Sys2Proof.Machine
end

section
/-! PROOFS. Reset and the step (70_reset_and_hazards R155, R160, R166): the state in which a run begins, the instruction
that a step runs, the fetch at KBSR, and the no-ops of a memory that holds nothing. -/

namespace Sys2Proof.Machine

/-! ## Reset and the step of a running machine -/

/-- Settles O40: the launch gives every field its value. -/
theorem resetState : Obligations.ResetState := fun _ =>
  ⟨fun _ => rfl, fun _ => rfl, rfl, rfl, rfl, rfl, rfl, rfl, rfl, rfl, rfl, rfl⟩

/-- The two bytes of a word decode as the word does. -/
theorem decode_bytes_of_cell (s : State) (a : Word) (rest : List Byte) :
    decode (s.mem.readByte (highAddr a) :: s.mem.readByte (lowAddr a) :: rest) =
      .ok (decodeWord (s.cell a), rest) := rfl

/-- Settles O43, by the kinds of step of a running machine; the bytes at the pc are those of the word fetched. -/
theorem stepRunsDecodedInstruction : Obligations.StepRunsDecodedInstruction := by
  refine ⟨fun s hrun hstring => ⟨decodeWord_wellFormed _, step_running s hrun hstring⟩,
    fun s i rest hrun hstring hpc hdecode => ?_, fun s r a hrun hstring => step_string s hrun hstring⟩
  rw [decode_bytes_of_cell] at hdecode
  obtain ⟨hi, -⟩ := Prod.mk.inj (Except.ok.inj hdecode)
  rw [step_plain s hrun hstring hpc, hi]
  rfl

/-! ## An encoding stored where the next step fetches -/

/-- The state that `withFetchWord` stores its word in: a machine that is running, inside no instruction, with the pc at
an address whose stored content is what is fetched (notes/assumptions/11.md). -/
def State.readyToFetch (s : State) : State :=
  { s with
    pc := if s.pc = kbsr then Config.pcStart else s.pc
    run := .running
    fault := if s.run = .running then s.fault else none
    inPrompted := false
    inString := none }

section
variable (s : State)

/-- `withFetchWord` is a plain store at the pc, once the machine is ready to fetch. -/
theorem withFetchWord_eq_memWrite (w : Word) :
    s.withFetchWord 16 w.toNat = s.readyToFetch.memWrite s.readyToFetch.pc w := by
  have hword : BitVec.ofNat 16 (w.toNat % 2 ^ 16) = w := by
    rw [Nat.mod_eq_of_lt w.isLt, BitVec.ofNat_toNat, BitVec.setWidth_eq]
  rw [State.withFetchWord, hword]
  rfl

theorem readyToFetch_pc_of_ne (h : s.pc ≠ kbsr) : s.readyToFetch.pc = s.pc := if_neg h

theorem readyToFetch_pc_ne_kbsr : s.readyToFetch.pc ≠ kbsr := by
  by_cases h : s.pc = kbsr
  · have hstart : s.readyToFetch.pc = Config.pcStart := if_pos h
    rw [hstart]
    decide
  · rwa [readyToFetch_pc_of_ne s h]

end

/-- Settles O44: the next step runs the word stored at the pc, and that word decodes to the instruction it encodes. -/
theorem storedEncodingRuns : Obligations.StoredEncodingRuns := by
  refine ⟨fun s i hrun hstring hpc hi => ?_, fun s i hi => ?_⟩
  · rw [step_memWrite_pc s hrun hstring hpc, decodeWord_encode hi]
  · have hstep := step_memWrite_pc s.readyToFetch (w := encode i) rfl rfl (readyToFetch_pc_ne_kbsr s)
    rw [← withFetchWord_eq_memWrite, decodeWord_encode hi] at hstep
    refine ⟨_, hstep, fun _ => rfl, rfl, rfl, rfl, rfl, ⟨rfl, rfl⟩, rfl, ⟨rfl, rfl, rfl⟩, fun hpc => ?_⟩
    rw [withFetchWord_eq_memWrite, readyToFetch_pc_of_ne s hpc]
    exact ⟨rfl, memWrite_sameMemoryOff s.readyToFetch s.pc (encode i)⟩

/-! ## The fetch at KBSR -/

/-- The word of a poll that finds a character is RTI (70_reset R166). -/
theorem decodeWord_kbsrReady : decodeWord kbsrReady = .rti 0#12 := decodeWord_encode_rti 0#12

/-- The word of a poll that finds none is a BR that tests no flag (70_reset R166). -/
theorem decodeWord_zero : decodeWord 0#16 = .br 0#3 0#9 := decodeWord_of_encode rfl rfl

/-- A BR that tests no flag does nothing (41_control R90). -/
theorem exec_br_no_flag (s : State) (offset9 : BitVec 9) : exec (.br 0#3 offset9) s = .next s :=
  exec_br_not_taken s BitVec.and_zero offset9

section
variable {s : State} {c : Byte} (hrun : s.run = .running) (hstring : s.inString = none)
include hrun hstring

/-- A step at KBSR runs the word that its poll leaves there, never what was stored (70_reset R166). -/
theorem step_kbsr (hpc : s.pc = kbsr) :
    step s = exec (decodeWord (s.poll.cell kbsr)) (s.poll.setPc (kbsr + 1#16)) := by
  rw [step_running s hrun hstring, fetch_fst, fetch_snd, hpc, afterRead_kbsr]

/-- The fault names the fetch address, which is one before the pc (60_exceptions R139). -/
theorem step_kbsr_of_key (hpc : s.pc = kbsr) (h : s.input.answer = .key c) :
    step s = .next ((s.poll.setPc (kbsr + 1#16)).raise .illegalOpcode kbsrReady) := by
  rw [step_kbsr hrun hstring hpc, poll_cell_kbsr_of_key h, decodeWord_kbsrReady, exec_rti]
  rfl

theorem step_kbsr_of_idle (hpc : s.pc = kbsr) (h : s.input.answer = .idle) :
    step s = .next (s.poll.setPc (kbsr + 1#16)) := by
  rw [step_kbsr hrun hstring hpc, poll_cell_kbsr_of_idle h, decodeWord_zero, exec_br_no_flag]

end

/-- Settles O46, by the next answer: the poll is the fetch, and RTI or the no-op adds the fault or nothing. -/
theorem fetchAtKbsrPolls : Obligations.FetchAtKbsrPolls := by
  refine fun s hrun hstring hpc => ⟨fun c hkey => ?_, fun hidle => ?_⟩
  · refine ⟨_, step_kbsr_of_key hrun hstring hpc hkey, rfl, ?_, rfl, poll_cell_kbsr_of_key hkey,
      poll_cell_kbdr_of_key hkey, poll_input s, poll_inPos_of_key hkey, poll_reg s, poll_cond s,
      poll_sameMemoryOffKeyboard s, poll_outLog s⟩
    rw [raise_fault, setPc_pc, BitVec.add_sub_cancel]
    rfl
  · exact ⟨_, step_kbsr_of_idle hrun hstring hpc hidle, (poll_run s).trans hrun, poll_fault s, rfl,
      poll_cell_kbsr_of_idle hidle, poll_sameMemoryOff_of_idle hidle, poll_input s,
      poll_inPos_of_idle hidle, poll_reg s, poll_cond s, poll_outLog s⟩

/-! ## A memory with no cell listed -/

/-- A zero is what an unlisted cell reads as, so that storing one lists no cell. -/
theorem writeWord_nil_zero (a : Word) : Memory.writeWord [] a 0#16 = [] := rfl

section
variable {s : State}

/-- Every word of a memory with no cell listed is 0 (10_state R31). -/
theorem cell_of_mem_nil (h : s.mem = []) (a : Word) : s.cell a = 0#16 := by
  rw [State.cell, h, Memory.readWord, readByte_nil, readByte_nil]
  rfl

/-- A poll that finds no character stores 0 in KBSR, which holds 0 already. -/
theorem poll_of_idle_of_mem_nil (hmem : s.mem = []) (h : s.input.answer = .idle) :
    s.poll = { s with input := s.input.rest } := by
  rw [poll_of_idle h, State.memWrite, decline_mem, hmem, writeWord_nil_zero, ← hmem]
  rfl

/-- A step over zero memory is a no-op: it uses up an answer where its fetch polls. -/
theorem step_of_mem_nil (hrun : s.run = .running) (hstring : s.inString = none) (hmem : s.mem = [])
    (hidle : s.input.answer = .idle) :
    ∃ k ≤ 1, step s = .next { s with pc := s.pc + 1#16, input := s.input.drop k } := by
  by_cases hpc : s.pc = kbsr
  · refine ⟨1, le_rfl, ?_⟩
    rw [step_kbsr_of_idle hrun hstring hpc hidle, poll_of_idle_of_mem_nil hmem hidle, ← hpc]
    rfl
  · refine ⟨0, Nat.zero_le 1, ?_⟩
    rw [step_plain s hrun hstring hpc, cell_of_mem_nil hmem, decodeWord_zero, exec_br_no_flag]
    rfl

end

/-- Steps over zero memory to which no character comes are no-ops: the pc counts them. -/
theorem run_of_mem_nil (n : Nat) {s : State} (hrun : s.run = .running) (hstring : s.inString = none)
    (hmem : s.mem = []) (hidle : ∀ k, (s.input.drop k).answer = .idle) :
    ∃ k ≤ n, Host.Core.run Sys2Proof.core n s =
      .next { s with pc := s.pc + BitVec.ofNat 16 n, input := s.input.drop k } := by
  induction n generalizing s with
  | zero => exact ⟨0, le_rfl, by rw [BitVec.add_zero]; rfl⟩
  | succ n ih =>
    obtain ⟨j, hj, hstep⟩ := step_of_mem_nil hrun hstring hmem (hidle 0)
    obtain ⟨k, hk, hrest⟩ :=
      ih (s := { s with pc := s.pc + 1#16, input := s.input.drop j }) hrun hstring hmem
        fun k => by rw [drop_drop]; exact hidle (j + k)
    have hpc : s.pc + 1#16 + BitVec.ofNat 16 n = s.pc + BitVec.ofNat 16 (n + 1) := by
      rw [BitVec.add_assoc, Nat.add_comm n 1, BitVec.ofNat_add]
    refine ⟨j + k, by omega, ?_⟩
    rw [run_succ s n hstep, hrest, drop_drop, hpc]

/-- An input that a call of the device leaves as it is stays so (10_state R34). -/
theorem drop_of_rest_eq {i : Input} (h : i.rest = i) (k : Nat) : i.drop k = i := by
  induction k with
  | zero => rfl
  | succ k ih => rw [drop_succ, h, ih]

/-- Settles O47: every step is a no-op, and the answers that polls use up are the first to come. -/
theorem zeroMemoryRunsForEver : Obligations.ZeroMemoryRunsForEver := by
  intro n s hrun hstring hmem hidle
  obtain ⟨k, hk, hend⟩ := run_of_mem_nil n hrun hstring hmem hidle
  refine ⟨k, hk, hend, ⟨s.input.listed.take k, ?_⟩, fun hempty => ?_⟩
  · rw [drop_listed, List.take_append_drop]
  · exact drop_of_rest_eq (hempty ▸ rfl) k

end Sys2Proof.Machine
end
